-- ==== Sys2Proof/Word.lean ====
section
/-! DEFINITION. The machine's word types and the shape of a polynomial register. -/

namespace Sys2Proof

/-- A 32-bit register or command word (10_state.md R28). -/
abbrev Word := BitVec 32

/-- A coefficient, a 16-bit two's complement value (10_state.md R23): `int16` is `BitVec 16` read with `toInt`. -/
abbrev Coeff := BitVec 16

/-- A byte of BUF (10_state.md R25). -/
abbrev Byte := BitVec 8

/-- A polynomial value: 256 coefficients, element `i` the coefficient of x^i (00_scope.md R12, 10_state.md R22). -/
abbrev Poly := Vector Coeff 256

end Sys2Proof
end

