-- ==== Sys2Proof/Config.lean ====
section
/-! DEFINITION. The fixed parameters of the hardware (00_scope.md R7 to R9), the types of the open ones, and the free
values of the OUT_OF_CONTRACT = draw reading. The values of the ROMs and of the datapath constants stand in
Machine/Rom.lean. -/

namespace Sys2Proof

/-- The modulus Q (00_scope.md R7). -/
abbrev Q : Int := 3329

/-- The size of the host's window in bytes (20_memory.md R50). -/
abbrev windowBytes : Nat := 4096

/-- The size of BUF in bytes (10_state.md R25). -/
abbrev bufBytes : Nat := 384

/-- The model parameter OUT_OF_CONTRACT (00_scope.md R18): how a result computed from out-of-contract inputs is
observed. `exact`, the spec's default, is normative for this hardware; `draw` makes each such result a free value. -/
inductive OutOfContract where
  | exact
  | draw
  deriving DecidableEq, Repr

/-- A set of coefficient indices 0..255, as its characteristic vector: one set is one value, whatever the order its
indices are listed in (10_state.md R37; log 8). -/
abbrev IndexSet := Vector Bool 256

/-- The reduction schedule INV_SCHEDULE: the seven sets S_1 .. S_7, S_l at position l - 1 (41_ntt.md R145). -/
abbrev Schedule := Vector IndexSet 7

/-- The open parameters that the platform or the claim fixes (92_eei_decisions.md, Open parameters). No step and no
reset changes one. LATENCY is not here: it is where the core's turn stands in the event queue (log 1). -/
structure Config where
  /-- MRC_BASE, the bus address of the window (20_memory.md R51). -/
  mrcBase : Nat
  /-- OUT_OF_CONTRACT (00_scope.md R18). -/
  outOfContract : OutOfContract
  /-- INV_SCHEDULE, a ROM (10_state.md R37). -/
  invSchedule : Schedule
  deriving DecidableEq, Repr

/-- The free draws of 00_scope.md R18 (log 6, log 7): the value that result number `lane` of the `n`-th drawing
command takes. Opaque, so no proof can know one. -/
opaque Config.freeCoeff (n lane : Nat) : Coeff

end Sys2Proof
end

