-- ==== Sys2Proof/Syntax.lean ====
section
/-! DEFINITION. The commands (30_encoding.md R74), the reasons a command word or an access is turned away, and the
events the host and the platform present to the block. -/

namespace Sys2Proof

/-- A polynomial register index, P0 to P3: the whole range of the 2-bit fields PD, PA and PB (30_encoding.md R72). -/
abbrev PReg := Fin 4

/-- A decoded command: the mnemonic with the fields it uses (10_state.md R43). One constructor per row of the opcode
table. Fields a command does not use must be 0 in its word (30_encoding.md R72) and have no place here, so every term
is a legal command. -/
inductive Instr where
  | montReduce
  | barrettReduce
  | toMont
  | csubq
  | ntt (pd : PReg)
  | invntt (pd : PReg)
  | polyAdd (pd pa pb : PReg)
  | polySub (pd pa pb : PReg)
  | polyBasemul (pd pa pb : PReg)
  | polyNormalize (pd : PReg)
  | polyTomont (pd : PReg)
  | polyCompressQ4 (pa : PReg)
  | polyCompressQ5 (pa : PReg)
  | polyCompressQ10 (pa : PReg)
  | polyCompressQ11 (pa : PReg)
  | polyDecompressQ4 (pd : PReg)
  | polyDecompressQ5 (pd : PReg)
  | polyDecompressQ10 (pd : PReg)
  | polyDecompressQ11 (pd : PReg)
  | polyPack (pa : PReg)
  | polyUnpack (pd : PReg)
  deriving DecidableEq, Repr

/-- The values STATUS.ERRCODE can hold (60_exceptions.md R234). Codes 5 to 15 are never produced, so they have no
constructor. -/
inductive ErrCode where
  | none
  | illegalOp
  | reservedField
  | unsupportedD
  | cmdWhileBusy
  deriving DecidableEq, Repr

/-- The two kinds of BusError (60_exceptions.md R243). -/
inductive BusErrorKind where
  | misaligned
  | width
  deriving DecidableEq, Repr

/-- What the bus answers to one host access: the data of a read, the completion of a write, or a BusError
(00_scope.md R16, 60_exceptions.md R243). -/
inductive Response where
  | data (v : Word)
  | done
  | busError (k : BusErrorKind)
  deriving DecidableEq, Repr

/-- What comes next at the block's boundary. The queue of these in State decides which agent moves next
(10_state.md R20; log 1). -/
inductive HostEvent where
  /-- The host reads `n` bytes at bus address `addr`. -/
  | read (addr n : Nat)
  /-- The host writes the low `n` bytes of `v` at bus address `addr`. -/
  | write (addr n : Nat) (v : Word)
  /-- The core has its turn: it performs PENDING if there is one (10_state.md R43). -/
  | coreTurn
  /-- The reset input is asserted (true) or deasserted (false) (70_reset_and_hazards.md R260). -/
  | reset (asserted : Bool)
  deriving DecidableEq, Repr

end Sys2Proof
end

