-- ==== Sys2Proof/WellFormed.lean ====
section
/-! DEFINITION. The checks on what comes from outside the block. A command needs none: `Instr` has no place for an
illegal field (30_encoding.md R72). The machine is total without these checks; claims about host programs use them. -/

namespace Sys2Proof

/-- MRC_BASE is a multiple of 4096 (20_memory.md R51). -/
def Config.wf (c : Config) : Bool :=
  c.mrcBase % windowBytes == 0

/-- A bus address inside the window (20_memory.md R51). -/
def Config.inWindow (c : Config) (addr : Nat) : Bool :=
  decide (c.mrcBase ≤ addr) && decide (addr < c.mrcBase + windowBytes)

/-- The access widths of 20_memory.md R55. -/
def widthOk (n : Nat) : Bool :=
  n == 1 || n == 2 || n == 4

/-- An access the bus passes on to some region: inside the window, of 1, 2 or 4 bytes, naturally aligned
(20_memory.md R55), and a written value that fits its width. -/
def HostEvent.wf (c : Config) : HostEvent → Bool
  | .read addr n => c.inWindow addr && widthOk n && (addr - c.mrcBase) % n == 0
  | .write addr n v =>
    c.inWindow addr && widthOk n && (addr - c.mrcBase) % n == 0 && decide (v.toNat < 2 ^ (8 * n))
  | .coreTurn => true
  | .reset _ => true

end Sys2Proof
end

