-- ==== Sys2Proof/Decode.lean ====
section
/-! DEFINITION. Decoding a command word, total and rejecting by name (30_encoding.md R70 to R77), and the encoder. -/

namespace Sys2Proof

/-- `v[hi:lo]` as a number, from its low bit and its width (00_scope.md R10). -/
def bitField (w : Word) (lo width : Nat) : Nat :=
  (w.toNat / 2 ^ lo) % 2 ^ width

/-- OP, bits 5:0 (30_encoding.md R71). -/
def fieldOp (w : Word) : Nat := bitField w 0 6

/-- PD, bits 9:8. -/
def fieldPD (w : Word) : Nat := bitField w 8 2

/-- PA, bits 11:10. -/
def fieldPA (w : Word) : Nat := bitField w 10 2

/-- PB, bits 13:12. -/
def fieldPB (w : Word) : Nat := bitField w 12 2

/-- D, bits 19:16. -/
def fieldD (w : Word) : Nat := bitField w 16 4

/-- The reserved bits 7:6, 15:14 and 31:20 are all 0 (30_encoding.md R71). -/
def reservedZero (w : Word) : Bool :=
  bitField w 6 2 == 0 && bitField w 14 2 == 0 && bitField w 20 12 == 0

/-- A register field as a register index (`zext_2`, 30_encoding.md R72). -/
def pregOf (n : Nat) : PReg := Fin.ofNat 4 n

/-- Which fields an opcode uses (the "fields used" column of 30_encoding.md R74). -/
structure UsedFields where
  pd : Bool
  pa : Bool
  pb : Bool
  d  : Bool
  deriving DecidableEq, Repr

/-- The opcode map's "fields used" column; `none` for an OP that is not in the map (30_encoding.md R74, R77). -/
def usedFields : Nat → Option UsedFields
  | 0x01 | 0x02 | 0x03 | 0x04 => some ⟨false, false, false, false⟩
  | 0x08 | 0x09 | 0x0D | 0x0E => some ⟨true, false, false, false⟩
  | 0x0A | 0x0B | 0x0C => some ⟨true, true, true, false⟩
  | 0x10 => some ⟨false, true, false, true⟩
  | 0x11 => some ⟨true, false, false, true⟩
  | 0x12 => some ⟨false, true, false, false⟩
  | 0x13 => some ⟨true, false, false, false⟩
  | _ => none

/-- Every field that the opcode does not use is 0 (30_encoding.md R76). -/
def unusedZero (u : UsedFields) (w : Word) : Bool :=
  (u.pd || fieldPD w == 0) && (u.pa || fieldPA w == 0) && (u.pb || fieldPB w == 0) && (u.d || fieldD w == 0)

/-- The command an opcode and its fields name (30_encoding.md R74, R75); `none` for a width D outside 4, 5, 10, 11
(R76). -/
def commandOf (op : Nat) (pd pa pb : PReg) (d : Nat) : Option Instr :=
  match op, d with
  | 0x01, _ => some .montReduce
  | 0x02, _ => some .barrettReduce
  | 0x03, _ => some .toMont
  | 0x04, _ => some .csubq
  | 0x08, _ => some (.ntt pd)
  | 0x09, _ => some (.invntt pd)
  | 0x0A, _ => some (.polyAdd pd pa pb)
  | 0x0B, _ => some (.polySub pd pa pb)
  | 0x0C, _ => some (.polyBasemul pd pa pb)
  | 0x0D, _ => some (.polyNormalize pd)
  | 0x0E, _ => some (.polyTomont pd)
  | 0x10, 4 => some (.polyCompressQ4 pa)
  | 0x10, 5 => some (.polyCompressQ5 pa)
  | 0x10, 10 => some (.polyCompressQ10 pa)
  | 0x10, 11 => some (.polyCompressQ11 pa)
  | 0x11, 4 => some (.polyDecompressQ4 pd)
  | 0x11, 5 => some (.polyDecompressQ5 pd)
  | 0x11, 10 => some (.polyDecompressQ10 pd)
  | 0x11, 11 => some (.polyDecompressQ11 pd)
  | 0x12, _ => some (.polyPack pa)
  | 0x13, _ => some (.polyUnpack pd)
  | _, _ => none

/-- The decoder of 30_encoding.md R76: the checks stand in its order, which is the priority order of 60_exceptions.md
R237 below CMD_WHILE_BUSY. -/
def decode (w : Word) : Except ErrCode Instr :=
  match usedFields (fieldOp w) with
  | none => .error .illegalOp
  | some u =>
    if !reservedZero w then .error .reservedField
    else if !unusedZero u w then .error .reservedField
    else
      match commandOf (fieldOp w) (pregOf (fieldPD w)) (pregOf (fieldPA w)) (pregOf (fieldPB w)) (fieldD w) with
      | none => .error .unsupportedD
      | some i => .ok i

/-- A command word from its fields (30_encoding.md R71). -/
def commandWord (op : Nat) (pd pa pb : PReg) (d : Nat) : Word :=
  BitVec.ofNat 32 (op + pd.val * 2 ^ 8 + pa.val * 2 ^ 10 + pb.val * 2 ^ 12 + d * 2 ^ 16)

/-- The word of a command (30_encoding.md R74, R84): unused fields and reserved bits are 0. -/
def encode : Instr → Word
  | .montReduce => commandWord 0x01 0 0 0 0
  | .barrettReduce => commandWord 0x02 0 0 0 0
  | .toMont => commandWord 0x03 0 0 0 0
  | .csubq => commandWord 0x04 0 0 0 0
  | .ntt pd => commandWord 0x08 pd 0 0 0
  | .invntt pd => commandWord 0x09 pd 0 0 0
  | .polyAdd pd pa pb => commandWord 0x0A pd pa pb 0
  | .polySub pd pa pb => commandWord 0x0B pd pa pb 0
  | .polyBasemul pd pa pb => commandWord 0x0C pd pa pb 0
  | .polyNormalize pd => commandWord 0x0D pd 0 0 0
  | .polyTomont pd => commandWord 0x0E pd 0 0 0
  | .polyCompressQ4 pa => commandWord 0x10 0 pa 0 4
  | .polyCompressQ5 pa => commandWord 0x10 0 pa 0 5
  | .polyCompressQ10 pa => commandWord 0x10 0 pa 0 10
  | .polyCompressQ11 pa => commandWord 0x10 0 pa 0 11
  | .polyDecompressQ4 pd => commandWord 0x11 pd 0 0 4
  | .polyDecompressQ5 pd => commandWord 0x11 pd 0 0 5
  | .polyDecompressQ10 pd => commandWord 0x11 pd 0 0 10
  | .polyDecompressQ11 pd => commandWord 0x11 pd 0 0 11
  | .polyPack pa => commandWord 0x12 0 pa 0 0
  | .polyUnpack pd => commandWord 0x13 pd 0 0 0

/-- What this decoder reads from an instruction whose bits are `w`, bit 0 the least significant bit of the one 32-bit
word of the format CMD32 (30_encoding.md R70); bits at and above `nbits` count as 0. -/
def decodeTableWord (nbits w : Nat) : Option Instr :=
  (decode (BitVec.ofNat 32 (w % 2 ^ nbits))).toOption

end Sys2Proof
end

