-- ==== Sys2Proof/Machine/Arith.lean ====
section
/-! DEFINITION. The arithmetic primitives of 00_scope.md R11 and the elementwise operations on a polynomial value. -/

namespace Sys2Proof.Machine

/-- `wrap16(v)`: two's complement truncation to 16 bits (00_scope.md R11). -/
def wrap16 (v : Int) : Coeff := BitVec.ofInt 16 v

/-- `wrap16` of a 32-bit register: its low 16 bits (10_state.md R26). -/
def low16 (w : Word) : Coeff := wrap16 w.toInt

/-- `sext_16` of a coefficient as a 32-bit word (10_state.md R35). -/
def sext16Word (c : Coeff) : Word := BitVec.ofInt 32 c.toInt

/-- `v[16k+15 : 16k]`, halfword `k` of a word (00_scope.md R10). -/
def halfOf (v : Word) (k : Nat) : Coeff := BitVec.ofNat 16 (v.toNat / 2 ^ (16 * k))

/-- `v[8k+7 : 8k]`, byte `k` of a word (20_memory.md R54). -/
def byteOf (v : Word) (k : Nat) : Byte := BitVec.ofNat 8 (v.toNat / 2 ^ (8 * k))

/-- The bytes of an access of `n` bytes, the byte at the lowest address first (little-endian, 20_memory.md R54). -/
def bytesOfWord (n : Nat) (v : Word) : List Byte := (List.range n).map (byteOf v)

/-- The value of a sequence of bytes, the first byte in bits 7:0 (20_memory.md R54, R57). -/
def wordOfBytes (bs : List Byte) : Word := BitVec.ofNat 32 (bs.foldr (fun b acc => b.toNat + 256 * acc) 0)

/-- A polynomial value from a list of 256 coefficients. -/
def polyOfList (l : List Coeff) (h : l.length = 256) : Poly := ⟨l.toArray, by simpa using h⟩

/-- A function applied to every coefficient. -/
def polyMap (f : Coeff → Coeff) (c : Poly) : Poly :=
  polyOfList (c.toList.map f) (by simp)

/-- A function applied to the coefficients of the same index. -/
def polyZip (f : Coeff → Coeff → Coeff) (a b : Poly) : Poly :=
  polyOfList (List.zipWith f a.toList b.toList) (by simp)

end Sys2Proof.Machine
end

