-- ==== Sys2Proof/Machine/Rom.lean ====
section
/-! DEFINITION. The datapath constants and the constant ROMs (10_state.md R36 to R38), and the hard-wired ID. -/

namespace Sys2Proof.Machine

/-- QINV, the inverse of Q modulo 2^16 (40_field_arithmetic.md R101). -/
def qinv : Int := 62209

/-- BARRETT_V (40_field_arithmetic.md R104). -/
def barrettV : Int := 20159

/-- BARRETT_SHIFT (40_field_arithmetic.md R104). -/
def barrettShift : Nat := 26

/-- R^2 mod Q (00_scope.md R8, 40_field_arithmetic.md R110). -/
def rSquared : Int := 1353

/-- F_INV, the Montgomery form of the inverse of 128 (41_ntt.md R141). -/
def fInv : Int := 512

/-- The value of the ID register, ASCII "MRC1" (10_state.md R30). -/
def idValue : Word := 0x4D524331

/-- The twiddle table ZETAS[0..127] (41_ntt.md R131), in the table's own rows of eight. -/
def zetas : List Int :=
  [2285, 2571, 2970, 1812, 1493, 1422, 287, 202]
  ++ [3158, 622, 1577, 182, 962, 2127, 1855, 1468]
  ++ [573, 2004, 264, 383, 2500, 1458, 1727, 3199]
  ++ [2648, 1017, 732, 608, 1787, 411, 3124, 1758]
  ++ [1223, 652, 2777, 1015, 2036, 1491, 3047, 1785]
  ++ [516, 3321, 3009, 2663, 1711, 2167, 126, 1469]
  ++ [2476, 3239, 3058, 830, 107, 1908, 3082, 2378]
  ++ [2931, 961, 1821, 2604, 448, 2264, 677, 2054]
  ++ [2226, 430, 555, 843, 2078, 871, 1550, 105]
  ++ [422, 587, 177, 3094, 3038, 2869, 1574, 1653]
  ++ [3083, 778, 1159, 3182, 2552, 1483, 2727, 1119]
  ++ [1739, 644, 2457, 349, 418, 329, 3173, 3254]
  ++ [817, 1097, 603, 610, 1322, 2044, 1864, 384]
  ++ [2114, 3193, 1218, 1994, 2455, 220, 2142, 1670]
  ++ [2144, 1799, 2051, 794, 1819, 2475, 2459, 478]
  ++ [3221, 3021, 996, 991, 958, 1869, 1522, 1628]

/-- ZETAS[k] as an integer in [0, Q) (41_ntt.md R131). -/
def zeta (k : Nat) : Int := zetas.getD k 0

/-- The default set S_l = indices j with j mod 2^(l+1) < 2^l (41_ntt.md R145). -/
def defaultIndexSet (l : Nat) : IndexSet :=
  ⟨((List.range 256).map fun j => decide (j % 2 ^ (l + 1) < 2 ^ l)).toArray, by simp⟩

/-- The default INV_SCHEDULE, S_1 to S_7 (41_ntt.md R145). -/
def defaultSchedule : Schedule :=
  ⟨((List.range 7).map fun i => defaultIndexSet (i + 1)).toArray, by simp⟩

/-- The indices of a set in increasing order (41_ntt.md R145). -/
def indicesOf (s : IndexSet) : List Nat :=
  ((List.range 256).zip s.toList).filterMap fun e => if e.2 then some e.1 else none

/-- The ROM form of a schedule: each set's indices in increasing order and then the sentinel 0xFFFF
(41_ntt.md R145). -/
def scheduleRom (s : Schedule) : List (BitVec 16) :=
  s.toList.flatMap fun set => (indicesOf set).map (BitVec.ofNat 16) ++ [0xFFFF]

end Sys2Proof.Machine
end

