-- ==== Sys2Proof/Machine/State.lean ====
section
/-! DEFINITION. The machine's state as plain data, the reasons it can stop, and the state after reset. -/

namespace Sys2Proof.Machine

/-- A memory: cells in canonical form, addresses strictly rising and no cell equal to what an unlisted address reads
as, which is 0x00, the reset contents of BUF (10_state.md R42; log 9). -/
abbrev Memory := List Host.Cell

/-- A polynomial register file P0 to P3 (10_state.md R22). -/
abbrev PolyFile := Vector Poly 4

/-- Why the machine stops with a fault. -/
inductive Fault where
  /-- `Hazard(BUSY_ACCESS)`: a host access to P, BUF, SIN or SOUT while BUSY = 1 (70_reset_and_hazards.md R270). It is
  terminal (R271). Raised by a host read or write, never by a command. Safe: the spec defines no later step. -/
  | hazardBusyAccess
  deriving DecidableEq, Repr

/-- Why the machine refuses to give a step a meaning. -/
inductive Refusal where
  /-- A command with no meaning in this model. Raised by the dispatch only. Safe. -/
  | notModelled (mnemonic : String)
  /-- A host access at a bus address outside the window, of which the spec says nothing (20_memory.md R51; log 5).
  Raised by a host read or write, never by a command. Safe. -/
  | outsideWindow
  deriving DecidableEq, Repr

end Sys2Proof.Machine

namespace Sys2Proof

/-- The parameters in `State.reset`: the spec's defaults, and MRC_BASE = 0, for which the spec gives none
(92_eei_decisions.md, Open parameters; DESIGN CHOICE, log 4). -/
def Config.default : Config :=
  { mrcBase := 0, outOfContract := .exact, invSchedule := Sys2Proof.Machine.defaultSchedule }

end Sys2Proof

namespace Sys2Proof.Machine

/-- The state: everything 10_state.md gives the block, then its fixed parameters, then the model's own fields.
STATUS.BUSY is `pending` having a value (10_state.md R43; log 3); ID, ZETAS and the datapath constants are constants
(R30, R36, R38); irq is computed (R41). -/
structure State where
  /-- P[p][i] (10_state.md R22, R23). -/
  p : PolyFile
  /-- BUF[0..383], keyed by the index k (10_state.md R25; log 9). -/
  buf : Memory
  /-- SIN (10_state.md R26). -/
  sin : Word
  /-- SOUT (10_state.md R27). -/
  sout : Coeff
  /-- CTRL.IE (10_state.md R31). -/
  ie : Bool
  /-- STATUS.DONE (10_state.md R32). -/
  done : Bool
  /-- STATUS.ERR (10_state.md R32). -/
  err : Bool
  /-- STATUS.ERRCODE (10_state.md R32, 60_exceptions.md R234). -/
  errcode : ErrCode
  /-- The CMD readback (10_state.md R33). -/
  cmd : Word
  /-- PENDING (10_state.md R43). -/
  pending : Option Instr
  /-- The fixed parameters, INV_SCHEDULE among them; no step and no reset changes them (10_state.md R37). -/
  cfg : Config
  /-- The model's own: the level of the reset input (70_reset_and_hazards.md R260; log 11). -/
  resetPin : Bool
  /-- The model's own: what comes next at the boundary, the first first (log 1). -/
  events : List HostEvent
  /-- The model's own: the bus responses so far, the newest first (log 12). -/
  responses : List Response
  /-- The model's own: how many commands have drawn free values (log 7). -/
  draws : Nat
  deriving DecidableEq, Repr

/-- The machine right after reset: every value of 10_state.md R42; the parameters of `Config.default`; nothing
waiting at the boundary (DESIGN CHOICE, log 2). -/
def State.reset : State where
  p := Vector.replicate 4 (Vector.replicate 256 0)
  buf := []
  sin := 0
  sout := 0
  ie := false
  done := false
  err := false
  errcode := .none
  cmd := 0
  pending := none
  cfg := Config.default
  resetPin := false
  events := []
  responses := []
  draws := 0

end Sys2Proof.Machine
end

