-- ==== Sys2Proof/Machine/Flags.lean ====
section
/-! DEFINITION. The bits of STATUS and CTRL, the interrupt output, and the writes that clear flags (10_state.md R31,
R32, R41; 60_exceptions.md R234, R240, R241). No command writes a flag (10_state.md R32). -/

namespace Sys2Proof.Machine

/-- STATUS.BUSY: 1 exactly when PENDING has a value (10_state.md R43). -/
def State.busy (s : State) : Bool := s.pending.isSome

/-- The number of an error code (60_exceptions.md R234). -/
def errNumber : ErrCode → Nat
  | .none => 0
  | .illegalOp => 1
  | .reservedField => 2
  | .unsupportedD => 3
  | .cmdWhileBusy => 4

/-- STATUS as the host reads it: BUSY, DONE, ERR in bits 0 to 2, ERRCODE in bits 11:8, every other bit 0
(10_state.md R32). -/
def statusWord (s : State) : Word :=
  BitVec.ofNat 32 (s.busy.toNat + 2 * s.done.toNat + 4 * s.err.toNat + 256 * errNumber s.errcode)

/-- CTRL as the host reads it: IE in bit 0; SRST and the reserved bits read 0 (10_state.md R31). -/
def ctrlWord (s : State) : Word := BitVec.ofNat 32 s.ie.toNat

/-- The interrupt output: `CTRL.IE & (STATUS.DONE | STATUS.ERR)` (10_state.md R41, 60_exceptions.md R241). -/
def irq (s : State) : Bool := s.ie && (s.done || s.err)

/-- A host write to STATUS: bit 1 clears DONE, bit 2 clears ERR, and a write that clears ERR makes ERRCODE 0
(10_state.md R32; log 13). It is the only return from an event (60_exceptions.md R240). -/
def writeStatus (s : State) (v : Word) : State :=
  { s with
    done := s.done && !v.getLsbD 1
    err := s.err && !v.getLsbD 2
    errcode := if v.getLsbD 2 then .none else s.errcode }

end Sys2Proof.Machine
end

