-- ==== Sys2Proof/Machine/Operands.lean ====
section
/-! DEFINITION. Where commands find their operands: SIN, the polynomial registers and BUF (10_state.md R24), and the
reads and writes of BUF as a memory in canonical form (log 9). -/

namespace Sys2Proof.Machine

/-- SIN as int32 (10_state.md R26). -/
def sinInt (s : State) : Int := s.sin.toInt

/-- `wrap16(SIN)` (10_state.md R26). -/
def sin16 (s : State) : Coeff := low16 s.sin

/-- P[r] (10_state.md R22). -/
def polyReg (s : State) (r : PReg) : Poly := s.p[r]

/-- `P[p][i]` by numbers; 0 outside the register file. -/
def coeffAt (f : PolyFile) (p i : Nat) : Coeff :=
  ((f.toList.getD p (Vector.replicate 256 0)).toList.getD i 0)

/-- Coefficient `i` of a polynomial value; 0 outside 0..255. -/
def coeff (c : Poly) (i : Nat) : Coeff := c.toList.getD i 0

/-- A polynomial value with coefficient `i` replaced. -/
def setCoeff (c : Poly) (i : Nat) (v : Coeff) : Poly :=
  polyOfList (c.toList.set i v) (by simp)

/-- The register file with P[r] replaced. -/
def setPoly (f : PolyFile) (r : PReg) (c : Poly) : PolyFile := f.set r c

/-- The cells from address `lo` on of a canonical memory whose bytes are these and nothing else. -/
def Memory.cellsFrom (lo : Nat) : List Byte → Memory
  | [] => []
  | b :: bs => if b = 0 then Memory.cellsFrom (lo + 1) bs else (lo, b) :: Memory.cellsFrom (lo + 1) bs

/-- The byte at an address; an unlisted address reads 0x00 (10_state.md R42; log 9). -/
def Memory.read : Memory → Nat → Byte
  | [], _ => 0
  | (a, b) :: m, k => if a = k then b else Memory.read m k

/-- The bytes of the `n` addresses from `lo` on, the lowest first. -/
def Memory.readBlock (m : Memory) (lo n : Nat) : List Byte := (List.range' lo n).map (Memory.read m)

/-- The memory with these bytes at the addresses from `lo` on and every other byte as before. -/
def Memory.writeBlock (m : Memory) (lo : Nat) (bs : List Byte) : Memory :=
  m.filter (fun c => decide (c.1 < lo)) ++ Memory.cellsFrom lo bs
    ++ m.filter (fun c => decide (lo + bs.length ≤ c.1))

/-- Addresses strictly rising from `lo` on and inside BUF, and no cell that holds 0x00. -/
def Memory.wfFrom (lo : Nat) : Memory → Bool
  | [] => true
  | (a, b) :: m => decide (lo ≤ a) && decide (a < bufBytes) && (b != 0) && Memory.wfFrom (a + 1) m

/-- The canonical form: equal memories are equal lists. -/
def Memory.wf (m : Memory) : Bool := Memory.wfFrom 0 m

/-- `BUF[k]` (10_state.md R25). -/
def bufByte (s : State) (k : Nat) : Byte := s.buf.read k

/-- `BUF[0 .. n-1]`. -/
def bufPrefix (s : State) (n : Nat) : List Byte := s.buf.readBlock 0 n

end Sys2Proof.Machine
end

