-- ==== Sys2Proof/Machine/Ops.lean ====
section
/-! DEFINITION. The named operations that change the state: performing a command's writes, raising a command error,
issuing a command, the two resets, and a bus response. -/

namespace Sys2Proof.Machine

/-! ## Results, exact or drawn (00_scope.md R18; log 6, log 7) -/

/-- A scalar or coefficient as it is observed: the rule's value, or a free draw when its inputs are out of contract
and OUT_OF_CONTRACT is draw. -/
def observedCoeff (s : State) (inContract : Bool) (lane : Nat) (v : Coeff) : Coeff :=
  match s.cfg.outOfContract with
  | .exact => v
  | .draw => if inContract then v else Config.freeCoeff s.draws lane

/-- A polynomial result as it is observed, coefficient by coefficient. -/
def observedPoly (s : State) (inContract : Fin 256 → Bool) (v : Poly) : Poly :=
  match s.cfg.outOfContract with
  | .exact => v
  | .draw => Vector.ofFn fun i => if inContract i then v[i] else Config.freeCoeff s.draws i

/-- The d-bit values a codec command writes, as they are observed: a draw is any value of the output width
(93_implementation_defined.md I14). -/
def observedValues (s : State) (inContract : Fin 256 → Bool) (d : Nat) (v : List Nat) : List Nat :=
  match s.cfg.outOfContract with
  | .exact => v
  | .draw =>
    (List.finRange 256).map fun i =>
      if inContract i then v.getD i 0 else (Config.freeCoeff s.draws i).toNat % 2 ^ d

/-- The draw counter after a command: it advances exactly when the command drew a value. -/
def drawsAfter (s : State) (allInContract : Bool) : Nat :=
  match s.cfg.outOfContract with
  | .exact => s.draws
  | .draw => if allInContract then s.draws else s.draws + 1

/-- Every lane is in contract. -/
def allLanes (inContract : Fin 256 → Bool) : Bool := (List.finRange 256).all inContract

/-! ## Performing a command (30_encoding.md R81) -/

/-- The end of the core's step: PENDING none, so BUSY 0, and DONE 1 (10_state.md R43, 30_encoding.md R81). -/
def complete (s : State) : State := { s with pending := none, done := true }

/-- A scalar command's step: SOUT is written and the command completes. -/
def scalarResult (s : State) (inContract : Bool) (v : Coeff) : State :=
  complete { s with sout := observedCoeff s inContract 0 v, draws := drawsAfter s inContract }

/-- A polynomial command's step: P[pd] is written and the command completes. -/
def polyResult (s : State) (pd : PReg) (inContract : Fin 256 → Bool) (v : Poly) : State :=
  complete
    { s with
      p := setPoly s.p pd (observedPoly s inContract v)
      draws := drawsAfter s (allLanes inContract) }

/-- A codec command's write of the bytes BUF[0 ..], and its completion; every later byte keeps its value
(20_memory.md R68). `encode` gives the bytes of the values observed. -/
def bufResult (s : State) (inContract : Fin 256 → Bool) (d : Nat) (v : List Nat) (encode : List Nat → List Byte) :
    State :=
  complete
    { s with
      buf := s.buf.writeBlock 0 (encode (observedValues s inContract d v))
      draws := drawsAfter s (allLanes inContract) }

/-- The contract of an operation that has no precondition. -/
def everyLane : Fin 256 → Bool := fun _ => true

/-! ## Command errors and issue (60_exceptions.md R235, R236) -/

/-- `raise CmdError(code)`: ERR and ERRCODE are set and nothing else changes; the latest code wins
(60_exceptions.md R235). -/
def raiseCmdError (s : State) (c : ErrCode) : State := { s with err := true, errcode := c }

/-- Accepting a command: PENDING, and so BUSY, is set and DONE is cleared (30_encoding.md R80). -/
def accept (s : State) (i : Instr) : State := { s with pending := some i, done := false }

/-- `issue(w)`, one atomic host step (60_exceptions.md R236): the readback, then CMD_WHILE_BUSY, then the decoder's
rejection, else acceptance. -/
def issue (s : State) (w : Word) : State :=
  if s.busy then raiseCmdError { s with cmd := w } .cmdWhileBusy
  else
    match decode w with
    | .error c => raiseCmdError { s with cmd := w } c
    | .ok i => accept { s with cmd := w } i

/-! ## Resets (70_reset_and_hazards.md R260 to R263) -/

/-- Both resets: every piece of the block's state takes its reset value; the ROMs and parameters stay (R261), and so
do the fields that are not the block's. -/
def resetBlock (s : State) : State :=
  { State.reset with
    cfg := s.cfg
    resetPin := s.resetPin
    events := s.events
    responses := s.responses
    draws := s.draws }

/-- A host write to CTRL: with bit 1 (SRST) set, the soft reset, and the rest of the write is discarded (R262);
otherwise bit 0 is stored in IE (10_state.md R31). -/
def writeCtrl (s : State) (v : Word) : State :=
  if v.getLsbD 1 then resetBlock s else { s with ie := v.getLsbD 0 }

/-! ## The bus -/

/-- The bus response to the host (60_exceptions.md R243, R248). -/
def respond (s : State) (r : Response) : State := { s with responses := r :: s.responses }

/-- The step of an access that completes. -/
def respondNext (s : State) (r : Response) : Host.Outcome State Fault Refusal := .next (respond s r)

/-- The command word `w` presented for the core's very next turn, as if the host had just issued it to an idle block
and the core came next; a word the decoder rejects is presented as the host's next write to CMD (log 2). -/
def presentCommand (s : State) (w : Word) : State :=
  match decode w with
  | .ok i =>
    { accept { s with cmd := w } i with resetPin := false, events := .coreTurn :: s.events }
  | .error _ =>
    { s with
      pending := none
      resetPin := false
      events := .write (s.cfg.mrcBase + 0x00C) 4 w :: s.events }

end Sys2Proof.Machine
end

