-- ==== Sys2Proof/Machine/Field.lean ====
section
/-! DEFINITION. Field arithmetic: the four scalar functions and the four scalar commands (40_field_arithmetic.md). -/

namespace Sys2Proof.Machine

/-- `montgomery_reduce(x)`: u is the low half of x * QINV read as signed, the subtraction is exact, the result is
truncated to 16 bits (40_field_arithmetic.md R102). -/
def montgomeryReduce (x : Int) : Coeff :=
  let u := (wrap16 (x * qinv)).toInt
  wrap16 ((x - u * Q) / 2 ^ 16)

/-- `barrett_reduce(a)`, with no rounding constant before the arithmetic shift (40_field_arithmetic.md R105). -/
def barrettReduce (a : Coeff) : Coeff :=
  let t := barrettV * a.toInt / 2 ^ barrettShift
  wrap16 (a.toInt - t * Q)

/-- `csubq(a)`: subtract Q; if still negative, add Q back (40_field_arithmetic.md R107). -/
def csubqReduce (a : Coeff) : Coeff :=
  let a1 := wrap16 (a.toInt - Q)
  if a1.toInt < 0 then wrap16 (a1.toInt + Q) else a1

/-- `to_montgomery(a)` (40_field_arithmetic.md R110). -/
def toMontgomery (a : Coeff) : Coeff := montgomeryReduce (a.toInt * rSquared)

/-- `|v| ≤ b`. -/
def absLe (b : Int) (v : Int) : Bool := decide (-b ≤ v) && decide (v ≤ b)

/-- The contract of montgomery_reduce: |x| < Q * 2^15 (40_field_arithmetic.md R103). -/
def montgomeryContract (x : Int) : Bool := absLe (Q * 2 ^ 15 - 1) x

/-- The contract of csubq: [0, 2Q) (40_field_arithmetic.md R108, 90_conflicts.md C3; log 6). -/
def csubqContract (a : Coeff) : Bool := decide (0 ≤ a.toInt) && decide (a.toInt < 2 * Q)

/-- MONT_REDUCE (40_field_arithmetic.md R115). -/
def execMontReduce (s : State) : Host.Outcome State Fault Refusal :=
  .next (scalarResult s (montgomeryContract (sinInt s)) (montgomeryReduce (sinInt s)))

/-- BARRETT_REDUCE: no precondition (40_field_arithmetic.md R116, R106). -/
def execBarrettReduce (s : State) : Host.Outcome State Fault Refusal :=
  .next (scalarResult s true (barrettReduce (sin16 s)))

/-- TO_MONT: in contract for every int16 (40_field_arithmetic.md R117, R110). -/
def execToMont (s : State) : Host.Outcome State Fault Refusal :=
  .next (scalarResult s true (toMontgomery (sin16 s)))

/-- CSUBQ (40_field_arithmetic.md R118). -/
def execCsubq (s : State) : Host.Outcome State Fault Refusal :=
  .next (scalarResult s (csubqContract (sin16 s)) (csubqReduce (sin16 s)))

end Sys2Proof.Machine
end

