-- ==== Sys2Proof/Machine/Codec.lean ====
section
/-! DEFINITION. The serialization and compression codec (43_codec.md). -/

namespace Sys2Proof.Machine

/-! ## The little-endian bit stream (43_codec.md R190)

Stream bit i*d + b is bit b of value i, and stream bit s is bit (s mod 8) of byte (s div 8). Read as one number whose
bit s is stream bit s, the stream is the number whose digits in base 2^d are the values and whose digits in base 2^8
are the bytes (log 15). -/

/-- The stream of values of width `d`, as a number. -/
def streamOfValues (d : Nat) (vs : List Nat) : Nat := vs.foldr (fun v acc => v % 2 ^ d + 2 ^ d * acc) 0

/-- The first `n` digits of a number in base 2^w, the lowest first. -/
def digits (w : Nat) : Nat → Nat → List Nat
  | 0, _ => []
  | n + 1, x => x % 2 ^ w :: digits w n (x / 2 ^ w)

/-- The 32 * d bytes of the stream of 256 values of width `d` (43_codec.md R190). -/
def encodeStream (d : Nat) (vs : List Nat) : List Byte :=
  (digits 8 (32 * d) (streamOfValues d vs)).map (BitVec.ofNat 8)

/-- The 256 values of width `d` of a stream of bytes (43_codec.md R190). -/
def decodeStream (d : Nat) (bs : List Byte) : List Nat :=
  digits d 256 (streamOfValues 8 (bs.map BitVec.toNat))

theorem digits_length (w : Nat) : ∀ n x, (digits w n x).length = n
  | 0, _ => rfl
  | n + 1, x => by simp [digits, digits_length w n]

/-! ## Coefficients (43_codec.md R192, R193, R200, R202) -/

/-- `c[i] mod 2^12`: the low 12 bits of the two's complement pattern (43_codec.md R192). -/
def packCoeff (x : Coeff) : Nat := x.toNat % 2 ^ 12

/-- `compress_coeff(x, d)`, with floor division of the signed value (43_codec.md R200). -/
def compressCoeff (d : Nat) (x : Coeff) : Nat := ((x.toInt * 2 ^ d + 1664) / Q % 2 ^ d).toNat

/-- `decompress_coeff(y, d)` (43_codec.md R202). -/
def decompressCoeff (d y : Nat) : Coeff := wrap16 (((y : Int) * Q + 2 ^ (d - 1)) / 2 ^ d)

/-- The polynomial value of the values a stream holds. -/
def polyOfStream (d : Nat) (f : Nat → Coeff) (bs : List Byte) : Poly :=
  polyOfList ((decodeStream d bs).map f) (by simp [decodeStream, digits_length])

/-! ## Contracts (93_implementation_defined.md I14; log 6) -/

/-- Each coefficient is in [0, b). -/
def coeffBelow (b : Int) (c : Poly) : Fin 256 → Bool :=
  fun i => decide (0 ≤ (coeff c i).toInt) && decide ((coeff c i).toInt < b)

/-! ## The shared operations (43_codec.md R205, R206) -/

/-- `BUF[0 .. 32d-1] <- compress(P[pa], d)`; every other byte keeps its value (43_codec.md R205). -/
def compressResult (d : Nat) (pa : PReg) (s : State) : State :=
  bufResult s (coeffBelow Q (polyReg s pa)) d ((polyReg s pa).toList.map (compressCoeff d)) (encodeStream d)

/-- `P[pd] <- decompress(BUF, d)`, from BUF[0 .. 32d-1] (43_codec.md R206). -/
def decompressResult (d : Nat) (pd : PReg) (s : State) : State :=
  polyResult s pd everyLane (polyOfStream d (decompressCoeff d) (bufPrefix s (32 * d)))

/-! ## Commands -/

/-- POLY_COMPRESS_Q4 (43_codec.md R210). -/
def execPolyCompressQ4 (pa : PReg) (s : State) : Host.Outcome State Fault Refusal :=
  .next (compressResult 4 pa s)

/-- POLY_COMPRESS_Q5 (43_codec.md R211). -/
def execPolyCompressQ5 (pa : PReg) (s : State) : Host.Outcome State Fault Refusal :=
  .next (compressResult 5 pa s)

/-- POLY_COMPRESS_Q10 (43_codec.md R212). -/
def execPolyCompressQ10 (pa : PReg) (s : State) : Host.Outcome State Fault Refusal :=
  .next (compressResult 10 pa s)

/-- POLY_COMPRESS_Q11 (43_codec.md R213). -/
def execPolyCompressQ11 (pa : PReg) (s : State) : Host.Outcome State Fault Refusal :=
  .next (compressResult 11 pa s)

/-- POLY_DECOMPRESS_Q4 (43_codec.md R214). -/
def execPolyDecompressQ4 (pd : PReg) (s : State) : Host.Outcome State Fault Refusal :=
  .next (decompressResult 4 pd s)

/-- POLY_DECOMPRESS_Q5 (43_codec.md R215). -/
def execPolyDecompressQ5 (pd : PReg) (s : State) : Host.Outcome State Fault Refusal :=
  .next (decompressResult 5 pd s)

/-- POLY_DECOMPRESS_Q10 (43_codec.md R216). -/
def execPolyDecompressQ10 (pd : PReg) (s : State) : Host.Outcome State Fault Refusal :=
  .next (decompressResult 10 pd s)

/-- POLY_DECOMPRESS_Q11 (43_codec.md R217). -/
def execPolyDecompressQ11 (pd : PReg) (s : State) : Host.Outcome State Fault Refusal :=
  .next (decompressResult 11 pd s)

/-- POLY_PACK: `BUF[0..383] <- pack(P[pa])` (43_codec.md R195). -/
def execPolyPack (pa : PReg) (s : State) : Host.Outcome State Fault Refusal :=
  .next (bufResult s (coeffBelow 4096 (polyReg s pa)) 12 ((polyReg s pa).toList.map packCoeff) (encodeStream 12))

/-- POLY_UNPACK: `P[pd] <- unpack(BUF)` (43_codec.md R196). -/
def execPolyUnpack (pd : PReg) (s : State) : Host.Outcome State Fault Refusal :=
  .next (polyResult s pd everyLane (polyOfStream 12 (BitVec.ofNat 16) (bufPrefix s bufBytes)))

end Sys2Proof.Machine
end

