-- ==== Sys2Proof/Machine/Ntt.lean ====
section
/-! DEFINITION. The NTT engine (41_ntt.md). A layer of half-width len is taken group by group: the 2 * len
coefficients of a group are its first half `lo` and its second half `hi`, butterfly j pairs lo[j] with hi[j], and no
butterfly of a layer reads what another of that layer writes, so a group is computed as a whole (log 14). The loops of
the spec, one write at a time in its in-place order, stand in Machine/NttLoops.lean. -/

namespace Sys2Proof.Machine

/-! ## Forward (41_ntt.md R140, R142) -/

/-- One group of the forward transform: t = montgomery_reduce(zeta * b), then a + t and a - t (41_ntt.md R142). -/
def nttGroup (z : Int) (lo hi : List Coeff) : List Coeff :=
  let t := hi.map fun b => (montgomeryReduce (z * b.toInt)).toInt
  List.zipWith (fun a t => wrap16 (a.toInt + t)) lo t ++ List.zipWith (fun a t => wrap16 (a.toInt - t)) lo t

/-- `n` groups of half-width `len`, the twiddle index rising from `k` (41_ntt.md R142). -/
def nttGroups (len : Nat) : Nat → Nat → List Coeff → List Coeff
  | 0, _, c => c
  | n + 1, k, c =>
    nttGroup (zeta k) (c.take len) ((c.drop len).take len) ++ nttGroups len n (k + 1) (c.drop (2 * len))

/-- A forward layer: 128/len groups. The twiddle index has been incremented 128/len - 1 times before its first group,
so that group reads ZETAS[128/len] (41_ntt.md R140, R142). -/
def nttLayer (len : Nat) (c : List Coeff) : List Coeff := nttGroups len (128 / len) (128 / len) c

/-- The forward half-widths in order (41_ntt.md R140). -/
def nttLens : List Nat := [128, 64, 32, 16, 8, 4, 2]

/-- The seven forward layers (41_ntt.md R142). -/
def nttLayers (c : List Coeff) : List Coeff := nttLens.foldl (fun c len => nttLayer len c) c

/-! ## Inverse (41_ntt.md R145, R146) -/

/-- One group of the inverse transform: a + b and zeta * (a - b), with zeta the negated twiddle (41_ntt.md R146). -/
def invGroup (z : Int) (lo hi : List Coeff) : List Coeff :=
  List.zipWith (fun a b => wrap16 (a.toInt + b.toInt)) lo hi
    ++ List.zipWith (fun a b => montgomeryReduce (z * (wrap16 (a.toInt - b.toInt)).toInt)) lo hi

/-- `n` groups of half-width `len`, the twiddle index falling from `k` (41_ntt.md R146). -/
def invGroups (len : Nat) : Nat → Nat → List Coeff → List Coeff
  | 0, _, c => c
  | n + 1, k, c =>
    invGroup (-zeta k) (c.take len) ((c.drop len).take len) ++ invGroups len n (k - 1) (c.drop (2 * len))

/-- barrett_reduce on the coefficients of a set (41_ntt.md R146). -/
def reduceSet (set : List Bool) (c : List Coeff) : List Coeff :=
  List.zipWith (fun m x => if m then barrettReduce x else x) set c

/-- An inverse layer and its scheduled reductions. The layer of half-width len reads ZETAS[2 * (128/len) - 1] first
(41_ntt.md R146). -/
def invLayer (sched : Schedule) (l : Nat) (c : List Coeff) : List Coeff :=
  let len := 2 ^ l
  reduceSet (sched.toList.getD (l - 1) (Vector.replicate 256 false)).toList
    (invGroups len (128 / len) (2 * (128 / len) - 1) c)

/-- The last step: every coefficient times F_INV through montgomery_reduce (41_ntt.md R141, R146). -/
def invScale (c : List Coeff) : List Coeff := c.map fun x => montgomeryReduce (x.toInt * fInv)

/-- The inverse layers in order (41_ntt.md R146). -/
def invLevels : List Nat := [1, 2, 3, 4, 5, 6, 7]

/-- The seven inverse layers and the last step (41_ntt.md R146). -/
def invLayers (sched : Schedule) (c : List Coeff) : List Coeff :=
  invScale (invLevels.foldl (fun c l => invLayer sched l c) c)

/-! ## The lengths that make these functions of 256 coefficients -/

theorem nttGroup_length (z : Int) {lo hi : List Coeff} (h : lo.length = hi.length) :
    (nttGroup z lo hi).length = 2 * lo.length := by
  simp [nttGroup, h]; omega

theorem nttGroups_length (len : Nat) :
    ∀ (n k : Nat) (c : List Coeff), c.length = n * (2 * len) → (nttGroups len n k c).length = c.length
  | 0, _, _, _ => rfl
  | n + 1, k, c, h => by
    have hc : c.length = n * (2 * len) + 2 * len := by rw [h]; ring
    have hlo : (c.take len).length = len := by simp [hc]; omega
    have hhi : ((c.drop len).take len).length = len := by simp [hc]; omega
    have hd : (c.drop (2 * len)).length = n * (2 * len) := by simp [hc]
    rw [nttGroups, List.length_append, nttGroup_length _ (hlo.trans hhi.symm), hlo,
      nttGroups_length len n (k + 1) _ hd, hd, hc]
    omega

theorem nttLayer_length {len : Nat} (hl : len ∈ nttLens) {c : List Coeff} (h : c.length = 256) :
    (nttLayer len c).length = 256 := by
  rw [nttLayer, nttGroups_length, h]
  simp only [nttLens, List.mem_cons, List.not_mem_nil, or_false] at hl
  rcases hl with rfl | rfl | rfl | rfl | rfl | rfl | rfl <;> exact h

theorem nttLayers_length {c : List Coeff} (h : c.length = 256) : (nttLayers c).length = 256 := by
  have fold : ∀ (ls : List Nat), ls ⊆ nttLens → ∀ c : List Coeff, c.length = 256 →
      (ls.foldl (fun c len => nttLayer len c) c).length = 256 := by
    intro ls
    induction ls with
    | nil => exact fun _ _ hc => hc
    | cons len ls ih =>
      exact fun hs c hc => ih (fun x hx => hs (List.mem_cons_of_mem _ hx)) _
        (nttLayer_length (hs List.mem_cons_self) hc)
  exact fold nttLens (fun _ hx => hx) c h

theorem invGroup_length (z : Int) {lo hi : List Coeff} (h : lo.length = hi.length) :
    (invGroup z lo hi).length = 2 * lo.length := by
  simp [invGroup, h]; omega

theorem invGroups_length (len : Nat) :
    ∀ (n k : Nat) (c : List Coeff), c.length = n * (2 * len) → (invGroups len n k c).length = c.length
  | 0, _, _, _ => rfl
  | n + 1, k, c, h => by
    have hc : c.length = n * (2 * len) + 2 * len := by rw [h]; ring
    have hlo : (c.take len).length = len := by simp [hc]; omega
    have hhi : ((c.drop len).take len).length = len := by simp [hc]; omega
    have hd : (c.drop (2 * len)).length = n * (2 * len) := by simp [hc]
    rw [invGroups, List.length_append, invGroup_length _ (hlo.trans hhi.symm), hlo,
      invGroups_length len n (k - 1) _ hd, hd, hc]
    omega

theorem invLayer_length (sched : Schedule) {l : Nat} (hl : l ∈ invLevels) {c : List Coeff} (h : c.length = 256) :
    (invLayer sched l c).length = 256 := by
  have hg : (invGroups (2 ^ l) (128 / 2 ^ l) (2 * (128 / 2 ^ l) - 1) c).length = 256 := by
    rw [invGroups_length, h]
    simp only [invLevels, List.mem_cons, List.not_mem_nil, or_false] at hl
    rcases hl with rfl | rfl | rfl | rfl | rfl | rfl | rfl <;> exact h
  simp [invLayer, reduceSet, hg]

theorem invLayers_length (sched : Schedule) {c : List Coeff} (h : c.length = 256) :
    (invLayers sched c).length = 256 := by
  have fold : ∀ (ls : List Nat), ls ⊆ invLevels → ∀ c : List Coeff, c.length = 256 →
      (ls.foldl (fun c l => invLayer sched l c) c).length = 256 := by
    intro ls
    induction ls with
    | nil => exact fun _ _ hc => hc
    | cons l ls ih =>
      exact fun hs c hc => ih (fun x hx => hs (List.mem_cons_of_mem _ hx)) _
        (invLayer_length sched (hs List.mem_cons_self) hc)
  simpa [invLayers, invScale] using fold invLevels (fun _ hx => hx) c h

/-! ## The transforms (41_ntt.md R142, R146) -/

/-- `ntt(c)` (41_ntt.md R142). -/
def ntt (c : Poly) : Poly := polyOfList (nttLayers c.toList) (nttLayers_length (by simp))

/-- `invntt(c)` under a schedule (41_ntt.md R146). -/
def invntt (sched : Schedule) (c : Poly) : Poly :=
  polyOfList (invLayers sched c.toList) (invLayers_length sched (by simp))

/-! ## Contracts and commands -/

/-- Every coefficient is at most `b` in magnitude. -/
def allAbsLe (b : Int) (c : Poly) : Bool := c.toList.all fun x => absLe b x.toInt

/-- The forward contract: |c| ≤ 9471 (41_ntt.md R143). Each output depends on every input (log 6). -/
def nttContract (c : Poly) : Fin 256 → Bool := fun _ => allAbsLe 9471 c

/-- The inverse contract: |c| ≤ 16383 (41_ntt.md R147; log 6). -/
def invnttContract (c : Poly) : Fin 256 → Bool := fun _ => allAbsLe 16383 c

/-- NTT (41_ntt.md R150). -/
def execNtt (pd : PReg) (s : State) : Host.Outcome State Fault Refusal :=
  .next (polyResult s pd (nttContract (polyReg s pd)) (ntt (polyReg s pd)))

/-- INVNTT (41_ntt.md R151). -/
def execInvntt (pd : PReg) (s : State) : Host.Outcome State Fault Refusal :=
  .next (polyResult s pd (invnttContract (polyReg s pd)) (invntt s.cfg.invSchedule (polyReg s pd)))

end Sys2Proof.Machine
end

