-- ==== Sys2Proof/Machine/PolyAlgebra.lean ====
section
/-! DEFINITION. Polynomial algebra: add, sub, basemul, normalize, to_montgomery_poly and their commands
(42_poly_algebra.md). Each reads all its inputs before it writes (R160), so registers may coincide. -/

namespace Sys2Proof.Machine

/-- `poly_add(a, b)` (42_poly_algebra.md R161). -/
def polyAddValue (a b : Poly) : Poly := polyZip (fun x y => wrap16 (x.toInt + y.toInt)) a b

/-- `poly_sub(a, b)`, `a` the minuend (42_poly_algebra.md R162). -/
def polySubValue (a b : Poly) : Poly := polyZip (fun x y => wrap16 (x.toInt - y.toInt)) a b

/-- `basemul_pair(a0, a1, b0, b1, z)` (42_poly_algebra.md R165). -/
def basemulPair (a0 a1 b0 b1 : Coeff) (z : Int) : Coeff × Coeff :=
  let r := montgomeryReduce (a1.toInt * b1.toInt)
  let r0 := montgomeryReduce (r.toInt * z)
  let r1 := montgomeryReduce (a0.toInt * b1.toInt)
  (wrap16 (r0.toInt + (montgomeryReduce (a0.toInt * b0.toInt)).toInt),
   wrap16 (r1.toInt + (montgomeryReduce (a1.toInt * b0.toInt)).toInt))

/-- The groups of 4 coefficients: the first pair takes the group's twiddle, the second its negation
(42_poly_algebra.md R166). -/
def basemulGroups : List Int → List Coeff → List Coeff → List Coeff
  | z :: zs, a0 :: a1 :: a2 :: a3 :: as, b0 :: b1 :: b2 :: b3 :: bs =>
    (basemulPair a0 a1 b0 b1 z).1 :: (basemulPair a0 a1 b0 b1 z).2
      :: (basemulPair a2 a3 b2 b3 (-z)).1 :: (basemulPair a2 a3 b2 b3 (-z)).2 :: basemulGroups zs as bs
  | _, _, _ => []

theorem basemulGroups_length : ∀ (zs : List Int) (as bs : List Coeff),
    as.length = 4 * zs.length → bs.length = 4 * zs.length → (basemulGroups zs as bs).length = 4 * zs.length
  | [], _, _, _, _ => by simp [basemulGroups]
  | z :: zs, a0 :: a1 :: a2 :: a3 :: as, b0 :: b1 :: b2 :: b3 :: bs, ha, hb => by
    simp only [List.length_cons] at ha hb
    have := basemulGroups_length zs as bs (by omega) (by omega)
    simp only [basemulGroups, List.length_cons, this]
    omega
  | _ :: _, [], _, ha, _ => by simp at ha
  | _ :: _, [_], _, ha, _ => by simp at ha; omega
  | _ :: _, [_, _], _, ha, _ => by simp at ha; omega
  | _ :: _, [_, _, _], _, ha, _ => by simp at ha; omega
  | _ :: _, _ :: _ :: _ :: _ :: _, [], _, hb => by simp at hb
  | _ :: _, _ :: _ :: _ :: _ :: _, [_], _, hb => by simp at hb; omega
  | _ :: _, _ :: _ :: _ :: _ :: _, [_, _], _, hb => by simp at hb; omega
  | _ :: _, _ :: _ :: _ :: _ :: _, [_, _, _], _, hb => by simp at hb; omega

/-- `poly_basemul(a, b)` with the twiddles ZETAS[64..127] (42_poly_algebra.md R166). -/
def polyBasemulValue (a b : Poly) : Poly :=
  polyOfList (basemulGroups (zetas.drop 64) a.toList b.toList)
    (basemulGroups_length _ _ _ (by simp [zetas]) (by simp [zetas]))

/-- `poly_normalize(a)` (42_poly_algebra.md R168). -/
def polyNormalizeValue (a : Poly) : Poly := polyMap (fun x => csubqReduce (barrettReduce x)) a

/-- `poly_tomont(a)` (42_poly_algebra.md R169). -/
def polyTomontValue (a : Poly) : Poly := polyMap toMontgomery a

/-- The contract of an addition or subtraction: the exact result is at most 32767 in magnitude
(42_poly_algebra.md R161; log 6). -/
def sumContract (f : Int → Int → Int) (a b : Poly) : Fin 256 → Bool :=
  fun i => absLe 32767 (f (coeff a i).toInt (coeff b i).toInt)

/-- The contract of a basemul pair: each of its four products meets the precondition of montgomery_reduce
(42_poly_algebra.md R167, 40_field_arithmetic.md R103; log 6). -/
def basemulContract (a b : Poly) : Fin 256 → Bool := fun i =>
  let j := 2 * (i.val / 2)
  let a0 := (coeff a j).toInt
  let a1 := (coeff a (j + 1)).toInt
  let b0 := (coeff b j).toInt
  let b1 := (coeff b (j + 1)).toInt
  montgomeryContract (a0 * b0) && montgomeryContract (a0 * b1) && montgomeryContract (a1 * b0)
    && montgomeryContract (a1 * b1)

/-- POLY_ADD (42_poly_algebra.md R170). -/
def execPolyAdd (pd pa pb : PReg) (s : State) : Host.Outcome State Fault Refusal :=
  .next (polyResult s pd (sumContract (· + ·) (polyReg s pa) (polyReg s pb))
    (polyAddValue (polyReg s pa) (polyReg s pb)))

/-- POLY_SUB (42_poly_algebra.md R171). -/
def execPolySub (pd pa pb : PReg) (s : State) : Host.Outcome State Fault Refusal :=
  .next (polyResult s pd (sumContract (· - ·) (polyReg s pa) (polyReg s pb))
    (polySubValue (polyReg s pa) (polyReg s pb)))

/-- POLY_BASEMUL (42_poly_algebra.md R172). -/
def execPolyBasemul (pd pa pb : PReg) (s : State) : Host.Outcome State Fault Refusal :=
  .next (polyResult s pd (basemulContract (polyReg s pa) (polyReg s pb))
    (polyBasemulValue (polyReg s pa) (polyReg s pb)))

/-- POLY_NORMALIZE: no precondition (42_poly_algebra.md R173, R168). -/
def execPolyNormalize (pd : PReg) (s : State) : Host.Outcome State Fault Refusal :=
  .next (polyResult s pd everyLane (polyNormalizeValue (polyReg s pd)))

/-- POLY_TOMONT: in contract for every int16 (42_poly_algebra.md R174, R169). -/
def execPolyTomont (pd : PReg) (s : State) : Host.Outcome State Fault Refusal :=
  .next (polyResult s pd everyLane (polyTomontValue (polyReg s pd)))

end Sys2Proof.Machine
end

