-- ==== Sys2Proof/Machine/Dispatch.lean ====
section
/-! DEFINITION. The core's step for each command: one arm per constructor of Instr (30_encoding.md R74, R81). -/

namespace Sys2Proof.Machine

def exec (i : Instr) (s : State) : Host.Outcome State Fault Refusal :=
  match i with
  | .montReduce => Sys2Proof.Machine.execMontReduce s
  | .barrettReduce => Sys2Proof.Machine.execBarrettReduce s
  | .toMont => Sys2Proof.Machine.execToMont s
  | .csubq => Sys2Proof.Machine.execCsubq s
  | .ntt pd => Sys2Proof.Machine.execNtt pd s
  | .invntt pd => Sys2Proof.Machine.execInvntt pd s
  | .polyAdd pd pa pb => Sys2Proof.Machine.execPolyAdd pd pa pb s
  | .polySub pd pa pb => Sys2Proof.Machine.execPolySub pd pa pb s
  | .polyBasemul pd pa pb => Sys2Proof.Machine.execPolyBasemul pd pa pb s
  | .polyNormalize pd => Sys2Proof.Machine.execPolyNormalize pd s
  | .polyTomont pd => Sys2Proof.Machine.execPolyTomont pd s
  | .polyCompressQ4 pa => Sys2Proof.Machine.execPolyCompressQ4 pa s
  | .polyCompressQ5 pa => Sys2Proof.Machine.execPolyCompressQ5 pa s
  | .polyCompressQ10 pa => Sys2Proof.Machine.execPolyCompressQ10 pa s
  | .polyCompressQ11 pa => Sys2Proof.Machine.execPolyCompressQ11 pa s
  | .polyDecompressQ4 pd => Sys2Proof.Machine.execPolyDecompressQ4 pd s
  | .polyDecompressQ5 pd => Sys2Proof.Machine.execPolyDecompressQ5 pd s
  | .polyDecompressQ10 pd => Sys2Proof.Machine.execPolyDecompressQ10 pd s
  | .polyDecompressQ11 pd => Sys2Proof.Machine.execPolyDecompressQ11 pd s
  | .polyPack pa => Sys2Proof.Machine.execPolyPack pa s
  | .polyUnpack pd => Sys2Proof.Machine.execPolyUnpack pd s

end Sys2Proof.Machine
end

