-- ==== Sys2Proof/Machine/Window.lean ====
section
/-! DEFINITION. The host's window: the map, the checks on an access in their order, and what a read returns and a
write does (20_memory.md R50 to R60, 60_exceptions.md R243, R244, 70_reset_and_hazards.md R270). -/

namespace Sys2Proof.Machine

/-- The regions of the map (20_memory.md R52). -/
inductive Region where
  | registers
  | reserved
  | buf
  | poly
  deriving DecidableEq, Repr

/-- The region that holds an offset of the window (20_memory.md R52). -/
def regionOf (off : Nat) : Region :=
  if off < 0x018 then .registers
  else if off < 0x400 then .reserved
  else if off < 0x580 then .buf
  else if off < 0x800 then .reserved
  else .poly

/-- The access widths a region allows (20_memory.md R52). -/
def widthAllowed : Region → Nat → Bool
  | .registers, n => n == 4
  | .reserved, n => n == 1 || n == 2 || n == 4
  | .buf, n => n == 1 || n == 2 || n == 4
  | .poly, n => n == 2 || n == 4

/-- The BusError of an access, MISALIGNED before WIDTH (20_memory.md R55, 60_exceptions.md R243; log 10). -/
def busError (off n : Nat) : Option BusErrorKind :=
  if n ≠ 0 ∧ off % n ≠ 0 then some .misaligned
  else if !widthAllowed (regionOf off) n then some .width
  else none

/-- The offsets a host may not access while BUSY = 1: P, BUF, SIN and SOUT (70_reset_and_hazards.md R270). -/
def busyForbidden (off : Nat) : Bool :=
  match regionOf off with
  | .buf => true
  | .poly => true
  | .registers => decide (0x010 ≤ off)
  | .reserved => false

/-- `off = a - MRC_BASE` for a bus address inside the window (20_memory.md R51). -/
def offsetOf (c : Config) (addr : Nat) : Option Nat :=
  if c.inWindow addr then some (addr - c.mrcBase) else none

/-- The polynomial register of an offset of the polynomial region (20_memory.md R58). -/
def offPoly (off : Nat) : PReg := Fin.ofNat 4 ((off - 0x800) / 0x200)

/-- The coefficient index of an offset of the polynomial region (20_memory.md R58). -/
def offIndex (off : Nat) : Nat := (off - 0x800) % 0x200 / 2

/-- What a read of a control or status register returns (10_state.md R30 to R35). -/
def readRegister (s : State) (off : Nat) : Word :=
  match off with
  | 0x000 => idValue
  | 0x004 => ctrlWord s
  | 0x008 => statusWord s
  | 0x00C => s.cmd
  | 0x010 => s.sin
  | 0x014 => sext16Word s.sout
  | _ => 0

/-- What a read of the polynomial region returns: one coefficient, or two with the lower index in the low half
(20_memory.md R58). -/
def readPoly (s : State) (off n : Nat) : Word :=
  let c := polyReg s (offPoly off)
  let i := offIndex off
  if n = 2 then BitVec.ofNat 32 (coeff c i).toNat
  else BitVec.ofNat 32 ((coeff c i).toNat + (coeff c (i + 1)).toNat * 2 ^ 16)

/-- What a legal read of `n` bytes at an offset returns; it has no side effect (20_memory.md R53, R57, R58, R60). -/
def readWindow (s : State) (off n : Nat) : Word :=
  match regionOf off with
  | .registers => readRegister s off
  | .reserved => 0
  | .buf => wordOfBytes (s.buf.readBlock (off - 0x400) n)
  | .poly => readPoly s off n

/-- What a write to a control or status register does: ID and SOUT are read-only (10_state.md R29 to R35). -/
def writeRegister (s : State) (off : Nat) (v : Word) : State :=
  match off with
  | 0x004 => writeCtrl s v
  | 0x008 => writeStatus s v
  | 0x00C => issue s v
  | 0x010 => { s with sin := v }
  | _ => s

/-- What a write to the polynomial region does (20_memory.md R58). -/
def writePoly (s : State) (off n : Nat) (v : Word) : State :=
  let r := offPoly off
  let i := offIndex off
  let c := setCoeff (polyReg s r) i (halfOf v 0)
  { s with p := setPoly s.p r (if n = 2 then c else setCoeff c (i + 1) (halfOf v 1)) }

/-- What a legal write of `n` bytes at an offset does (20_memory.md R53, R57, R58). -/
def writeWindow (s : State) (off n : Nat) (v : Word) : State :=
  match regionOf off with
  | .registers => writeRegister s off v
  | .reserved => s
  | .buf => { s with buf := s.buf.writeBlock (off - 0x400) (bytesOfWord n v) }
  | .poly => writePoly s off n v

/-- A host read: BusError, then Hazard, then the data (60_exceptions.md R244). -/
def hostRead (s : State) (addr n : Nat) : Host.Outcome State Fault Refusal :=
  match offsetOf s.cfg addr with
  | none => .refused .outsideWindow
  | some off =>
    match busError off n with
    | some k => respondNext s (.busError k)
    | none =>
      if s.busy && busyForbidden off then .fault .hazardBusyAccess
      else respondNext s (.data (readWindow s off n))

/-- A host write: BusError, then Hazard, then the effect (60_exceptions.md R244). -/
def hostWrite (s : State) (addr n : Nat) (v : Word) : Host.Outcome State Fault Refusal :=
  match offsetOf s.cfg addr with
  | none => .refused .outsideWindow
  | some off =>
    match busError off n with
    | some k => respondNext s (.busError k)
    | none =>
      if s.busy && busyForbidden off then .fault .hazardBusyAccess
      else respondNext (writeWindow s off n v) .done

end Sys2Proof.Machine
end

