-- ==== Sys2Proof/Machine/Sequencer.lean ====
section
/-! DEFINITION. Which agent moves next, and its step (10_state.md R20, R43; 70_reset_and_hazards.md R260, R280, R281;
log 1, log 11). -/

namespace Sys2Proof.Machine

/-- The core's turn: it has a step exactly when BUSY = 1, and that step performs PENDING (10_state.md R43). An idle
block takes no step (60_exceptions.md R251), and neither does one held in reset (70_reset_and_hazards.md R260). -/
def coreTurn (s : State) : Host.Outcome State Fault Refusal :=
  if s.resetPin then .next s
  else
    match s.pending with
    | none => .next s
    | some i => exec i s

/-- The reset input changes: asserting it resets the block (70_reset_and_hazards.md R260). -/
def resetInput (s : State) (asserted : Bool) : State :=
  if asserted then { resetBlock s with resetPin := true } else { s with resetPin := false }

/-- What an event does. While reset is asserted no access is answered (70_reset_and_hazards.md R260). -/
def handleEvent (s : State) : HostEvent → Host.Outcome State Fault Refusal
  | .read addr n => if s.resetPin then .next s else hostRead s addr n
  | .write addr n v => if s.resetPin then .next s else hostWrite s addr n v
  | .coreTurn => coreTurn s
  | .reset asserted => .next (resetInput s asserted)

/-- One step: the first waiting event, taken out of the queue; with none waiting, the core's turn, so that a busy
block does not wait for ever (70_reset_and_hazards.md R281). -/
def advance (s : State) : Host.Outcome State Fault Refusal :=
  match s.events with
  | [] => coreTurn s
  | e :: es => handleEvent { s with events := es } e

end Sys2Proof.Machine
end

