-- ==== Sys2Proof/Machine/Step.lean ====
section
/-! DEFINITION. The step, and the state in which the very next step performs a given command word. -/

namespace Sys2Proof.Machine

/-- One step of the machine (10_state.md R20; log 1). -/
def step (s : State) : Host.Outcome State Fault Refusal := advance s

/-- The state in which the very next step performs the command whose bits are `w`: the block has no fetch
(10_state.md R21), so the word is presented as accepted, with the core's turn next (log 2). -/
def State.withFetchWord (s : State) (nbits w : Nat) : State :=
  presentCommand s (BitVec.ofNat 32 (w % 2 ^ nbits))

end Sys2Proof.Machine
end

