-- ==== Sys2Proof/Machine/HostProgram.lean ====
section
/-! DEFINITION. The spelling of commands and the host pseudo-operations (30_encoding.md R84, R85): those without a
decision as lists of host accesses, and WAIT, whose reads depend on what it reads, as a loop over the machine's steps.
The machine does not use this file; host programs are written with it. -/

namespace Sys2Proof.Machine

/-- A register's spelling, `pN` (30_encoding.md R84). -/
def pregText (r : PReg) : String := "p" ++ toString r.val

/-- A command in the assembler's spelling (30_encoding.md R84). -/
def asmText : Instr → String
  | .montReduce => "MONT_REDUCE"
  | .barrettReduce => "BARRETT_REDUCE"
  | .toMont => "TO_MONT"
  | .csubq => "CSUBQ"
  | .ntt pd => "NTT " ++ pregText pd
  | .invntt pd => "INVNTT " ++ pregText pd
  | .polyAdd pd pa pb => "POLY_ADD " ++ pregText pd ++ ", " ++ pregText pa ++ ", " ++ pregText pb
  | .polySub pd pa pb => "POLY_SUB " ++ pregText pd ++ ", " ++ pregText pa ++ ", " ++ pregText pb
  | .polyBasemul pd pa pb => "POLY_BASEMUL " ++ pregText pd ++ ", " ++ pregText pa ++ ", " ++ pregText pb
  | .polyNormalize pd => "POLY_NORMALIZE " ++ pregText pd
  | .polyTomont pd => "POLY_TOMONT " ++ pregText pd
  | .polyCompressQ4 pa => "POLY_COMPRESS_Q4 " ++ pregText pa
  | .polyCompressQ5 pa => "POLY_COMPRESS_Q5 " ++ pregText pa
  | .polyCompressQ10 pa => "POLY_COMPRESS_Q10 " ++ pregText pa
  | .polyCompressQ11 pa => "POLY_COMPRESS_Q11 " ++ pregText pa
  | .polyDecompressQ4 pd => "POLY_DECOMPRESS_Q4 " ++ pregText pd
  | .polyDecompressQ5 pd => "POLY_DECOMPRESS_Q5 " ++ pregText pd
  | .polyDecompressQ10 pd => "POLY_DECOMPRESS_Q10 " ++ pregText pd
  | .polyDecompressQ11 pd => "POLY_DECOMPRESS_Q11 " ++ pregText pd
  | .polyPack pa => "POLY_PACK " ++ pregText pa
  | .polyUnpack pd => "POLY_UNPACK " ++ pregText pd

/-- `WR32 off, v` (30_encoding.md R85); `base` is MRC_BASE. -/
def wr32 (base off : Nat) (v : Word) : HostEvent := .write (base + off) 4 v

/-- `WR16 off, v`. -/
def wr16 (base off : Nat) (v : Word) : HostEvent := .write (base + off) 2 v

/-- `WR8 off, v`. -/
def wr8 (base off : Nat) (v : Word) : HostEvent := .write (base + off) 1 v

/-- `RD32 off`. -/
def rd32 (base off : Nat) : HostEvent := .read (base + off) 4

/-- `RD16 off`. -/
def rd16 (base off : Nat) : HostEvent := .read (base + off) 2

/-- `RD8 off`. -/
def rd8 (base off : Nat) : HostEvent := .read (base + off) 1

/-- `.word w` and `ISSUE cmd`: the word is written to CMD (30_encoding.md R84, R85). -/
def issueWord (base : Nat) (w : Word) : List HostEvent := [wr32 base 0x00C w]

/-- `ISSUE cmd` (30_encoding.md R85). -/
def issueCommand (base : Nat) (i : Instr) : List HostEvent := issueWord base (encode i)

/-- `SETP p, [c0, ..., ck]`: 256 halfword writes of c_i & 0xFFFF, the list padded with zeros (30_encoding.md R85). -/
def setPolyEvents (base : Nat) (p : PReg) (cs : List Int) : List HostEvent :=
  (List.range 256).map fun i =>
    wr16 base (0x800 + 0x200 * p.val + 2 * i) (BitVec.setWidth 32 (BitVec.ofInt 16 (cs.getD i 0)))

/-- `CLRERR` (30_encoding.md R85). -/
def clearError (base : Nat) : List HostEvent := [wr32 base 0x008 0x4]

/-! ## Running them -/

/-- What follows a next state; a stop stays a stop. -/
def andThen (r : Host.Outcome State Fault Refusal) (f : State → Host.Outcome State Fault Refusal) :
    Host.Outcome State Fault Refusal :=
  match r with
  | .next t => f t
  | .fault c => .fault c
  | .refused c => .refused c

/-- The step of the machine whose next event is `e` (log 1). -/
def hostStep (s : State) (e : HostEvent) : Host.Outcome State Fault Refusal :=
  step { s with events := e :: s.events }

/-- Straight-line accesses, one step each. -/
def hostRun : List HostEvent → State → Host.Outcome State Fault Refusal
  | [], s => .next s
  | e :: es, s => andThen (hostStep s e) (hostRun es)

/-- `s[0] = 0` for the word `s` that the host has just read (30_encoding.md R85). -/
def readIdle (s : State) : Bool :=
  match s.responses.head? with
  | some (.data v) => !v.getLsbD 0
  | some .done => false
  | some (.busError _) => false
  | none => false

/-- `WAIT`: read STATUS until its bit 0 is 0 (30_encoding.md R85). The number is the latency that is left, in reads of
the loop: when it is 0 the core's turn comes before the next read, which then finds BUSY = 0 and is the last
(70_reset_and_hazards.md R280, R281; log 1; `waitLoop_busy`). -/
def waitLoop (base : Nat) : Nat → State → Host.Outcome State Fault Refusal
  | 0, s => andThen (hostStep s .coreTurn) fun t => hostStep t (rd32 base 0x008)
  | n + 1, s => andThen (hostStep s (rd32 base 0x008)) fun t => if readIdle t then .next t else waitLoop base n t

/-- `EXEC cmd`: `ISSUE cmd; WAIT`, under a latency (30_encoding.md R85). -/
def execCommand (base latency : Nat) (i : Instr) (s : State) : Host.Outcome State Fault Refusal :=
  andThen (hostRun (issueCommand base i) s) (waitLoop base latency)

end Sys2Proof.Machine
end

