-- ==== Sys2Proof/Machine/NttLoops.lean ====
section
/-! DEFINITION. The transforms written as the spec's loops, one coefficient at a time in their in-place order
(41_ntt.md R142, R146; 70_reset_and_hazards.md R273). The machine runs the group-by-group functions of Machine/Ntt.lean;
these are what they are to agree with (log 14). -/

namespace Sys2Proof.Machine

/-- The body of the forward loop over j (41_ntt.md R142). -/
def forwardButterfly (z : Int) (len : Nat) (c : Poly) (j : Nat) : Poly :=
  let t := (montgomeryReduce (z * (coeff c (j + len)).toInt)).toInt
  let c1 := setCoeff c (j + len) (wrap16 ((coeff c j).toInt - t))
  setCoeff c1 j (wrap16 ((coeff c1 j).toInt + t))

/-- The body of the forward loop over start: the twiddle index is incremented before it is used (41_ntt.md R142). -/
def forwardGroupLoop (len : Nat) (kc : Nat × Poly) (start : Nat) : Nat × Poly :=
  let k := kc.1 + 1
  (k, (List.range' start len).foldl (forwardButterfly (zeta k) len) kc.2)

/-- The values `start` takes in a layer: 0, 2 * len, … below 256 (41_ntt.md R142). -/
def starts (len : Nat) : List Nat := (List.range (128 / len)).map (· * (2 * len))

/-- The forward transform as the loops of 41_ntt.md R142. -/
def nttLoops (c : Poly) : Poly :=
  (nttLens.foldl (fun kc len => (starts len).foldl (forwardGroupLoop len) kc) (0, c)).2

/-- The body of the inverse loop over j (41_ntt.md R146). -/
def inverseButterfly (z : Int) (len : Nat) (c : Poly) (j : Nat) : Poly :=
  let a := (coeff c j).toInt
  let b := (coeff c (j + len)).toInt
  let c1 := setCoeff c j (wrap16 (a + b))
  setCoeff c1 (j + len) (montgomeryReduce (z * (wrap16 (a - b)).toInt))

/-- The body of the inverse loop over start: the twiddle index is decremented before it is used, and the twiddle is
negated (41_ntt.md R146). -/
def inverseGroupLoop (len : Nat) (kc : Nat × Poly) (start : Nat) : Nat × Poly :=
  let k := kc.1 - 1
  (k, (List.range' start len).foldl (inverseButterfly (-zeta k) len) kc.2)

/-- The scheduled reductions of a layer, in increasing order of index (41_ntt.md R146). -/
def reduceLoop (set : IndexSet) (c : Poly) : Poly :=
  (indicesOf set).foldl (fun c j => setCoeff c j (barrettReduce (coeff c j))) c

/-- One inverse layer and its scheduled reductions (41_ntt.md R146). -/
def inverseLayerLoop (sched : Schedule) (kc : Nat × Poly) (l : Nat) : Nat × Poly :=
  let kc' := (starts (2 ^ l)).foldl (inverseGroupLoop (2 ^ l)) kc
  (kc'.1, reduceLoop (sched.toList.getD (l - 1) (Vector.replicate 256 false)) kc'.2)

/-- The inverse transform as the loops of 41_ntt.md R146. -/
def invnttLoops (sched : Schedule) (c : Poly) : Poly :=
  (List.range 256).foldl (fun c j => setCoeff c j (montgomeryReduce ((coeff c j).toInt * fInv)))
    (invLevels.foldl (inverseLayerLoop sched) (128, c)).2

end Sys2Proof.Machine
end

