-- ==== Sys2Proof/Safety.lean ====
section
/-! DEFINITION. The terms claims are stated in: what stays unchanged, the invariant of the block, and runs. -/

namespace Sys2Proof.Machine

/-! ## What stays unchanged -/

/-- SIN, CTRL, the error report, the CMD readback, the parameters and the boundary are as before. -/
def SameHostSide (s t : State) : Prop :=
  t.sin = s.sin ∧ t.ie = s.ie ∧ t.err = s.err ∧ t.errcode = s.errcode ∧ t.cmd = s.cmd ∧ t.cfg = s.cfg
    ∧ t.resetPin = s.resetPin ∧ t.events = s.events ∧ t.responses = s.responses

/-- Every byte of BUF reads as before. -/
def SameBuf (s t : State) : Prop := ∀ k, bufByte t k = bufByte s k

/-- Every coefficient of every polynomial register is as before. -/
def SamePolys (s t : State) : Prop := ∀ r : PReg, polyReg t r = polyReg s r

/-- Every polynomial register but `pd` is as before. -/
def SamePolysBut (pd : PReg) (s t : State) : Prop := ∀ r : PReg, r ≠ pd → polyReg t r = polyReg s r

/-- The commands' operands: P, BUF, SIN and SOUT are as before. -/
def SameOperands (s t : State) : Prop :=
  SamePolys s t ∧ SameBuf s t ∧ t.sin = s.sin ∧ t.sout = s.sout

/-- Every register, flag and control bit but P and BUF, PENDING, the parameters, the level of the reset input and the
draw counter are as before. -/
def SameRegisters (s t : State) : Prop :=
  t.sin = s.sin ∧ t.sout = s.sout ∧ t.ie = s.ie ∧ t.done = s.done ∧ t.err = s.err ∧ t.errcode = s.errcode
    ∧ t.cmd = s.cmd ∧ t.pending = s.pending ∧ t.cfg = s.cfg ∧ t.resetPin = s.resetPin ∧ t.draws = s.draws

/-- All the state that the spec gives the block is as before; only the model's own fields may differ. -/
def SameBlock (s t : State) : Prop :=
  t.p = s.p ∧ t.buf = s.buf ∧ t.sin = s.sin ∧ t.sout = s.sout ∧ t.ie = s.ie ∧ t.done = s.done ∧ t.err = s.err
    ∧ t.errcode = s.errcode ∧ t.cmd = s.cmd ∧ t.pending = s.pending ∧ t.cfg = s.cfg

/-- Only what the bus shows of an access has changed: the queue has moved on to `es` and one response is added. -/
def OnlyResponse (s t : State) (es : List HostEvent) (r : Response) : Prop :=
  t = { s with events := es, responses := r :: s.responses }

/-! ## Modes and the invariant -/

/-- OUT_OF_CONTRACT = exact, the spec's default (00_scope.md R18). -/
def ExactMode (s : State) : Prop := s.cfg.outOfContract = .exact

/-- What every reachable state of the block satisfies: BUF is canonical (log 9); ERR and ERRCODE agree (10_state.md
R32, 60_exceptions.md R234); BUSY and DONE are never 1 together (10_state.md R32). -/
def State.Inv (s : State) : Prop :=
  Memory.wf s.buf = true ∧ (s.err = false ↔ s.errcode = .none) ∧ (s.busy = true → s.done = false)

/-! ## Events -/

/-- The host reads or writes `n` bytes at offset `off` of the window. -/
def IsAccess (c : Config) (off n : Nat) (e : HostEvent) : Prop :=
  e = .read (c.mrcBase + off) n ∨ ∃ v, e = .write (c.mrcBase + off) n v

/-- The host writes the word `v` to the register at offset `off`. -/
def IsRegisterWrite (c : Config) (off : Nat) (v : Word) (e : HostEvent) : Prop :=
  e = .write (c.mrcBase + off) 4 v

/-- The next step is the core's turn: it is first in the queue, or the queue is empty (log 1). -/
def CoreIsNext (s : State) (es : List HostEvent) : Prop :=
  (s.events = [] ∧ es = []) ∨ s.events = .coreTurn :: es

/-- The host's poll of STATUS (30_encoding.md R85). -/
def pollStatus (c : Config) : HostEvent := .read (c.mrcBase + 0x008) 4

/-! ## Accesses and fields, as the spec writes them -/

/-- `w[lo+width-1 : lo]` as a number (00_scope.md R10). -/
def fieldBits (w : Word) (lo width : Nat) : Nat := (w.extractLsb' lo width).toNat

/-- The widths that the map allows at an offset (20_memory.md R52). -/
def MapAllows (off n : Nat) : Prop :=
  (off < 0x018 ∧ n = 4) ∨ (0x018 ≤ off ∧ off < 0x800 ∧ (n = 1 ∨ n = 2 ∨ n = 4)) ∨ (0x800 ≤ off ∧ (n = 2 ∨ n = 4))

/-- A legal access: natural alignment and an allowed width, inside the window (20_memory.md R55). -/
def LegalAccess (off n : Nat) : Prop :=
  (n = 1 ∨ n = 2 ∨ n = 4) ∧ off % n = 0 ∧ off + n ≤ 4096 ∧ MapAllows off n

/-- The offsets of P, BUF, SIN and SOUT (70_reset_and_hazards.md R270). -/
def OwnedWhileBusy (off : Nat) : Prop :=
  (0x800 ≤ off ∧ off ≤ 0xFFF) ∨ (0x400 ≤ off ∧ off ≤ 0x57F) ∨ off = 0x010 ∨ off = 0x014

/-! ## What a command writes (10_state.md R24) -/

/-- The polynomial register a command writes. -/
def writesPoly : Instr → Option PReg
  | .ntt pd | .invntt pd | .polyNormalize pd | .polyTomont pd => some pd
  | .polyAdd pd _ _ | .polySub pd _ _ | .polyBasemul pd _ _ => some pd
  | .polyDecompressQ4 pd | .polyDecompressQ5 pd | .polyDecompressQ10 pd | .polyDecompressQ11 pd => some pd
  | .polyUnpack pd => some pd
  | .montReduce | .barrettReduce | .toMont | .csubq => none
  | .polyCompressQ4 _ | .polyCompressQ5 _ | .polyCompressQ10 _ | .polyCompressQ11 _ | .polyPack _ => none

/-- How many bytes of BUF, from BUF[0] on, a command writes (20_memory.md R68). -/
def writesBuf : Instr → Option Nat
  | .polyCompressQ4 _ => some 128
  | .polyCompressQ5 _ => some 160
  | .polyCompressQ10 _ => some 320
  | .polyCompressQ11 _ => some 352
  | .polyPack _ => some 384
  | .montReduce | .barrettReduce | .toMont | .csubq => none
  | .ntt _ | .invntt _ | .polyNormalize _ | .polyTomont _ => none
  | .polyAdd _ _ _ | .polySub _ _ _ | .polyBasemul _ _ _ => none
  | .polyDecompressQ4 _ | .polyDecompressQ5 _ | .polyDecompressQ10 _ | .polyDecompressQ11 _ => none
  | .polyUnpack _ => none

/-- The compress commands with their widths (43_codec.md R210 to R213). -/
def compressForms (pa : PReg) : List (Nat × Instr) :=
  [(4, .polyCompressQ4 pa), (5, .polyCompressQ5 pa), (10, .polyCompressQ10 pa), (11, .polyCompressQ11 pa)]

/-- The decompress commands with their widths (43_codec.md R214 to R217). -/
def decompressForms (pd : PReg) : List (Nat × Instr) :=
  [(4, .polyDecompressQ4 pd), (5, .polyDecompressQ5 pd), (10, .polyDecompressQ10 pd), (11, .polyDecompressQ11 pd)]

/-- Bit `n` of the stream that BUF holds: bit (n mod 8) of byte (n div 8) (43_codec.md R190). -/
def bufBit (s : State) (n : Nat) : Bool := (bufByte s (n / 8)).getLsbD (n % 8)

/-- Every coefficient of a polynomial value is at most `b` in magnitude. -/
def CoeffsWithin (b : Int) (c : Poly) : Prop := ∀ i, i < 256 → -b ≤ (coeff c i).toInt ∧ (coeff c i).toInt ≤ b

/-- Each of the four products of the pair of coefficients at `j` meets the precondition of montgomery_reduce
(42_poly_algebra.md R167, 40_field_arithmetic.md R103). -/
def ProductsInContract (a b : Poly) (j : Nat) : Prop :=
  ∀ x ∈ [(coeff a j).toInt, (coeff a (j + 1)).toInt], ∀ y ∈ [(coeff b j).toInt, (coeff b (j + 1)).toInt],
    |x * y| < Q * 2 ^ 15

/-! ## Runs -/

/-- `n` steps, stopping at the first stop. -/
def steps : Nat → State → Host.Outcome State Fault Refusal
  | 0, s => .next s
  | n + 1, s =>
    match step s with
    | .next t => steps n t
    | .fault r => .fault r
    | .refused r => .refused r

/-- The meanings of a list of commands, one after another, stopping at the first stop. -/
def performAll : List Instr → State → Host.Outcome State Fault Refusal
  | [], s => .next s
  | i :: is, s =>
    match exec i s with
    | .next t => performAll is t
    | .fault r => .fault r
    | .refused r => .refused r

/-! ## The ring -/

/-- Coefficient `i` of the schoolbook product in Z[x]/(x^256 + 1), before any reduction modulo Q
(42_poly_algebra.md R175, 00_scope.md R12). -/
def ringProductCoeff (a b : Poly) (i : Nat) : Int :=
  ∑ j ∈ Finset.range 256,
    if j ≤ i then (coeff a j).toInt * (coeff b (i - j)).toInt
    else -((coeff a j).toInt * (coeff b (256 + i - j)).toInt)

/-! ## Residues -/

/-- Congruence modulo Q (00_scope.md R13). -/
def CongQ (a b : Int) : Prop := Q ∣ a - b

/-- `brv7(i)`: the 7 bits of `i` reversed (41_ntt.md R131). -/
def brv7 (i : Nat) : Nat := (List.range 7).foldl (fun acc b => acc + 2 ^ (6 - b) * (i / 2 ^ b % 2)) 0

/-- ζ_k = 17^brv7(64 + k) mod Q (41_ntt.md R144). -/
def zetaRoot (k : Nat) : Int := (17 ^ brv7 (64 + k) : Int) % Q

end Sys2Proof.Machine
end

