-- ==== Sys2Proof/Certificates/Slice0/Obligations.lean ====
section
/-! DEFINITION. The statements for the provers. Each docstring names the rule of the spec that it formalises, or says
what is the model's own choice and names the log entry. -/

open Sys2Proof Sys2Proof.Machine

/-! ## Encoding (30_encoding.md) -/

/-- Decode and encode agree in both directions: a word is accepted as a command exactly when it is that command's
word (R71, R74, R78). -/
def Obligations.DecodeEncodeAgree : Prop :=
  ∀ (w : Word) (i : Instr), decode w = .ok i ↔ encode i = w

/-- R78: each accepted word has one command and no other word has it, and there are 252 of them, counted by family. -/
def Obligations.AcceptedWordsNumber252 : Prop :=
  (∀ (w w' : Word) (i i' : Instr), decode w = .ok i → decode w' = .ok i' → (w = w' ↔ i = i')) ∧
  ∃ l : List Word, l.Nodup ∧ (∀ w, w ∈ l ↔ ∃ i, decode w = .ok i) ∧ l.length = 252
    ∧ (l.filter fun w => decide (fieldBits w 0 6 ∈ [0x01, 0x02, 0x03, 0x04])).length = 4
    ∧ (l.filter fun w => decide (fieldBits w 0 6 ∈ [0x08, 0x09, 0x0D, 0x0E])).length = 4 * 4
    ∧ (l.filter fun w => decide (fieldBits w 0 6 ∈ [0x0A, 0x0B, 0x0C])).length = 3 * 64
    ∧ (l.filter fun w => decide (fieldBits w 0 6 ∈ [0x10, 0x11])).length = 2 * 4 * 4
    ∧ (l.filter fun w => decide (fieldBits w 0 6 ∈ [0x12, 0x13])).length = 2 * 4

/-- R76: the outcome of a word, the checks in their order: OP, reserved bits and unused fields, D; a word that passes
them all is accepted. The lists say which opcodes use PD, PA, PB and D (R74). -/
def Obligations.DecoderOutcomes : Prop :=
  ∀ w : Word,
    let op := fieldBits w 0 6
    let known := op ∈ [0x01, 0x02, 0x03, 0x04, 0x08, 0x09, 0x0A, 0x0B, 0x0C, 0x0D, 0x0E, 0x10, 0x11, 0x12, 0x13]
    let reserved := fieldBits w 6 2 ≠ 0 ∨ fieldBits w 14 2 ≠ 0 ∨ fieldBits w 20 12 ≠ 0
    let unused :=
      (op ∉ [0x08, 0x09, 0x0A, 0x0B, 0x0C, 0x0D, 0x0E, 0x11, 0x13] ∧ fieldBits w 8 2 ≠ 0)
        ∨ (op ∉ [0x0A, 0x0B, 0x0C, 0x10, 0x12] ∧ fieldBits w 10 2 ≠ 0)
        ∨ (op ∉ [0x0A, 0x0B, 0x0C] ∧ fieldBits w 12 2 ≠ 0)
        ∨ (op ∉ [0x10, 0x11] ∧ fieldBits w 16 4 ≠ 0)
    let badWidth := op ∈ [0x10, 0x11] ∧ fieldBits w 16 4 ∉ [4, 5, 10, 11]
    (¬known → decode w = .error .illegalOp)
      ∧ (known → reserved ∨ unused → decode w = .error .reservedField)
      ∧ (known → ¬reserved → ¬unused → badWidth → decode w = .error .unsupportedD)
      ∧ (known → ¬reserved → ¬unused → ¬badWidth → ∃ i, decode w = .ok i ∧ encode i = w)

/-- R238: the sample words and their outcomes; and any word issued while BUSY = 1 records CMD_WHILE_BUSY. -/
def Obligations.SampleWordOutcomes : Prop :=
  (∀ w ∈ ([0x00000000, 0x00000005, 0x0000000F, 0x0000003F, 0x00000100] : List Word), decode w = .error .illegalOp)
    ∧ (∀ w ∈ ([0x00000041, 0x00004001, 0x00100001, 0x80000008, 0x00000401, 0x00000508, 0x00040008,
        0x000B0110] : List Word), decode w = .error .reservedField)
    ∧ (∀ w ∈ ([0x00000010, 0x00030010, 0x000C0011, 0x000F0C10, 0x00010011] : List Word),
        decode w = .error .unsupportedD)
    ∧ decode 0x00003F0A = .ok (.polyAdd 3 3 3)
    ∧ decode 0x000B0C10 = .ok (.polyCompressQ11 3)
    ∧ ∀ (s : State) (w : Word), s.busy = true → (issue s w).err = true ∧ (issue s w).errcode = .cmdWhileBusy

/-- The example words of R84, one for each form, decode to the commands they are written for. -/
def Obligations.ExampleWordsDecode : Prop :=
  decode 0x00000001 = .ok .montReduce ∧ decode 0x00000208 = .ok (.ntt 2)
    ∧ decode 0x0000240A = .ok (.polyAdd 0 1 2) ∧ decode 0x00040410 = .ok (.polyCompressQ4 1)
    ∧ decode 0x000B0311 = .ok (.polyDecompressQ11 3) ∧ decode 0x00000412 = .ok (.polyPack 1)
    ∧ decode 0x00000013 = .ok (.polyUnpack 0)

/-! ## Issue and the error report (60_exceptions.md) -/

/-- R236, R80: a host write of w to CMD stores w and then is rejected with CMD_WHILE_BUSY while BUSY = 1, else with
the decoder's code, else is accepted. A rejection (R235) and an acceptance change nothing else. -/
def Obligations.IssueProcedure : Prop :=
  ∀ (s : State) (es : List HostEvent) (w : Word),
    s.resetPin = false → s.events = .write (s.cfg.mrcBase + 0x00C) 4 w :: es →
    (s.busy = true →
      step s = .next { s with
        cmd := w, err := true, errcode := .cmdWhileBusy, events := es, responses := .done :: s.responses })
    ∧ (s.busy = false → ∀ c, decode w = .error c →
      step s = .next { s with cmd := w, err := true, errcode := c, events := es, responses := .done :: s.responses })
    ∧ (s.busy = false → ∀ i, decode w = .ok i →
      step s = .next { s with
        cmd := w, pending := some i, done := false, events := es, responses := .done :: s.responses })

/-- R32, R29, R240: a host write of any word to STATUS clears DONE where its bit 1 is set and ERR where its bit 2 is
set, makes ERRCODE 0 where it clears ERR, ignores its other bits, and changes nothing else, BUSY and PENDING included.
The premise on ERRCODE is the part of State.Inv that rules out an ERRCODE without ERR. The three words of R240 need no
such premise; that 0x4 and 0x6 then leave ERRCODE 0 is the model's (log 13). -/
def Obligations.StatusWriteAcknowledges : Prop :=
  ∀ (s : State) (es : List HostEvent) (v : Word),
    s.resetPin = false → s.events = .write (s.cfg.mrcBase + 0x008) 4 v :: es →
    ((s.err = false → s.errcode = .none) → step s = .next { s with
      done := if v.getLsbD 1 then false else s.done
      err := if v.getLsbD 2 then false else s.err
      errcode := if s.err = true ∧ v.getLsbD 2 = true then .none else s.errcode
      events := es
      responses := .done :: s.responses })
    ∧ (v = 0x4 → step s = .next { s with
      err := false, errcode := .none, events := es, responses := .done :: s.responses })
    ∧ (v = 0x2 → step s = .next { s with done := false, events := es, responses := .done :: s.responses })
    ∧ (v = 0x6 → step s = .next { s with
      done := false, err := false, errcode := .none, events := es, responses := .done :: s.responses })

/-- R32: ERR is sticky: only a write of 1 to it, or a reset, clears it. -/
def Obligations.ErrIsSticky : Prop :=
  ∀ s t : State, step s = .next t → s.err = true → t.err = false →
    (∃ v es, s.events = .write (s.cfg.mrcBase + 0x008) 4 v :: es ∧ v.getLsbD 2 = true)
      ∨ (∃ v es, s.events = .write (s.cfg.mrcBase + 0x004) 4 v :: es ∧ v.getLsbD 1 = true)
      ∨ ∃ es, s.events = .reset true :: es

/-- R241: irq is IE and (DONE or ERR); it is up after the core's step exactly when IE = 1, and after a rejection
exactly when IE = 1. -/
def Obligations.InterruptLine : Prop :=
  (∀ s : State, irq s = true ↔ s.ie = true ∧ (s.done = true ∨ s.err = true))
    ∧ (∀ (i : Instr) (s t : State), exec i s = .next t → irq t = s.ie)
    ∧ ∀ (s : State) (w : Word), (s.busy = true ∨ ∃ c, decode w = .error c) → irq (issue s w) = s.ie

/-! ## The core's step (10_state.md R43, 30_encoding.md R81) -/

/-- R43: when the core's turn comes, a step is the meaning of PENDING, and nothing happens when there is none. That
the core is next is read from the queue, the model's own (log 1). -/
def Obligations.StepPerformsPending : Prop :=
  ∀ (s : State) (es : List HostEvent), s.resetPin = false → CoreIsNext s es →
    (∀ i, s.pending = some i → step s = exec i { s with events := es })
      ∧ (s.pending = none → step s = .next { s with events := es })

/-- A word written to CMD of an idle block, and then the core's turn, run the command the word decodes to, on the
state with the word accepted. The same holds of a word presented for the very next step (log 2). -/
def Obligations.WrittenCommandRuns : Prop :=
  ∀ (s : State) (es : List HostEvent) (w : Word) (i : Instr), decode w = .ok i →
    (s.resetPin = false → s.busy = false → s.events = .write (s.cfg.mrcBase + 0x00C) 4 w :: .coreTurn :: es →
      ∃ t, step s = .next t ∧
        step t = exec i { s with
          cmd := w, pending := some i, done := false, events := es, responses := .done :: s.responses })
    ∧ step (s.withFetchWord 32 w.toNat)
        = exec i { s with cmd := w, pending := some i, done := false, resetPin := false }

/-- R81: an accepted command always completes, whatever the state: PENDING none, BUSY 0, DONE 1. It writes no flag,
no control register and no parameter; the free-draw counter moves only in draw mode (log 7). -/
def Obligations.EveryCommandCompletes : Prop :=
  ∀ (i : Instr) (s : State), ∃ t, exec i s = .next t ∧ t.pending = none ∧ t.busy = false ∧ t.done = true
    ∧ SameHostSide s t ∧ (ExactMode s → t.draws = s.draws)

/-! ## Frames (10_state.md R24, 20_memory.md R68) -/

/-- A scalar command changes SOUT and, of the rest, only what completing changes: no coefficient and no byte. -/
def Obligations.ScalarCommandsFrame : Prop :=
  ∀ (i : Instr) (s t : State), i ∈ [Instr.montReduce, .barrettReduce, .toMont, .csubq] → exec i s = .next t →
    SamePolys s t ∧ SameBuf s t ∧ SameHostSide s t

/-- A command that writes P[pd] leaves every other polynomial register, every byte of BUF, SOUT and the host's
registers as they were. -/
def Obligations.PolyCommandsFrame : Prop :=
  ∀ (i : Instr) (pd : PReg) (s t : State), writesPoly i = some pd → exec i s = .next t →
    SamePolysBut pd s t ∧ SameBuf s t ∧ t.sout = s.sout ∧ SameHostSide s t

/-- A command that writes BUF writes its own n bytes BUF[0 .. n-1] only: every byte from n on, every coefficient, SOUT
and the host's registers are as they were. -/
def Obligations.BufCommandsFrame : Prop :=
  ∀ (i : Instr) (n : Nat) (s t : State), writesBuf i = some n → exec i s = .next t →
    (∀ k, n ≤ k → bufByte t k = bufByte s k) ∧ SamePolys s t ∧ t.sout = s.sout ∧ SameHostSide s t

/-! ## Field arithmetic (40_field_arithmetic.md) -/

/-- R102: u is the low half of x * QINV read as int16, x - u*Q is an exact multiple of 2^16, and the result is the
wrap of the quotient. -/
def Obligations.MontgomeryDatapath : Prop :=
  ∀ x : Int, -2 ^ 31 ≤ x → x < 2 ^ 31 →
    ∃ u : Int, -32768 ≤ u ∧ u ≤ 32767 ∧ (2 ^ 16 : Int) ∣ u - x * 62209 ∧ (2 ^ 16 : Int) ∣ x - u * 3329
      ∧ (2 ^ 16 : Int) ∣ (montgomeryReduce x).toInt - (x - u * 3329) / 2 ^ 16

/-- R103: range and congruence in contract; no wrap and the congruence in the wider range; the wrapped quotient of
R102 for every int32; and the corner values. -/
def Obligations.MontgomeryContractHolds : Prop :=
  (∀ x : Int, |x| < Q * 2 ^ 15 →
    -Q < (montgomeryReduce x).toInt ∧ (montgomeryReduce x).toInt < Q
      ∧ CongQ ((montgomeryReduce x).toInt * 2 ^ 16) x)
    ∧ (∀ x : Int, |x| ≤ 2038398975 → CongQ ((montgomeryReduce x).toInt * 2 ^ 16) x
      ∧ (montgomeryReduce x).toInt = (x - (wrap16 (x * 62209)).toInt * 3329) / 2 ^ 16)
    ∧ (∀ x : Int, -2 ^ 31 ≤ x → x < 2 ^ 31 →
      montgomeryReduce x = wrap16 ((x - (wrap16 (x * 62209)).toInt * 3329) / 2 ^ 16))
    ∧ (montgomeryReduce 0).toInt = 0 ∧ (montgomeryReduce 109084671).toInt = 3160
    ∧ (montgomeryReduce 109084672).toInt = 3329 ∧ (montgomeryReduce (-109084672)).toInt = 0
    ∧ (montgomeryReduce 2147483647).toInt = 32599 ∧ (montgomeryReduce (-2147483648)).toInt = -32768
    ∧ (montgomeryReduce 2038398976).toInt = -32768

/-- R106: the range of barrett_reduce, its residue, and exactly where it gives Q and 0. -/
def Obligations.BarrettRange : Prop :=
  (∀ a : Coeff, 0 ≤ (barrettReduce a).toInt ∧ (barrettReduce a).toInt ≤ Q ∧ CongQ (barrettReduce a).toInt a.toInt
    ∧ ((barrettReduce a).toInt = Q ↔ ∃ k : Int, 1 ≤ k ∧ k ≤ 9 ∧ a.toInt = -3329 * k)
    ∧ ((barrettReduce a).toInt = 0 ↔ ∃ k : Int, 0 ≤ k ∧ k ≤ 9 ∧ a.toInt = 3329 * k))
    ∧ (barrettReduce (BitVec.ofInt 16 32767)).toInt = 2806
    ∧ (barrettReduce (BitVec.ofInt 16 (-32768))).toInt = 522
    ∧ (barrettReduce (BitVec.ofInt 16 (-1))).toInt = 3328
    ∧ (barrettReduce (BitVec.ofInt 16 (-3329))).toInt = 3329

/-- R108: csubq gives the canonical representative on [0, 2Q), its own input on [-Q, 0), and the corner values. -/
def Obligations.CsubqDomain : Prop :=
  (∀ a : Coeff, 0 ≤ a.toInt → a.toInt < 2 * Q →
    0 ≤ (csubqReduce a).toInt ∧ (csubqReduce a).toInt < Q ∧ CongQ (csubqReduce a).toInt a.toInt)
    ∧ (∀ a : Coeff, -Q ≤ a.toInt → a.toInt < 0 → csubqReduce a = a)
    ∧ (csubqReduce (BitVec.ofInt 16 6658)).toInt = 3329
    ∧ (csubqReduce (BitVec.ofInt 16 (-32768))).toInt = 29439
    ∧ (csubqReduce (BitVec.ofInt 16 32767)).toInt = 29438

/-- R110, R111: to_montgomery multiplies by 2^16 modulo Q with a result in (-Q, Q), and montgomery_reduce undoes it,
for every int16. -/
def Obligations.ToMontgomeryIdentity : Prop :=
  (∀ a : Coeff,
    toMontgomery a = montgomeryReduce (a.toInt * 1353)
      ∧ -Q < (toMontgomery a).toInt ∧ (toMontgomery a).toInt < Q
      ∧ CongQ (toMontgomery a).toInt (a.toInt * 2 ^ 16)
      ∧ CongQ (montgomeryReduce (toMontgomery a).toInt).toInt a.toInt)
    ∧ (montgomeryReduce (toMontgomery (BitVec.ofInt 16 3328)).toInt).toInt = -1
    ∧ (montgomeryReduce (toMontgomery (BitVec.ofInt 16 32767)).toInt).toInt = -523

/-- The scalar commands write their function of SIN to SOUT and complete (R115 to R118): MONT_REDUCE reads all 32 bits,
the others the low 16. MONT_REDUCE and CSUBQ are stated in exact mode; draw mode is ScalarDraws. -/
def Obligations.ScalarCommandResults : Prop :=
  ∀ s : State,
    (ExactMode s → exec .montReduce s
      = .next { s with sout := montgomeryReduce s.sin.toInt, pending := none, done := true })
    ∧ exec .barrettReduce s
      = .next { s with sout := barrettReduce (s.sin.setWidth 16), pending := none, done := true }
    ∧ exec .toMont s = .next { s with sout := toMontgomery (s.sin.setWidth 16), pending := none, done := true }
    ∧ (ExactMode s → exec .csubq s
      = .next { s with sout := csubqReduce (s.sin.setWidth 16), pending := none, done := true })

/-- R18, OUT_OF_CONTRACT = draw, for the two scalar commands with a contract: in contract the rule's value, out of
contract a free draw. Which ranges are the contracts, and how a draw is indexed, are the model's (log 6, log 7). -/
def Obligations.ScalarDraws : Prop :=
  ∀ s : State, s.cfg.outOfContract = .draw →
    (|s.sin.toInt| < Q * 2 ^ 15 → exec .montReduce s
      = .next { s with sout := montgomeryReduce s.sin.toInt, pending := none, done := true })
    ∧ (¬|s.sin.toInt| < Q * 2 ^ 15 → exec .montReduce s
      = .next { s with
        sout := Config.freeCoeff s.draws 0, draws := s.draws + 1, pending := none, done := true })
    ∧ (0 ≤ (s.sin.setWidth 16).toInt ∧ (s.sin.setWidth 16).toInt < 2 * Q → exec .csubq s
      = .next { s with sout := csubqReduce (s.sin.setWidth 16), pending := none, done := true })
    ∧ (¬(0 ≤ (s.sin.setWidth 16).toInt ∧ (s.sin.setWidth 16).toInt < 2 * Q) → exec .csubq s
      = .next { s with
        sout := Config.freeCoeff s.draws 0, draws := s.draws + 1, pending := none, done := true })

/-! ## The transforms (41_ntt.md) -/

/-- R142, R150: NTT leaves in P[pd] what the spec's loops leave, one coefficient written at a time in their in-place
order, and completes. The machine computes it group by group (log 14). In draw mode it is stated for inputs in the
contract of R143. -/
def Obligations.NttRunsTheLoops : Prop :=
  ∀ (s : State) (pd : PReg), ExactMode s ∨ CoeffsWithin 9471 (polyReg s pd) →
    exec (.ntt pd) s
      = .next { s with p := s.p.set pd (nttLoops (polyReg s pd)), pending := none, done := true }

/-- R146, R151: INVNTT leaves in P[pd] what the spec's loops leave, under whatever reduction schedule the ROM holds,
and completes. In draw mode it is stated for inputs within 16383, the contract of R147 under the default
schedule; that it is the contract under every schedule is the model's (log 6). -/
def Obligations.InvnttRunsTheLoops : Prop :=
  ∀ (s : State) (pd : PReg), ExactMode s ∨ CoeffsWithin 16383 (polyReg s pd) →
    exec (.invntt pd) s
      = .next { s with p := s.p.set pd (invnttLoops s.cfg.invSchedule (polyReg s pd)), pending := none, done := true }

/-- R143: seven layers add at most 7 * 3328 to the magnitude of coefficients that start within 9471; canonical inputs
give outputs within 26624. -/
def Obligations.NttGrowthBound : Prop :=
  (∀ (c : Sys2Proof.Poly) (b : Int), b ≤ 9471 → CoeffsWithin b c → CoeffsWithin (b + 7 * 3328) (ntt c))
    ∧ ∀ c : Sys2Proof.Poly, (∀ i, i < 256 → 0 ≤ (coeff c i).toInt ∧ (coeff c i).toInt < Q) →
      CoeffsWithin 26624 (ntt c)

/-- R144: the forward transform of p is p modulo x^2 - ζ_k in the pair (4k, 4k+1) and p modulo x^2 + ζ_k in the pair
(4k+2, 4k+3), for inputs in the range of R143 that no wrap changes; and ZETAS[64+k] is the Montgomery form of ζ_k. -/
def Obligations.NttGivesQuotientResidues : Prop :=
  ∀ c : Sys2Proof.Poly, CoeffsWithin 9471 c → ∀ k, k < 64 →
    CongQ (coeff (ntt c) (4 * k)).toInt
        (∑ j ∈ Finset.range 128, (coeff c (2 * j)).toInt * zetaRoot k ^ j)
      ∧ CongQ (coeff (ntt c) (4 * k + 1)).toInt
        (∑ j ∈ Finset.range 128, (coeff c (2 * j + 1)).toInt * zetaRoot k ^ j)
      ∧ CongQ (coeff (ntt c) (4 * k + 2)).toInt
        (∑ j ∈ Finset.range 128, (coeff c (2 * j)).toInt * (-zetaRoot k) ^ j)
      ∧ CongQ (coeff (ntt c) (4 * k + 3)).toInt
        (∑ j ∈ Finset.range 128, (coeff c (2 * j + 1)).toInt * (-zetaRoot k) ^ j)
      ∧ CongQ (zeta (64 + k)) (zetaRoot k * 2 ^ 16)

/-- R147: every output of the inverse transform is in (-Q, Q), for every input, and under every schedule. -/
def Obligations.InvnttOutputRange : Prop :=
  ∀ (sched : Schedule) (c : Sys2Proof.Poly) (i : Nat), i < 256 →
    -Q < (coeff (invntt sched c) i).toInt ∧ (coeff (invntt sched c) i).toInt < Q

/-- R148: the round trip modulo Q: directly when every output of ntt is within 16383, and for every input of ntt in
its contract with a normalize between the two transforms. -/
def Obligations.NttRoundTrip : Prop :=
  ∀ c : Sys2Proof.Poly, CoeffsWithin 9471 c →
    (CoeffsWithin 16383 (ntt c) → ∀ i, i < 256 →
      CongQ (coeff (invntt defaultSchedule (ntt c)) i).toInt (coeff c i).toInt)
    ∧ ∀ i, i < 256 →
      CongQ (coeff (invntt defaultSchedule (polyNormalizeValue (ntt c))) i).toInt (coeff c i).toInt

/-! ## Polynomial algebra (42_poly_algebra.md) -/

/-- R161, R162, R170, R171: POLY_ADD and POLY_SUB are the 16-bit sum and difference of each pair of coefficients,
wrapping, PB the subtrahend, whichever registers coincide. In draw mode it is stated per coefficient, for the
coefficients whose exact result is within 32767 (log 6). -/
def Obligations.PolyAddSubResults : Prop :=
  ∀ (s : State) (pd pa pb : PReg),
    (∃ t, exec (.polyAdd pd pa pb) s = .next t ∧ ∀ i, i < 256 →
      (ExactMode s ∨ |(coeff (polyReg s pa) i).toInt + (coeff (polyReg s pb) i).toInt| ≤ 32767) →
      coeff (polyReg t pd) i = coeff (polyReg s pa) i + coeff (polyReg s pb) i)
    ∧ ∃ t, exec (.polySub pd pa pb) s = .next t ∧ ∀ i, i < 256 →
      (ExactMode s ∨ |(coeff (polyReg s pa) i).toInt - (coeff (polyReg s pb) i).toInt| ≤ 32767) →
      coeff (polyReg t pd) i = coeff (polyReg s pa) i - coeff (polyReg s pb) i

/-- R18 for POLY_ADD and POLY_SUB: in draw mode a coefficient whose exact sum, or difference, is beyond 32767 in
magnitude is a free draw, and the draw counter advances. The contract and the indexing of draws are the model's (log 6,
log 7). -/
def Obligations.PolyAddDraws : Prop :=
  ∀ (s : State) (pd pa pb : PReg) (i : Nat), s.cfg.outOfContract = .draw → i < 256 →
    (¬|(coeff (polyReg s pa) i).toInt + (coeff (polyReg s pb) i).toInt| ≤ 32767 →
      ∃ t, exec (.polyAdd pd pa pb) s = .next t ∧ coeff (polyReg t pd) i = Config.freeCoeff s.draws i
        ∧ t.draws = s.draws + 1)
    ∧ (¬|(coeff (polyReg s pa) i).toInt - (coeff (polyReg s pb) i).toInt| ≤ 32767 →
      ∃ t, exec (.polySub pd pa pb) s = .next t ∧ coeff (polyReg t pd) i = Config.freeCoeff s.draws i
        ∧ t.draws = s.draws + 1)

/-- R168, R173: POLY_NORMALIZE gives the canonical representative of every coefficient, for every int16. -/
def Obligations.PolyNormalizeResult : Prop :=
  ∀ (s : State) (pd : PReg), ∃ t, exec (.polyNormalize pd) s = .next t ∧ ∀ i, i < 256 →
    coeff (polyReg t pd) i = csubqReduce (barrettReduce (coeff (polyReg s pd) i))
      ∧ 0 ≤ (coeff (polyReg t pd) i).toInt ∧ (coeff (polyReg t pd) i).toInt < Q
      ∧ CongQ (coeff (polyReg t pd) i).toInt (coeff (polyReg s pd) i).toInt

/-- R169, R174: POLY_TOMONT multiplies every coefficient by 2^16 modulo Q, with results in (-Q, Q). -/
def Obligations.PolyTomontResult : Prop :=
  ∀ (s : State) (pd : PReg), ∃ t, exec (.polyTomont pd) s = .next t ∧ ∀ i, i < 256 →
    coeff (polyReg t pd) i = toMontgomery (coeff (polyReg s pd) i)
      ∧ -Q < (coeff (polyReg t pd) i).toInt ∧ (coeff (polyReg t pd) i).toInt < Q
      ∧ CongQ (coeff (polyReg t pd) i).toInt ((coeff (polyReg s pd) i).toInt * 2 ^ 16)

/-- R166, R172: POLY_BASEMUL multiplies pair by pair, with ZETAS[64+k] for the first pair of group k and its negation
for the second, whichever registers coincide. In draw mode it is stated per pair, for the pairs whose four products are
each below Q * 2^15 in magnitude (log 6). -/
def Obligations.PolyBasemulResult : Prop :=
  ∀ (s : State) (pd pa pb : PReg), ∃ t, exec (.polyBasemul pd pa pb) s = .next t ∧ ∀ k, k < 64 →
    let a := polyReg s pa
    let b := polyReg s pb
    let r := polyReg t pd
    (ExactMode s ∨ ProductsInContract a b (4 * k) →
      (coeff r (4 * k), coeff r (4 * k + 1))
        = basemulPair (coeff a (4 * k)) (coeff a (4 * k + 1)) (coeff b (4 * k)) (coeff b (4 * k + 1)) (zeta (64 + k)))
      ∧ (ExactMode s ∨ ProductsInContract a b (4 * k + 2) →
        (coeff r (4 * k + 2), coeff r (4 * k + 3))
          = basemulPair (coeff a (4 * k + 2)) (coeff a (4 * k + 3)) (coeff b (4 * k + 2)) (coeff b (4 * k + 3))
              (-zeta (64 + k)))

/-- R167: a pair multiplies in Z_Q[x]/(x^2 - ζ_k), and with the negated twiddle in Z_Q[x]/(x^2 + ζ_k), scaled by R^-1,
for inputs within 31058; and when each of the four products meets montgomery_reduce's precondition the results are in
(-2Q, 2Q). -/
def Obligations.BasemulPairMeaning : Prop :=
  ∀ (a0 a1 b0 b1 : Coeff) (k : Nat), k < 64 →
    ((∀ x ∈ [a0, a1, b0, b1], |x.toInt| ≤ 31058) →
      CongQ ((basemulPair a0 a1 b0 b1 (zeta (64 + k))).1.toInt * 2 ^ 16)
          (a0.toInt * b0.toInt + zetaRoot k * (a1.toInt * b1.toInt))
        ∧ CongQ ((basemulPair a0 a1 b0 b1 (zeta (64 + k))).2.toInt * 2 ^ 16)
          (a0.toInt * b1.toInt + a1.toInt * b0.toInt)
        ∧ CongQ ((basemulPair a0 a1 b0 b1 (-zeta (64 + k))).1.toInt * 2 ^ 16)
          (a0.toInt * b0.toInt - zetaRoot k * (a1.toInt * b1.toInt))
        ∧ CongQ ((basemulPair a0 a1 b0 b1 (-zeta (64 + k))).2.toInt * 2 ^ 16)
          (a0.toInt * b1.toInt + a1.toInt * b0.toInt))
    ∧ ((∀ x ∈ [a0, a1], ∀ y ∈ [b0, b1], |x.toInt * y.toInt| < Q * 2 ^ 15) →
      ∀ z ∈ [zeta (64 + k), -zeta (64 + k)],
        -(2 * Q) < (basemulPair a0 a1 b0 b1 z).1.toInt ∧ (basemulPair a0 a1 b0 b1 z).1.toInt < 2 * Q
          ∧ -(2 * Q) < (basemulPair a0 a1 b0 b1 z).2.toInt ∧ (basemulPair a0 a1 b0 b1 z).2.toInt < 2 * Q)

/-- R175: on an idle or busy block with the default schedule, the command sequence of the rule leaves in P[pd] the
product of P[pa] and P[pb] in Z_Q[x]/(x^256 + 1), still scaled by 2^16, canonical, whichever register pd is; and the
same of the square of P[pa], each step taken once. -/
def Obligations.RingMultiplication : Prop :=
  ∀ (s : State) (pa pd : PReg), ExactMode s → s.cfg.invSchedule = defaultSchedule →
    (∀ i, i < 256 → 0 ≤ (coeff (polyReg s pa) i).toInt ∧ (coeff (polyReg s pa) i).toInt < Q) →
    (∀ pb : PReg, pa ≠ pb →
      (∀ i, i < 256 → 0 ≤ (coeff (polyReg s pb) i).toInt ∧ (coeff (polyReg s pb) i).toInt < Q) →
      ∃ t, performAll [.polyTomont pa, .polyTomont pb, .ntt pa, .ntt pb, .polyNormalize pa, .polyNormalize pb,
          .polyBasemul pd pa pb, .invntt pd, .polyNormalize pd] s = .next t
        ∧ ∀ i, i < 256 →
          (coeff (polyReg t pd) i).toInt = ringProductCoeff (polyReg s pa) (polyReg s pb) i * 2 ^ 16 % Q)
    ∧ ∃ t, performAll [.polyTomont pa, .ntt pa, .polyNormalize pa, .polyBasemul pd pa pa, .invntt pd,
        .polyNormalize pd] s = .next t
      ∧ ∀ i, i < 256 →
        (coeff (polyReg t pd) i).toInt = ringProductCoeff (polyReg s pa) (polyReg s pa) i * 2 ^ 16 % Q

/-! ## The codec (43_codec.md) -/

/-- R190, R192, R195: POLY_PACK writes the 12-bit stream of the low 12 bits of each coefficient. In draw mode it is
stated for coefficients in [0, 4096), the contract of 93_implementation_defined.md I14. -/
def Obligations.PackWritesTheStream : Prop :=
  ∀ (s : State) (pa : PReg), ∃ t, exec (.polyPack pa) s = .next t ∧ ∀ i b, i < 256 → b < 12 →
    (ExactMode s ∨ (0 ≤ (coeff (polyReg s pa) i).toInt ∧ (coeff (polyReg s pa) i).toInt < 4096)) →
    bufBit t (i * 12 + b) = (coeff (polyReg s pa) i).getLsbD b

/-- R193, R196: POLY_UNPACK reads the 12-bit stream of BUF[0..383] and does not reduce. -/
def Obligations.UnpackReadsTheStream : Prop :=
  ∀ (s : State) (pd : PReg), ∃ t, exec (.polyUnpack pd) s = .next t ∧ ∀ i, i < 256 →
    0 ≤ (coeff (polyReg t pd) i).toInt ∧ (coeff (polyReg t pd) i).toInt < 4096
      ∧ ∀ b, b < 12 → (coeff (polyReg t pd) i).getLsbD b = bufBit s (i * 12 + b)

/-- R190, R205, R210 to R213: POLY_COMPRESS_Qd writes the d-bit stream of compress_coeff of each coefficient and no byte
after it. In draw mode it is stated for coefficients in [0, Q), the contract of 93_implementation_defined.md I14. -/
def Obligations.CompressWritesTheStream : Prop :=
  ∀ (s : State) (pa : PReg), ∀ di ∈ compressForms pa, ∃ t, exec di.2 s = .next t
    ∧ (∀ k, 32 * di.1 ≤ k → bufByte t k = bufByte s k) ∧ ∀ i b, i < 256 → b < di.1 →
    (ExactMode s ∨ (0 ≤ (coeff (polyReg s pa) i).toInt ∧ (coeff (polyReg s pa) i).toInt < Q)) →
    bufBit t (i * di.1 + b) = (compressCoeff di.1 (coeff (polyReg s pa) i)).testBit b

/-- R202, R206, R214 to R217: POLY_DECOMPRESS_Qd gives each coefficient (y * Q + 2^(d-1)) >> d of the d-bit value y
that the stream of BUF holds for it. -/
def Obligations.DecompressReadsTheStream : Prop :=
  ∀ (s : State) (pd : PReg), ∀ di ∈ decompressForms pd, ∃ t, exec di.2 s = .next t ∧ ∀ i, i < 256 →
    ∃ y : Nat, y < 2 ^ di.1 ∧ (∀ b, b < di.1 → y.testBit b = bufBit s (i * di.1 + b))
      ∧ (coeff (polyReg t pd) i).toInt = ((y : Int) * 3329 + 2 ^ (di.1 - 1)) / 2 ^ di.1

/-- R200: the floor formula for every int16; and for x in [0, Q) it is x * 2^d / Q rounded to the nearest integer,
modulo 2^d, with no tie. -/
def Obligations.CompressRounds : Prop :=
  ∀ d ∈ [4, 5, 10, 11], ∀ x : Coeff,
    (compressCoeff d x : Int) = (x.toInt * 2 ^ d + 1664) / 3329 % 2 ^ d
      ∧ (0 ≤ x.toInt → x.toInt < Q →
        ∃ m : Int, 2 * |x.toInt * 2 ^ d - m * Q| < Q ∧ (compressCoeff d x : Int) = m % 2 ^ d)

/-- R203: decompress_coeff is in [0, Q), with the values the rule lists. -/
def Obligations.DecompressProperties : Prop :=
  (∀ d ∈ [4, 5, 10, 11],
    (∀ y, y < 2 ^ d → 0 ≤ (decompressCoeff d y).toInt ∧ (decompressCoeff d y).toInt < Q)
      ∧ (decompressCoeff d 0).toInt = 0 ∧ (decompressCoeff d (2 ^ (d - 1))).toInt = 1665)
    ∧ [4, 5, 10, 11].map (fun d => (decompressCoeff d (2 ^ d - 1)).toInt) = [3121, 3225, 3326, 3327]
    ∧ [4, 5, 10, 11].map (fun d => (decompressCoeff d 1).toInt) = [208, 104, 3, 2]

/-- R204: for every canonical c the distance modulo Q of decompress(compress(c)) from c is at most the worst error of
the rule's table, which is attained and is within the bound ceil(Q / 2^(d+1)) + 1. -/
def Obligations.CompressionError : Prop :=
  ∀ de ∈ ([(4, 104), (5, 52), (10, 2), (11, 1)] : List (Nat × Int)),
    (∀ c : Coeff, 0 ≤ c.toInt → c.toInt < Q →
      ∃ k : Int, |(decompressCoeff de.1 (compressCoeff de.1 c)).toInt - c.toInt - k * Q| ≤ de.2)
    ∧ (∃ c : Coeff, 0 ≤ c.toInt ∧ c.toInt < Q ∧
      ∀ k : Int, de.2 ≤ |(decompressCoeff de.1 (compressCoeff de.1 c)).toInt - c.toInt - k * Q|)
    ∧ de.2 ≤ (Q + 2 ^ (de.1 + 1) - 1) / 2 ^ (de.1 + 1) + 1

/-- R194: unpacking what was packed gives back any register whose coefficients are in [0, 4096), into any register;
and packing what was unpacked gives back BUF, whatever bytes it holds. The second part is for a canonical BUF, where
equality of BUF is equality of its bytes (log 9). -/
def Obligations.PackUnpackRoundTrip : Prop :=
  (∀ (s : State) (pa pd : PReg),
    (∀ i, i < 256 → 0 ≤ (coeff (polyReg s pa) i).toInt ∧ (coeff (polyReg s pa) i).toInt < 4096) →
    ∃ t u, exec (.polyPack pa) s = .next t ∧ exec (.polyUnpack pd) t = .next u ∧ polyReg u pd = polyReg s pa)
    ∧ ∀ (s : State) (r : PReg), Memory.wf s.buf = true →
      ∃ t u, exec (.polyUnpack r) s = .next t ∧ exec (.polyPack r) t = .next u ∧ u.buf = s.buf

/-! ## The invariant and whole-machine rules -/

/-- Every step keeps the invariant: BUF canonical (log 9), ERR and ERRCODE in agreement (R32, R234), BUSY and DONE
never 1 together (R32). -/
def Obligations.StepKeepsInv : Prop :=
  ∀ s t : State, s.Inv → step s = .next t → t.Inv

/-- The invariant holds right after reset: BUF is canonical (log 9), ERR is 0 exactly when ERRCODE is NONE, and DONE is
0 if BUSY is 1. -/
def Obligations.ResetMeetsInv : Prop := State.reset.Inv

/-- R261, R37: no step and no reset changes a ROM or a parameter. -/
def Obligations.ParametersNeverChange : Prop :=
  ∀ s t : State, step s = .next t → t.cfg = s.cfg

/-- R270, R252, R263: while a command is pending, only the core's turn and a reset change P, BUF, SIN, SOUT or
PENDING. -/
def Obligations.PendingCommandUndisturbed : Prop :=
  ∀ s t : State, step s = .next t → s.busy = true →
    (SameOperands s t ∧ t.pending = s.pending)
      ∨ s.events = [] ∨ (∃ es, s.events = .coreTurn :: es) ∨ (∃ es, s.events = .reset true :: es)
      ∨ ∃ v es, s.events = .write (s.cfg.mrcBase + 0x004) 4 v :: es ∧ v.getLsbD 1 = true

/-- R271, R16: a step is a fault only where the host accesses P, BUF, SIN or SOUT while BUSY = 1; no command faults and
no command is refused. A refusal comes only from an access outside the window (log 5). -/
def Obligations.StopsOnlyAtHostAccesses : Prop :=
  (∀ (s : State) (f : Fault), step s = .fault f →
    s.busy = true ∧ ∃ off n e es, OwnedWhileBusy off ∧ IsAccess s.cfg off n e ∧ s.events = e :: es)
    ∧ ∀ (s : State) (r : Refusal), step s = .refused r →
      ∃ addr n e es, (e = .read addr n ∨ ∃ v, e = .write addr n v) ∧ s.events = e :: es
        ∧ s.cfg.inWindow addr = false

/-- R280: the host's polls of STATUS before the core's turn, however many, change nothing of what the command leaves,
and each reads BUSY = 1. Where the core's turn stands in the queue, and the list of responses, are the model's (log 1,
log 12). -/
def Obligations.LatencyIndependence : Prop :=
  ∀ (k : Nat) (s : State) (i : Instr) (es : List HostEvent),
    s.resetPin = false → s.pending = some i → s.events = List.replicate k (pollStatus s.cfg) ++ .coreTurn :: es →
    ∃ t u, steps (k + 1) s = .next t ∧ exec i { s with events := es } = .next u ∧ SameBlock u t ∧ t.events = es
      ∧ t.responses = List.replicate k (.data (statusWord s)) ++ s.responses ∧ (statusWord s).getLsbD 0 = true

/-! ## Resets (70_reset_and_hazards.md) -/

/-- R260, R42: asserting reset gives every piece of the block's state its reset value, whatever was pending, and irq is
0; while it is asserted the block takes no step and answers no access; deasserting it changes nothing of the block. The
level of the input and the queue are the model's own (log 1, log 11). -/
def Obligations.ResetInputResets : Prop :=
  (∀ (s : State) (es : List HostEvent), s.events = .reset true :: es →
    ∃ t, step s = .next t ∧ (∀ (r : PReg) (i : Nat), i < 256 → coeff (polyReg t r) i = 0)
      ∧ (∀ k, bufByte t k = 0) ∧ t.sin = 0 ∧ t.sout = 0 ∧ t.cmd = 0 ∧ t.ie = false ∧ t.busy = false
      ∧ t.done = false ∧ t.err = false ∧ t.errcode = .none ∧ t.pending = none ∧ irq t = false ∧ statusWord t = 0)
    ∧ (∀ (s : State) (es : List HostEvent), s.resetPin = true →
      (CoreIsNext s es ∨ ∃ off n e, IsAccess s.cfg off n e ∧ s.events = e :: es) →
      step s = .next { s with events := es })
    ∧ ∀ (s : State) (es : List HostEvent), s.events = .reset false :: es →
      step s = .next { s with resetPin := false, events := es }

/-- R262, R263: a write to CTRL with SRST = 1 is the same reset, in that host step, also while a command is pending,
whose results are then never written; the write's other bits are discarded and SRST reads 0; and the block is as the
reset input would leave it. -/
def Obligations.SoftReset : Prop :=
  ∀ (s : State) (es : List HostEvent) (v : Word), s.resetPin = false → v.getLsbD 1 = true →
    s.events = .write (s.cfg.mrcBase + 0x004) 4 v :: es →
    ∃ t, step s = .next t ∧ (∀ (r : PReg) (i : Nat), i < 256 → coeff (polyReg t r) i = 0)
      ∧ (∀ k, bufByte t k = 0) ∧ t.sin = 0 ∧ t.sout = 0 ∧ t.cmd = 0 ∧ t.ie = false ∧ t.busy = false
      ∧ t.done = false ∧ t.err = false ∧ t.errcode = .none ∧ t.pending = none ∧ irq t = false
      ∧ readWindow t 0x004 4 = 0 ∧ t.cfg = s.cfg
      ∧ ∃ u, step { s with events := .reset true :: es } = .next u ∧ SameBlock u t

/-- R31: a write to CTRL without SRST stores bit 0 in IE and changes nothing else; CTRL then reads IE alone. -/
def Obligations.InterruptEnableWrite : Prop :=
  ∀ (s : State) (es : List HostEvent) (v : Word), s.resetPin = false → v.getLsbD 1 = false →
    s.events = .write (s.cfg.mrcBase + 0x004) 4 v :: es →
    step s = .next { s with ie := v.getLsbD 0, events := es, responses := .done :: s.responses }
      ∧ ∀ t, step s = .next t → readWindow t 0x004 4 = if v.getLsbD 0 then 1 else 0

/-! ## The window (20_memory.md) -/

/-- R243, R55: a misaligned access answers BusError(MISALIGNED), an aligned one of a width the region does not allow
BusError(WIDTH), and neither changes the block, BUSY or not. For a width other than 1, 2 and 4 which of the two it is
is the model's (log 10). -/
def Obligations.BusErrorsChangeNothing : Prop :=
  ∀ (s : State) (es : List HostEvent) (e : HostEvent) (off n : Nat),
    s.resetPin = false → off < 4096 → 0 < n → IsAccess s.cfg off n e → s.events = e :: es →
    (off % n ≠ 0 → step s = .next { s with events := es, responses := .busError .misaligned :: s.responses })
    ∧ (off % n = 0 → ¬MapAllows off n →
      step s = .next { s with events := es, responses := .busError .width :: s.responses })

/-- R270, R244: a legal access while BUSY = 1 faults exactly at P, BUF, SIN and SOUT; every other legal access
completes, and while BUSY = 0 every legal access completes. -/
def Obligations.BusyAccessHazard : Prop :=
  ∀ (s : State) (es : List HostEvent) (e : HostEvent) (off n : Nat),
    s.resetPin = false → LegalAccess off n → IsAccess s.cfg off n e → s.events = e :: es →
    (s.busy = true → OwnedWhileBusy off → step s = .fault .hazardBusyAccess)
    ∧ (s.busy = false ∨ ¬OwnedWhileBusy off → ∃ t, step s = .next t)

/-- R60: a read has no side effect on the block. -/
def Obligations.ReadsHaveNoSideEffect : Prop :=
  ∀ (s t : State) (addr n : Nat) (es : List HostEvent), s.events = .read addr n :: es → step s = .next t →
    SameBlock s t ∧ t.draws = s.draws ∧ t.resetPin = s.resetPin ∧ t.events = es

/-- R57, R60: a legal write to BUF stores the bytes of the value, lowest first, and changes nothing else; a legal read
returns the sum of the bytes at their places. -/
def Obligations.BufWindowAccess : Prop :=
  ∀ (s : State) (es : List HostEvent) (off n : Nat),
    s.resetPin = false → s.busy = false → LegalAccess off n → 0x400 ≤ off → off < 0x580 →
    (∀ v : Word, s.events = .write (s.cfg.mrcBase + off) n v :: es → ∃ t, step s = .next t
      ∧ (∀ k, k < n → bufByte t (off - 0x400 + k) = v.extractLsb' (8 * k) 8)
      ∧ (∀ k, k < off - 0x400 ∨ off - 0x400 + n ≤ k → bufByte t k = bufByte s k)
      ∧ SamePolys s t ∧ SameRegisters s t ∧ t.events = es ∧ t.responses = .done :: s.responses)
    ∧ (s.events = .read (s.cfg.mrcBase + off) n :: es → ∃ v : Word,
      step s = .next { s with events := es, responses := .data v :: s.responses }
        ∧ v.toNat = ∑ k ∈ Finset.range n, (bufByte s (off - 0x400 + k)).toNat * 2 ^ (8 * k))

/-- R58, R60: 2-byte and 4-byte accesses of the polynomial region read and write one coefficient, or two with the even
one in the low half, and change nothing else; a 1-byte access is a BusError(WIDTH). -/
def Obligations.PolyWindowAccess : Prop :=
  ∀ (s : State) (es : List HostEvent) (p : PReg) (i : Nat), s.resetPin = false → s.busy = false → i < 256 →
    let off := 0x800 + 0x200 * p.val + 2 * i
    (∀ v : Word, s.events = .write (s.cfg.mrcBase + off) 2 v :: es → ∃ t, step s = .next t
      ∧ coeff (polyReg t p) i = v.extractLsb' 0 16
      ∧ (∀ j, j < 256 → j ≠ i → coeff (polyReg t p) j = coeff (polyReg s p) j)
      ∧ SamePolysBut p s t ∧ SameBuf s t ∧ SameRegisters s t ∧ t.events = es ∧ t.responses = .done :: s.responses)
    ∧ (s.events = .read (s.cfg.mrcBase + off) 2 :: es →
      step s = .next { s with
        events := es, responses := .data ((coeff (polyReg s p) i).setWidth 32) :: s.responses })
    ∧ (i % 2 = 0 → ∀ v : Word, s.events = .write (s.cfg.mrcBase + off) 4 v :: es → ∃ t, step s = .next t
      ∧ coeff (polyReg t p) i = v.extractLsb' 0 16 ∧ coeff (polyReg t p) (i + 1) = v.extractLsb' 16 16
      ∧ (∀ j, j < 256 → j ≠ i → j ≠ i + 1 → coeff (polyReg t p) j = coeff (polyReg s p) j)
      ∧ SamePolysBut p s t ∧ SameBuf s t ∧ SameRegisters s t ∧ t.events = es ∧ t.responses = .done :: s.responses)
    ∧ (i % 2 = 0 → s.events = .read (s.cfg.mrcBase + off) 4 :: es →
      step s = .next { s with
        events := es,
        responses := .data (coeff (polyReg s p) (i + 1) ++ coeff (polyReg s p) i) :: s.responses })
    ∧ ∀ b e, b < 2 → IsAccess s.cfg (off + b) 1 e → s.events = e :: es →
      step s = .next { s with events := es, responses := .busError .width :: s.responses }

/-- R53: a legal read of a reserved offset returns 0 and a legal write to one changes nothing, BUSY or not. -/
def Obligations.ReservedOffsets : Prop :=
  ∀ (s : State) (es : List HostEvent) (off n : Nat), s.resetPin = false → LegalAccess off n →
    (0x018 ≤ off ∧ off ≤ 0x3FF) ∨ (0x580 ≤ off ∧ off ≤ 0x7FF) →
    (s.events = .read (s.cfg.mrcBase + off) n :: es →
      step s = .next { s with events := es, responses := .data 0 :: s.responses })
    ∧ ∀ v : Word, s.events = .write (s.cfg.mrcBase + off) n v :: es →
      step s = .next { s with events := es, responses := .done :: s.responses }

/-- R30, R32 to R35: what each register reads as; a write to ID or SOUT is ignored and a write to SIN stores the word. -/
def Obligations.RegisterAccess : Prop :=
  ∀ (s : State) (es : List HostEvent), s.resetPin = false →
    (∀ (off : Nat) (v : Word), s.events = .read (s.cfg.mrcBase + off) 4 :: es →
      (off, v) ∈ [(0x000, 0x4D524331), (0x00C, s.cmd)] ∨ (s.busy = false ∧ (off, v) ∈ [(0x010, s.sin),
        (0x014, s.sout.signExtend 32)]) →
      step s = .next { s with events := es, responses := .data v :: s.responses })
    ∧ (s.events = .read (s.cfg.mrcBase + 0x008) 4 :: es → ∃ v : Word,
      step s = .next { s with events := es, responses := .data v :: s.responses }
        ∧ v.getLsbD 0 = s.busy ∧ v.getLsbD 1 = s.done ∧ v.getLsbD 2 = s.err
        ∧ fieldBits v 8 4 = errNumber s.errcode ∧ fieldBits v 3 5 = 0 ∧ fieldBits v 12 20 = 0)
    ∧ (∀ v : Word, s.events = .write (s.cfg.mrcBase + 0x000) 4 v :: es →
      step s = .next { s with events := es, responses := .done :: s.responses })
    ∧ (∀ v : Word, s.busy = false → s.events = .write (s.cfg.mrcBase + 0x014) 4 v :: es →
      step s = .next { s with events := es, responses := .done :: s.responses })
    ∧ ∀ v : Word, s.busy = false → s.events = .write (s.cfg.mrcBase + 0x010) 4 v :: es →
      step s = .next { s with sin := v, events := es, responses := .done :: s.responses }

/-! ## Draws of the other commands (00_scope.md R18) -/

/-- R18 for POLY_BASEMUL, NTT, INVNTT, POLY_PACK and POLY_COMPRESS_Qd: in draw mode, what is computed from inputs out of
contract is a free draw (both coefficients of a basemul pair, all 256 outputs of a transform, the value of one
coefficient in a stream, cut to its width), and the draw counter advances. The contracts and the indexing of draws are
the model's (log 6, log 7). -/
def Obligations.OutOfContractDraws : Prop :=
  ∀ s : State, s.cfg.outOfContract = .draw →
    (∀ (pd pa pb : PReg) (m : Nat), m < 128 → ¬ProductsInContract (polyReg s pa) (polyReg s pb) (2 * m) →
      ∃ t, exec (.polyBasemul pd pa pb) s = .next t ∧ t.draws = s.draws + 1
        ∧ coeff (polyReg t pd) (2 * m) = Config.freeCoeff s.draws (2 * m)
        ∧ coeff (polyReg t pd) (2 * m + 1) = Config.freeCoeff s.draws (2 * m + 1))
    ∧ (∀ pd : PReg, ¬CoeffsWithin 9471 (polyReg s pd) →
      ∃ t, exec (.ntt pd) s = .next t ∧ t.draws = s.draws + 1
        ∧ ∀ i, i < 256 → coeff (polyReg t pd) i = Config.freeCoeff s.draws i)
    ∧ (∀ pd : PReg, ¬CoeffsWithin 16383 (polyReg s pd) →
      ∃ t, exec (.invntt pd) s = .next t ∧ t.draws = s.draws + 1
        ∧ ∀ i, i < 256 → coeff (polyReg t pd) i = Config.freeCoeff s.draws i)
    ∧ (∀ (pa : PReg) (i : Nat), i < 256 →
      ¬(0 ≤ (coeff (polyReg s pa) i).toInt ∧ (coeff (polyReg s pa) i).toInt < 4096) →
      ∃ t, exec (.polyPack pa) s = .next t ∧ t.draws = s.draws + 1
        ∧ ∀ b, b < 12 → bufBit t (i * 12 + b) = (Config.freeCoeff s.draws i).getLsbD b)
    ∧ ∀ (pa : PReg) (i : Nat), i < 256 →
      ¬(0 ≤ (coeff (polyReg s pa) i).toInt ∧ (coeff (polyReg s pa) i).toInt < Q) →
      ∀ di ∈ compressForms pa, ∃ t, exec di.2 s = .next t ∧ t.draws = s.draws + 1
        ∧ ∀ b, b < di.1 → bufBit t (i * di.1 + b) = (Config.freeCoeff s.draws i).getLsbD b
end

