-- ==== Sys2Proof/Laws/Arith.lean ====
section
/-! SUPPORT. The 16-bit wrap and the elementwise operations on a polynomial value. -/

namespace Sys2Proof.Machine

/-- The wrap as the balanced remainder modulo 2^16. -/
theorem wrap16_toInt (v : Int) : (wrap16 v).toInt = v.bmod (2 ^ 16) := by
  simp [wrap16, BitVec.toInt_ofInt]

/-- Every coefficient is in int16. -/
theorem coeff_range (c : Coeff) : -32768 ≤ c.toInt ∧ c.toInt ≤ 32767 := by
  have h1 := BitVec.le_toInt c
  have h2 := BitVec.toInt_lt (x := c)
  norm_num at h1 h2
  omega

/-- A value in int16 is not changed by the wrap. -/
theorem wrap16_toInt_of_range {v : Int} (h1 : -32768 ≤ v) (h2 : v ≤ 32767) : (wrap16 v).toInt = v := by
  rw [wrap16_toInt]
  exact Int.bmod_eq_of_le (by norm_num; omega) (by norm_num; omega)

/-- The wrap is congruent to its argument modulo 2^16. -/
theorem wrap16_emod (v : Int) : (wrap16 v).toInt % 2 ^ 16 = v % 2 ^ 16 := by
  rw [wrap16_toInt]
  exact Int.bmod_emod

/-- A coefficient is the wrap of its value. -/
@[simp] theorem wrap16_toInt_self (c : Coeff) : wrap16 c.toInt = c := BitVec.ofInt_toInt

theorem absLe_iff (b v : Int) : absLe b v = true ↔ -b ≤ v ∧ v ≤ b := by simp [absLe]

/-! ## Polynomial values -/

@[simp] theorem polyOfList_toList (l : List Coeff) (h : l.length = 256) : (polyOfList l h).toList = l := by
  simp [polyOfList, Vector.toList]

@[simp] theorem polyMap_toList (f : Coeff → Coeff) (c : Poly) : (polyMap f c).toList = c.toList.map f := by
  simp [polyMap]

@[simp] theorem polyZip_toList (f : Coeff → Coeff → Coeff) (a b : Poly) :
    (polyZip f a b).toList = List.zipWith f a.toList b.toList := by
  simp [polyZip]

/-- Two polynomial values with the same list of coefficients are the same. -/
theorem poly_ext {a b : Poly} (h : a.toList = b.toList) : a = b := Vector.toList_inj.1 h

/-- Two polynomial values with the same coefficients are the same. -/
theorem poly_ext_coeff {a b : Poly} (h : ∀ i, i < 256 → coeff a i = coeff b i) : a = b := by
  apply poly_ext
  apply List.ext_getElem (by simp)
  intro i h1 h2
  have h3 := h i (by simpa using h1)
  simpa [coeff, List.getD_eq_getElem?_getD, List.getElem?_eq_getElem h1, List.getElem?_eq_getElem h2] using h3

theorem coeff_polyOfList (l : List Coeff) (h : l.length = 256) (i : Nat) : coeff (polyOfList l h) i = l.getD i 0 := by
  simp [coeff]

theorem coeff_polyMap (f : Coeff → Coeff) (c : Poly) {i : Nat} (h : i < 256) :
    coeff (polyMap f c) i = f (coeff c i) := by
  simp [coeff, List.getD_eq_getElem?_getD, h]

theorem coeff_polyZip (f : Coeff → Coeff → Coeff) (a b : Poly) {i : Nat} (h : i < 256) :
    coeff (polyZip f a b) i = f (coeff a i) (coeff b i) := by
  simp [coeff, List.getD_eq_getElem?_getD, h]

/-- A coefficient after one is replaced. -/
theorem coeff_setCoeff (c : Poly) (i j : Nat) (v : Coeff) :
    coeff (setCoeff c i v) j = if i = j ∧ i < 256 then v else coeff c j := by
  unfold setCoeff
  rw [coeff_polyOfList]
  by_cases h : i = j
  · subst h
    by_cases hi : i < 256
    · simp [List.getD_eq_getElem?_getD, hi]
    · simp [List.getD_eq_getElem?_getD, hi, coeff]
  · simp [List.getD_eq_getElem?_getD, h, coeff]

/-! ## The register file -/

@[simp] theorem setPoly_get_self (f : PolyFile) (r : PReg) (c : Poly) : (setPoly f r c)[r] = c := by
  simp [setPoly]

theorem setPoly_get_ne (f : PolyFile) {r q : PReg} (c : Poly) (h : q ≠ r) : (setPoly f r c)[q] = f[q] := by
  have h' : r.val ≠ q.val := fun e => h (Fin.ext e.symm)
  simp [setPoly, h']

end Sys2Proof.Machine
end

