-- ==== Sys2Proof/Laws/Memory.lean ====
section
/-! SUPPORT. BUF as a canonical memory: a read after a write, the canonical form kept, and equal memories equal data. -/

namespace Sys2Proof.Machine

@[simp] theorem Memory.read_nil (k : Nat) : Memory.read [] k = 0 := rfl

theorem Memory.read_cons (a : Nat) (b : Byte) (m : Memory) (k : Nat) :
    Memory.read ((a, b) :: m) k = if a = k then b else Memory.read m k := rfl

/-- Reading an append: the first part where it lists the address, else the second. -/
theorem Memory.read_append_of_not_mem (m m' : Memory) (k : Nat) (h : ∀ c ∈ m, c.1 ≠ k) :
    Memory.read (m ++ m') k = Memory.read m' k := by
  induction m with
  | nil => rfl
  | cons c m ih =>
    obtain ⟨a, b⟩ := c
    rw [List.cons_append, Memory.read_cons, if_neg (h _ List.mem_cons_self)]
    exact ih fun c hc => h c (List.mem_cons_of_mem _ hc)

theorem Memory.read_append_of_not_mem_right (m m' : Memory) (k : Nat) (h : ∀ c ∈ m', c.1 ≠ k) :
    Memory.read (m ++ m') k = Memory.read m k := by
  induction m with
  | nil => simpa using Memory.read_append_of_not_mem m' [] k h
  | cons c m ih =>
    obtain ⟨a, b⟩ := c
    rw [List.cons_append, Memory.read_cons, Memory.read_cons, ih]

/-- Keeping the cells of some addresses keeps what those addresses read as. -/
theorem Memory.read_filter (m : Memory) (f : Nat → Bool) (k : Nat) (h : f k = true) :
    Memory.read (m.filter fun c => f c.1) k = Memory.read m k := by
  induction m with
  | nil => rfl
  | cons c m ih =>
    obtain ⟨a, b⟩ := c
    by_cases hk : a = k
    · subst hk
      simp [h, Memory.read_cons]
    · by_cases hf : f a = true
      · simp [hf, Memory.read_cons, hk, ih]
      · simp [hf, Memory.read_cons, hk, ih]

theorem Memory.cellsFrom_mem {lo : Nat} {bs : List Byte} {c : Host.Cell} (h : c ∈ Memory.cellsFrom lo bs) :
    lo ≤ c.1 ∧ c.1 < lo + bs.length := by
  induction bs generalizing lo with
  | nil => simp [Memory.cellsFrom] at h
  | cons b bs ih =>
    rw [Memory.cellsFrom] at h
    split at h
    · have := ih h
      simp only [List.length_cons]
      omega
    · rcases List.mem_cons.1 h with rfl | h
      · simp
      · have := ih h
        simp only [List.length_cons]
        omega

/-- What the cells of a sequence of bytes read as. -/
theorem Memory.read_cellsFrom (lo : Nat) (bs : List Byte) (j : Nat) :
    Memory.read (Memory.cellsFrom lo bs) (lo + j) = bs.getD j 0 := by
  induction bs generalizing lo j with
  | nil => rfl
  | cons b bs ih =>
    rw [Memory.cellsFrom]
    cases j with
    | zero =>
      split
      · next hb =>
        subst hb
        have h := Memory.read_append_of_not_mem (Memory.cellsFrom (lo + 1) bs) [] (lo + 0) (fun c hc => by
          have := Memory.cellsFrom_mem hc
          omega)
        simpa using h
      · simp [Memory.read_cons]
    | succ j =>
      have h := ih (lo + 1) j
      rw [show lo + 1 + j = lo + (j + 1) by omega] at h
      split
      · simpa using h
      · rw [Memory.read_cons, if_neg (by omega)]
        simpa using h

/-- A read after a block write: the byte written inside the block, the old byte outside it. -/
theorem Memory.read_writeBlock (m : Memory) (lo : Nat) (bs : List Byte) (k : Nat) :
    Memory.read (m.writeBlock lo bs) k
      = if lo ≤ k ∧ k < lo + bs.length then bs.getD (k - lo) 0 else Memory.read m k := by
  have hlow : ∀ c ∈ m.filter (fun c => decide (c.1 < lo)), c.1 < lo := by simp
  have hhigh : ∀ c ∈ m.filter (fun c => decide (lo + bs.length ≤ c.1)), lo + bs.length ≤ c.1 := by simp
  have hmid : ∀ c ∈ Memory.cellsFrom lo bs, lo ≤ c.1 ∧ c.1 < lo + bs.length := fun _ => Memory.cellsFrom_mem
  unfold Memory.writeBlock
  split
  · next h =>
    rw [Memory.read_append_of_not_mem_right _ _ _ fun c hc => by have := hhigh c hc; omega,
      Memory.read_append_of_not_mem _ _ _ fun c hc => by have := hlow c hc; omega]
    simpa [Nat.add_sub_cancel' h.1] using Memory.read_cellsFrom lo bs (k - lo)
  · next h =>
    by_cases hk : k < lo
    · rw [Memory.read_append_of_not_mem_right _ _ _ fun c hc => by have := hhigh c hc; omega,
        Memory.read_append_of_not_mem_right _ _ _ fun c hc => by have := hmid c hc; omega]
      exact Memory.read_filter m (fun a => decide (a < lo)) k (by simpa using hk)
    · rw [Memory.read_append_of_not_mem _ _ _ fun c hc => by
        rcases List.mem_append.1 hc with hc | hc
        · have := hlow c hc; omega
        · have := hmid c hc; omega]
      exact Memory.read_filter m (fun a => decide (lo + bs.length ≤ a)) k (by simp; omega)

/-! ## The canonical form -/

theorem Memory.wfFrom_cons (lo a : Nat) (b : Byte) (m : Memory) :
    Memory.wfFrom lo ((a, b) :: m) = true
      ↔ lo ≤ a ∧ a < bufBytes ∧ b ≠ 0 ∧ Memory.wfFrom (a + 1) m = true := by
  simp [Memory.wfFrom, and_assoc]

theorem Memory.wfFrom_mono {lo lo' : Nat} (h : lo ≤ lo') {m : Memory} (hm : Memory.wfFrom lo' m = true) :
    Memory.wfFrom lo m = true := by
  cases m with
  | nil => rfl
  | cons c m =>
    obtain ⟨a, b⟩ := c
    rw [Memory.wfFrom_cons] at hm ⊢
    exact ⟨h.trans hm.1, hm.2⟩

theorem Memory.wfFrom_le {lo : Nat} {m : Memory} (hm : Memory.wfFrom lo m = true) {c : Host.Cell} (hc : c ∈ m) :
    lo ≤ c.1 := by
  induction m generalizing lo with
  | nil => simp at hc
  | cons d m ih =>
    obtain ⟨a, b⟩ := d
    rw [Memory.wfFrom_cons] at hm
    rcases List.mem_cons.1 hc with rfl | hc
    · exact hm.1
    · have := ih hm.2.2.2 hc
      omega

theorem Memory.wfFrom_filter {lo : Nat} {m : Memory} (f : Host.Cell → Bool) (hm : Memory.wfFrom lo m = true) :
    Memory.wfFrom lo (m.filter f) = true := by
  induction m generalizing lo with
  | nil => rfl
  | cons c m ih =>
    obtain ⟨a, b⟩ := c
    rw [Memory.wfFrom_cons] at hm
    by_cases hf : f (a, b) = true
    · rw [List.filter_cons_of_pos hf, Memory.wfFrom_cons]
      exact ⟨hm.1, hm.2.1, hm.2.2.1, ih hm.2.2.2⟩
    · rw [List.filter_cons_of_neg hf]
      exact Memory.wfFrom_mono (by omega) (ih hm.2.2.2)

/-- A filtered canonical memory whose kept addresses start at `lo'`. -/
theorem Memory.wfFrom_filter_ge {lo lo' : Nat} {m : Memory} (hm : Memory.wfFrom lo m = true) :
    Memory.wfFrom lo' (m.filter fun c => decide (lo' ≤ c.1)) = true := by
  induction m generalizing lo with
  | nil => rfl
  | cons c m ih =>
    obtain ⟨a, b⟩ := c
    rw [Memory.wfFrom_cons] at hm
    by_cases hf : lo' ≤ a
    · rw [List.filter_cons_of_pos (by simpa using hf), Memory.wfFrom_cons]
      exact ⟨hf, hm.2.1, hm.2.2.1, Memory.wfFrom_filter _ hm.2.2.2⟩
    · rw [List.filter_cons_of_neg (by simpa using hf)]
      exact ih hm.2.2.2

theorem Memory.wfFrom_append {lo mid : Nat} {m m' : Memory} (hm : Memory.wfFrom lo m = true)
    (hlt : ∀ c ∈ m, c.1 < mid) (hlo : lo ≤ mid) (hm' : Memory.wfFrom mid m' = true) :
    Memory.wfFrom lo (m ++ m') = true := by
  induction m generalizing lo with
  | nil => exact Memory.wfFrom_mono hlo hm'
  | cons c m ih =>
    obtain ⟨a, b⟩ := c
    rw [Memory.wfFrom_cons] at hm
    rw [List.cons_append, Memory.wfFrom_cons]
    have ha : a < mid := hlt (a, b) List.mem_cons_self
    exact ⟨hm.1, hm.2.1, hm.2.2.1, ih hm.2.2.2 (fun c hc => hlt c (List.mem_cons_of_mem _ hc)) (by omega)⟩

theorem Memory.wfFrom_cellsFrom (lo : Nat) (bs : List Byte) (h : lo + bs.length ≤ bufBytes) :
    Memory.wfFrom lo (Memory.cellsFrom lo bs) = true := by
  induction bs generalizing lo with
  | nil => rfl
  | cons b bs ih =>
    simp only [List.length_cons] at h
    have ih' := ih (lo + 1) (by omega)
    rw [Memory.cellsFrom]
    split
    · exact Memory.wfFrom_mono (by omega) ih'
    · next hb =>
      rw [Memory.wfFrom_cons]
      exact ⟨Nat.le_refl _, by omega, hb, ih'⟩

/-- A block write inside BUF keeps the canonical form. -/
theorem Memory.wf_writeBlock {m : Memory} (hm : m.wf = true) (lo : Nat) (bs : List Byte)
    (h : lo + bs.length ≤ bufBytes) : (m.writeBlock lo bs).wf = true := by
  unfold Memory.wf Memory.writeBlock at *
  rw [List.append_assoc]
  refine Memory.wfFrom_append (mid := lo) (Memory.wfFrom_filter _ hm) (by simp) (Nat.zero_le _) ?_
  refine Memory.wfFrom_append (mid := lo + bs.length) (Memory.wfFrom_cellsFrom lo bs h)
    (fun c hc => (Memory.cellsFrom_mem hc).2) (by omega) (Memory.wfFrom_filter_ge hm)

/-- Reset memory is canonical. -/
theorem Memory.wf_nil : Memory.wf [] = true := rfl

theorem Memory.read_eq_zero_of_wfFrom {lo k : Nat} {m : Memory} (hm : Memory.wfFrom lo m = true) (hk : k < lo) :
    Memory.read m k = 0 := by
  have h := Memory.read_append_of_not_mem m [] k fun c hc => by
    have := Memory.wfFrom_le hm hc
    omega
  simpa using h

/-- In canonical form, memories that read the same are the same list. -/
theorem Memory.wfFrom_ext {lo : Nat} {m m' : Memory} (hm : Memory.wfFrom lo m = true)
    (hm' : Memory.wfFrom lo m' = true) (h : ∀ k, Memory.read m k = Memory.read m' k) : m = m' := by
  induction m generalizing lo m' with
  | nil =>
    cases m' with
    | nil => rfl
    | cons c m' =>
      obtain ⟨a, b⟩ := c
      have := h a
      rw [Memory.wfFrom_cons] at hm'
      simp only [Memory.read_nil, Memory.read_cons, if_true] at this
      exact absurd this.symm hm'.2.2.1
  | cons c m ih =>
    obtain ⟨a, b⟩ := c
    rw [Memory.wfFrom_cons] at hm
    cases m' with
    | nil =>
      have := h a
      simp only [Memory.read_nil, Memory.read_cons, if_true] at this
      exact absurd this hm.2.2.1
    | cons c' m' =>
      obtain ⟨a', b'⟩ := c'
      rw [Memory.wfFrom_cons] at hm'
      have haa : a = a' := by
        rcases Nat.lt_trichotomy a a' with hlt | heq | hlt
        · have := h a
          simp only [Memory.read_cons, if_true, if_neg (Nat.ne_of_gt hlt)] at this
          rw [Memory.read_eq_zero_of_wfFrom hm'.2.2.2 (by omega)] at this
          exact absurd this hm.2.2.1
        · exact heq
        · have := h a'
          simp only [Memory.read_cons, if_true, if_neg (Nat.ne_of_gt hlt)] at this
          rw [Memory.read_eq_zero_of_wfFrom hm.2.2.2 (by omega)] at this
          exact absurd this.symm hm'.2.2.1
      subst haa
      have hbb : b = b' := by simpa [Memory.read_cons] using h a
      subst hbb
      refine congrArg _ (ih hm.2.2.2 hm'.2.2.2 fun k => ?_)
      by_cases hk : a = k
      · subst hk
        rw [Memory.read_eq_zero_of_wfFrom hm.2.2.2 (by omega), Memory.read_eq_zero_of_wfFrom hm'.2.2.2 (by omega)]
      · simpa [Memory.read_cons, hk] using h k

/-- Equal memories are equal data. -/
theorem Memory.wf_ext {m m' : Memory} (hm : m.wf = true) (hm' : m'.wf = true)
    (h : ∀ k, Memory.read m k = Memory.read m' k) : m = m' :=
  Memory.wfFrom_ext hm hm' h

@[simp] theorem Memory.readBlock_length (m : Memory) (lo n : Nat) : (m.readBlock lo n).length = n := by
  simp [Memory.readBlock]

/-- Byte `k` of a block read. -/
theorem Memory.getD_readBlock (m : Memory) {lo n k : Nat} (h : k < n) :
    (m.readBlock lo n).getD k 0 = m.read (lo + k) := by
  simp [Memory.readBlock, List.getD_eq_getElem?_getD, h]

end Sys2Proof.Machine
end

