-- ==== Sys2Proof/Laws/State.lean ====
section
/-! SUPPORT. What each named update of the state does to each field: one lemma a field, true by rfl. -/

namespace Sys2Proof.Machine

variable (s : State)

/-! ### complete -/

@[simp] theorem complete_p : (complete s).p = s.p := rfl
@[simp] theorem complete_buf : (complete s).buf = s.buf := rfl
@[simp] theorem complete_sin : (complete s).sin = s.sin := rfl
@[simp] theorem complete_sout : (complete s).sout = s.sout := rfl
@[simp] theorem complete_ie : (complete s).ie = s.ie := rfl
@[simp] theorem complete_done : (complete s).done = true := rfl
@[simp] theorem complete_err : (complete s).err = s.err := rfl
@[simp] theorem complete_errcode : (complete s).errcode = s.errcode := rfl
@[simp] theorem complete_cmd : (complete s).cmd = s.cmd := rfl
@[simp] theorem complete_pending : (complete s).pending = none := rfl
@[simp] theorem complete_cfg : (complete s).cfg = s.cfg := rfl
@[simp] theorem complete_resetPin : (complete s).resetPin = s.resetPin := rfl
@[simp] theorem complete_events : (complete s).events = s.events := rfl
@[simp] theorem complete_responses : (complete s).responses = s.responses := rfl
@[simp] theorem complete_draws : (complete s).draws = s.draws := rfl

/-! ### raiseCmdError -/

@[simp] theorem raiseCmdError_p (c : ErrCode) : (raiseCmdError s c).p = s.p := rfl
@[simp] theorem raiseCmdError_buf (c : ErrCode) : (raiseCmdError s c).buf = s.buf := rfl
@[simp] theorem raiseCmdError_sin (c : ErrCode) : (raiseCmdError s c).sin = s.sin := rfl
@[simp] theorem raiseCmdError_sout (c : ErrCode) : (raiseCmdError s c).sout = s.sout := rfl
@[simp] theorem raiseCmdError_ie (c : ErrCode) : (raiseCmdError s c).ie = s.ie := rfl
@[simp] theorem raiseCmdError_done (c : ErrCode) : (raiseCmdError s c).done = s.done := rfl
@[simp] theorem raiseCmdError_err (c : ErrCode) : (raiseCmdError s c).err = true := rfl
@[simp] theorem raiseCmdError_errcode (c : ErrCode) : (raiseCmdError s c).errcode = c := rfl
@[simp] theorem raiseCmdError_cmd (c : ErrCode) : (raiseCmdError s c).cmd = s.cmd := rfl
@[simp] theorem raiseCmdError_pending (c : ErrCode) : (raiseCmdError s c).pending = s.pending := rfl
@[simp] theorem raiseCmdError_cfg (c : ErrCode) : (raiseCmdError s c).cfg = s.cfg := rfl
@[simp] theorem raiseCmdError_resetPin (c : ErrCode) : (raiseCmdError s c).resetPin = s.resetPin := rfl
@[simp] theorem raiseCmdError_events (c : ErrCode) : (raiseCmdError s c).events = s.events := rfl
@[simp] theorem raiseCmdError_responses (c : ErrCode) : (raiseCmdError s c).responses = s.responses := rfl
@[simp] theorem raiseCmdError_draws (c : ErrCode) : (raiseCmdError s c).draws = s.draws := rfl

/-! ### accept -/

@[simp] theorem accept_p (i : Instr) : (accept s i).p = s.p := rfl
@[simp] theorem accept_buf (i : Instr) : (accept s i).buf = s.buf := rfl
@[simp] theorem accept_sin (i : Instr) : (accept s i).sin = s.sin := rfl
@[simp] theorem accept_sout (i : Instr) : (accept s i).sout = s.sout := rfl
@[simp] theorem accept_ie (i : Instr) : (accept s i).ie = s.ie := rfl
@[simp] theorem accept_done (i : Instr) : (accept s i).done = false := rfl
@[simp] theorem accept_err (i : Instr) : (accept s i).err = s.err := rfl
@[simp] theorem accept_errcode (i : Instr) : (accept s i).errcode = s.errcode := rfl
@[simp] theorem accept_cmd (i : Instr) : (accept s i).cmd = s.cmd := rfl
@[simp] theorem accept_pending (i : Instr) : (accept s i).pending = some i := rfl
@[simp] theorem accept_cfg (i : Instr) : (accept s i).cfg = s.cfg := rfl
@[simp] theorem accept_resetPin (i : Instr) : (accept s i).resetPin = s.resetPin := rfl
@[simp] theorem accept_events (i : Instr) : (accept s i).events = s.events := rfl
@[simp] theorem accept_responses (i : Instr) : (accept s i).responses = s.responses := rfl
@[simp] theorem accept_draws (i : Instr) : (accept s i).draws = s.draws := rfl

/-! ### respond -/

@[simp] theorem respond_p (r : Response) : (respond s r).p = s.p := rfl
@[simp] theorem respond_buf (r : Response) : (respond s r).buf = s.buf := rfl
@[simp] theorem respond_sin (r : Response) : (respond s r).sin = s.sin := rfl
@[simp] theorem respond_sout (r : Response) : (respond s r).sout = s.sout := rfl
@[simp] theorem respond_ie (r : Response) : (respond s r).ie = s.ie := rfl
@[simp] theorem respond_done (r : Response) : (respond s r).done = s.done := rfl
@[simp] theorem respond_err (r : Response) : (respond s r).err = s.err := rfl
@[simp] theorem respond_errcode (r : Response) : (respond s r).errcode = s.errcode := rfl
@[simp] theorem respond_cmd (r : Response) : (respond s r).cmd = s.cmd := rfl
@[simp] theorem respond_pending (r : Response) : (respond s r).pending = s.pending := rfl
@[simp] theorem respond_cfg (r : Response) : (respond s r).cfg = s.cfg := rfl
@[simp] theorem respond_resetPin (r : Response) : (respond s r).resetPin = s.resetPin := rfl
@[simp] theorem respond_events (r : Response) : (respond s r).events = s.events := rfl
@[simp] theorem respond_responses (r : Response) : (respond s r).responses = r :: s.responses := rfl
@[simp] theorem respond_draws (r : Response) : (respond s r).draws = s.draws := rfl

/-! ### writeStatus -/

@[simp] theorem writeStatus_p (v : Word) : (writeStatus s v).p = s.p := rfl
@[simp] theorem writeStatus_buf (v : Word) : (writeStatus s v).buf = s.buf := rfl
@[simp] theorem writeStatus_sin (v : Word) : (writeStatus s v).sin = s.sin := rfl
@[simp] theorem writeStatus_sout (v : Word) : (writeStatus s v).sout = s.sout := rfl
@[simp] theorem writeStatus_ie (v : Word) : (writeStatus s v).ie = s.ie := rfl
@[simp] theorem writeStatus_done (v : Word) : (writeStatus s v).done = (s.done && !v.getLsbD 1) := rfl
@[simp] theorem writeStatus_err (v : Word) : (writeStatus s v).err = (s.err && !v.getLsbD 2) := rfl
@[simp] theorem writeStatus_errcode (v : Word) : (writeStatus s v).errcode = if v.getLsbD 2 then .none else s.errcode := rfl
@[simp] theorem writeStatus_cmd (v : Word) : (writeStatus s v).cmd = s.cmd := rfl
@[simp] theorem writeStatus_pending (v : Word) : (writeStatus s v).pending = s.pending := rfl
@[simp] theorem writeStatus_cfg (v : Word) : (writeStatus s v).cfg = s.cfg := rfl
@[simp] theorem writeStatus_resetPin (v : Word) : (writeStatus s v).resetPin = s.resetPin := rfl
@[simp] theorem writeStatus_events (v : Word) : (writeStatus s v).events = s.events := rfl
@[simp] theorem writeStatus_responses (v : Word) : (writeStatus s v).responses = s.responses := rfl
@[simp] theorem writeStatus_draws (v : Word) : (writeStatus s v).draws = s.draws := rfl

/-! ### resetBlock -/

@[simp] theorem resetBlock_p : (resetBlock s).p = State.reset.p := rfl
@[simp] theorem resetBlock_buf : (resetBlock s).buf = [] := rfl
@[simp] theorem resetBlock_sin : (resetBlock s).sin = 0 := rfl
@[simp] theorem resetBlock_sout : (resetBlock s).sout = 0 := rfl
@[simp] theorem resetBlock_ie : (resetBlock s).ie = false := rfl
@[simp] theorem resetBlock_done : (resetBlock s).done = false := rfl
@[simp] theorem resetBlock_err : (resetBlock s).err = false := rfl
@[simp] theorem resetBlock_errcode : (resetBlock s).errcode = .none := rfl
@[simp] theorem resetBlock_cmd : (resetBlock s).cmd = 0 := rfl
@[simp] theorem resetBlock_pending : (resetBlock s).pending = none := rfl
@[simp] theorem resetBlock_cfg : (resetBlock s).cfg = s.cfg := rfl
@[simp] theorem resetBlock_resetPin : (resetBlock s).resetPin = s.resetPin := rfl
@[simp] theorem resetBlock_events : (resetBlock s).events = s.events := rfl
@[simp] theorem resetBlock_responses : (resetBlock s).responses = s.responses := rfl
@[simp] theorem resetBlock_draws : (resetBlock s).draws = s.draws := rfl

/-! ### scalarResult -/

@[simp] theorem scalarResult_p (ok : Bool) (v : Coeff) : (scalarResult s ok v).p = s.p := rfl
@[simp] theorem scalarResult_buf (ok : Bool) (v : Coeff) : (scalarResult s ok v).buf = s.buf := rfl
@[simp] theorem scalarResult_sin (ok : Bool) (v : Coeff) : (scalarResult s ok v).sin = s.sin := rfl
@[simp] theorem scalarResult_sout (ok : Bool) (v : Coeff) : (scalarResult s ok v).sout = observedCoeff s ok 0 v := rfl
@[simp] theorem scalarResult_ie (ok : Bool) (v : Coeff) : (scalarResult s ok v).ie = s.ie := rfl
@[simp] theorem scalarResult_done (ok : Bool) (v : Coeff) : (scalarResult s ok v).done = true := rfl
@[simp] theorem scalarResult_err (ok : Bool) (v : Coeff) : (scalarResult s ok v).err = s.err := rfl
@[simp] theorem scalarResult_errcode (ok : Bool) (v : Coeff) : (scalarResult s ok v).errcode = s.errcode := rfl
@[simp] theorem scalarResult_cmd (ok : Bool) (v : Coeff) : (scalarResult s ok v).cmd = s.cmd := rfl
@[simp] theorem scalarResult_pending (ok : Bool) (v : Coeff) : (scalarResult s ok v).pending = none := rfl
@[simp] theorem scalarResult_cfg (ok : Bool) (v : Coeff) : (scalarResult s ok v).cfg = s.cfg := rfl
@[simp] theorem scalarResult_resetPin (ok : Bool) (v : Coeff) : (scalarResult s ok v).resetPin = s.resetPin := rfl
@[simp] theorem scalarResult_events (ok : Bool) (v : Coeff) : (scalarResult s ok v).events = s.events := rfl
@[simp] theorem scalarResult_responses (ok : Bool) (v : Coeff) : (scalarResult s ok v).responses = s.responses := rfl
@[simp] theorem scalarResult_draws (ok : Bool) (v : Coeff) : (scalarResult s ok v).draws = drawsAfter s ok := rfl

/-! ### polyResult -/

@[simp] theorem polyResult_p (pd : PReg) (ok : Fin 256 → Bool) (v : Poly) : (polyResult s pd ok v).p = setPoly s.p pd (observedPoly s ok v) := rfl
@[simp] theorem polyResult_buf (pd : PReg) (ok : Fin 256 → Bool) (v : Poly) : (polyResult s pd ok v).buf = s.buf := rfl
@[simp] theorem polyResult_sin (pd : PReg) (ok : Fin 256 → Bool) (v : Poly) : (polyResult s pd ok v).sin = s.sin := rfl
@[simp] theorem polyResult_sout (pd : PReg) (ok : Fin 256 → Bool) (v : Poly) : (polyResult s pd ok v).sout = s.sout := rfl
@[simp] theorem polyResult_ie (pd : PReg) (ok : Fin 256 → Bool) (v : Poly) : (polyResult s pd ok v).ie = s.ie := rfl
@[simp] theorem polyResult_done (pd : PReg) (ok : Fin 256 → Bool) (v : Poly) : (polyResult s pd ok v).done = true := rfl
@[simp] theorem polyResult_err (pd : PReg) (ok : Fin 256 → Bool) (v : Poly) : (polyResult s pd ok v).err = s.err := rfl
@[simp] theorem polyResult_errcode (pd : PReg) (ok : Fin 256 → Bool) (v : Poly) : (polyResult s pd ok v).errcode = s.errcode := rfl
@[simp] theorem polyResult_cmd (pd : PReg) (ok : Fin 256 → Bool) (v : Poly) : (polyResult s pd ok v).cmd = s.cmd := rfl
@[simp] theorem polyResult_pending (pd : PReg) (ok : Fin 256 → Bool) (v : Poly) : (polyResult s pd ok v).pending = none := rfl
@[simp] theorem polyResult_cfg (pd : PReg) (ok : Fin 256 → Bool) (v : Poly) : (polyResult s pd ok v).cfg = s.cfg := rfl
@[simp] theorem polyResult_resetPin (pd : PReg) (ok : Fin 256 → Bool) (v : Poly) : (polyResult s pd ok v).resetPin = s.resetPin := rfl
@[simp] theorem polyResult_events (pd : PReg) (ok : Fin 256 → Bool) (v : Poly) : (polyResult s pd ok v).events = s.events := rfl
@[simp] theorem polyResult_responses (pd : PReg) (ok : Fin 256 → Bool) (v : Poly) : (polyResult s pd ok v).responses = s.responses := rfl
@[simp] theorem polyResult_draws (pd : PReg) (ok : Fin 256 → Bool) (v : Poly) : (polyResult s pd ok v).draws = drawsAfter s (allLanes ok) := rfl

/-! ### bufResult -/

@[simp] theorem bufResult_p (ok : Fin 256 → Bool) (d : Nat) (v : List Nat) (f : List Nat → List Byte) : (bufResult s ok d v f).p = s.p := rfl
@[simp] theorem bufResult_buf (ok : Fin 256 → Bool) (d : Nat) (v : List Nat) (f : List Nat → List Byte) : (bufResult s ok d v f).buf = s.buf.writeBlock 0 (f (observedValues s ok d v)) := rfl
@[simp] theorem bufResult_sin (ok : Fin 256 → Bool) (d : Nat) (v : List Nat) (f : List Nat → List Byte) : (bufResult s ok d v f).sin = s.sin := rfl
@[simp] theorem bufResult_sout (ok : Fin 256 → Bool) (d : Nat) (v : List Nat) (f : List Nat → List Byte) : (bufResult s ok d v f).sout = s.sout := rfl
@[simp] theorem bufResult_ie (ok : Fin 256 → Bool) (d : Nat) (v : List Nat) (f : List Nat → List Byte) : (bufResult s ok d v f).ie = s.ie := rfl
@[simp] theorem bufResult_done (ok : Fin 256 → Bool) (d : Nat) (v : List Nat) (f : List Nat → List Byte) : (bufResult s ok d v f).done = true := rfl
@[simp] theorem bufResult_err (ok : Fin 256 → Bool) (d : Nat) (v : List Nat) (f : List Nat → List Byte) : (bufResult s ok d v f).err = s.err := rfl
@[simp] theorem bufResult_errcode (ok : Fin 256 → Bool) (d : Nat) (v : List Nat) (f : List Nat → List Byte) : (bufResult s ok d v f).errcode = s.errcode := rfl
@[simp] theorem bufResult_cmd (ok : Fin 256 → Bool) (d : Nat) (v : List Nat) (f : List Nat → List Byte) : (bufResult s ok d v f).cmd = s.cmd := rfl
@[simp] theorem bufResult_pending (ok : Fin 256 → Bool) (d : Nat) (v : List Nat) (f : List Nat → List Byte) : (bufResult s ok d v f).pending = none := rfl
@[simp] theorem bufResult_cfg (ok : Fin 256 → Bool) (d : Nat) (v : List Nat) (f : List Nat → List Byte) : (bufResult s ok d v f).cfg = s.cfg := rfl
@[simp] theorem bufResult_resetPin (ok : Fin 256 → Bool) (d : Nat) (v : List Nat) (f : List Nat → List Byte) : (bufResult s ok d v f).resetPin = s.resetPin := rfl
@[simp] theorem bufResult_events (ok : Fin 256 → Bool) (d : Nat) (v : List Nat) (f : List Nat → List Byte) : (bufResult s ok d v f).events = s.events := rfl
@[simp] theorem bufResult_responses (ok : Fin 256 → Bool) (d : Nat) (v : List Nat) (f : List Nat → List Byte) : (bufResult s ok d v f).responses = s.responses := rfl
@[simp] theorem bufResult_draws (ok : Fin 256 → Bool) (d : Nat) (v : List Nat) (f : List Nat → List Byte) : (bufResult s ok d v f).draws = drawsAfter s (allLanes ok) := rfl

/-! ### BUSY and the interrupt output -/

@[simp] theorem busy_mk_none (h : s.pending = none) : s.busy = false := by simp [State.busy, h]

@[simp] theorem busy_mk_some {i : Instr} (h : s.pending = some i) : s.busy = true := by simp [State.busy, h]

theorem busy_iff : s.busy = true ↔ ∃ i, s.pending = some i := by
  simp [State.busy, Option.isSome_iff_exists]

end Sys2Proof.Machine
end

