-- ==== Sys2Proof/Laws/Ops.lean ====
section
/-! SUPPORT. One lemma for each shared operation that says everything it can do, and the inversion of a step. -/

namespace Sys2Proof.Machine

/-! ## Results, exact or drawn -/

section Observed

variable {s : State}

theorem observedCoeff_exact (h : ExactMode s) (ok : Bool) (lane : Nat) (v : Coeff) : observedCoeff s ok lane v = v := by
  unfold ExactMode at h
  simp [observedCoeff, h]

theorem observedPoly_exact (h : ExactMode s) (ok : Fin 256 → Bool) (v : Sys2Proof.Poly) : observedPoly s ok v = v := by
  unfold ExactMode at h
  simp [observedPoly, h]

theorem observedValues_exact (h : ExactMode s) (ok : Fin 256 → Bool) (d : Nat) (v : List Nat) :
    observedValues s ok d v = v := by
  unfold ExactMode at h
  simp [observedValues, h]

theorem drawsAfter_exact (h : ExactMode s) (ok : Bool) : drawsAfter s ok = s.draws := by
  unfold ExactMode at h
  simp [drawsAfter, h]

theorem observedCoeff_true (lane : Nat) (v : Coeff) : observedCoeff s true lane v = v := by
  unfold observedCoeff
  cases s.cfg.outOfContract <;> rfl

theorem drawsAfter_true : drawsAfter s true = s.draws := by
  unfold drawsAfter
  cases s.cfg.outOfContract <;> rfl

/-- When every lane is in contract the rule's value is observed in either mode. -/
theorem observedPoly_all {ok : Fin 256 → Bool} (h : ∀ i, ok i = true) (v : Sys2Proof.Poly) :
    observedPoly s ok v = v := by
  unfold observedPoly
  cases s.cfg.outOfContract
  · rfl
  · apply Vector.ext
    intro i hi
    simp [h]

/-- A lane in contract has the rule's value in either mode. -/
theorem coeff_observedPoly {ok : Fin 256 → Bool} (v : Sys2Proof.Poly) {i : Nat} (hi : i < 256)
    (h : ok ⟨i, hi⟩ = true) : coeff (observedPoly s ok v) i = coeff v i := by
  unfold observedPoly
  cases s.cfg.outOfContract
  · rfl
  · simp [coeff, List.getD_eq_getElem?_getD, hi, h]

theorem allLanes_iff (ok : Fin 256 → Bool) : allLanes ok = true ↔ ∀ i, ok i = true := by
  simp [allLanes]

end Observed

/-! ## Commands -/

/-- Every command's step is one of three: a scalar result, a polynomial result, or a codec's write of BUF. -/
theorem exec_shape (i : Instr) (s : State) :
    (writesPoly i = none ∧ writesBuf i = none ∧ ∃ ok v, exec i s = .next (scalarResult s ok v))
      ∨ (writesBuf i = none ∧ ∃ pd ok v, writesPoly i = some pd ∧ exec i s = .next (polyResult s pd ok v))
      ∨ (writesPoly i = none ∧ ∃ ok d v, writesBuf i = some (32 * d) ∧ d ≤ 12
          ∧ exec i s = .next (bufResult s ok d v (encodeStream d))) := by
  cases i
  case montReduce | barrettReduce | toMont | csubq => exact .inl ⟨rfl, rfl, _, _, rfl⟩
  case polyCompressQ4 pa => exact .inr (.inr ⟨rfl, _, 4, _, rfl, by decide, rfl⟩)
  case polyCompressQ5 pa => exact .inr (.inr ⟨rfl, _, 5, _, rfl, by decide, rfl⟩)
  case polyCompressQ10 pa => exact .inr (.inr ⟨rfl, _, 10, _, rfl, by decide, rfl⟩)
  case polyCompressQ11 pa => exact .inr (.inr ⟨rfl, _, 11, _, rfl, by decide, rfl⟩)
  case polyPack pa => exact .inr (.inr ⟨rfl, _, 12, _, rfl, by decide, rfl⟩)
  all_goals exact .inr (.inl ⟨rfl, _, _, _, rfl, rfl⟩)

@[simp] theorem encodeStream_length (d : Nat) (vs : List Nat) : (encodeStream d vs).length = 32 * d := by
  simp [encodeStream, digits_length]

/-- BUF after a codec's write: its own 32 * d bytes, and every other byte as before. -/
theorem bufByte_bufResult (s : State) (ok : Fin 256 → Bool) (d : Nat) (v : List Nat) (k : Nat) :
    bufByte (bufResult s ok d v (encodeStream d)) k
      = if k < 32 * d then (encodeStream d (observedValues s ok d v)).getD k 0 else bufByte s k := by
  simp [bufByte, Memory.read_writeBlock]

/-- A polynomial register after a polynomial command. -/
theorem polyReg_polyResult (s : State) (pd : PReg) (ok : Fin 256 → Bool) (v : Sys2Proof.Poly) (r : PReg) :
    polyReg (polyResult s pd ok v) r = if r = pd then observedPoly s ok v else polyReg s r := by
  unfold polyReg
  split
  · next h => subst h; exact setPoly_get_self _ _ _
  · next h => exact setPoly_get_ne _ _ h

/-! ## Issue -/

/-- The three outcomes of a word written to CMD (60_exceptions.md R236). -/
theorem issue_cases (s : State) (w : Word) :
    (s.busy = true ∧ issue s w = { s with cmd := w, err := true, errcode := .cmdWhileBusy })
      ∨ (s.busy = false ∧ ∃ c, decode w = .error c ∧ issue s w = { s with cmd := w, err := true, errcode := c })
      ∨ (s.busy = false ∧ ∃ i, decode w = .ok i
          ∧ issue s w = { s with cmd := w, pending := some i, done := false }) := by
  unfold issue
  cases hb : s.busy
  · cases hd : decode w with
    | error c => exact .inr (.inl ⟨rfl, c, rfl, by simp [raiseCmdError]⟩)
    | ok i => exact .inr (.inr ⟨rfl, i, rfl, by simp [accept]⟩)
  · exact .inl ⟨rfl, by simp [raiseCmdError]⟩

/-- The decoder never rejects with the code of no error (60_exceptions.md R234). -/
theorem decode_error_ne_none {w : Word} {c : ErrCode} (h : decode w = .error c) : c ≠ .none := by
  unfold decode at h
  split at h
  · cases h; decide
  · split at h
    · cases h; decide
    · split at h
      · cases h; decide
      · split at h
        · cases h; decide
        · cases h

/-! ## The window -/

theorem inWindow_iff (c : Config) (addr : Nat) :
    c.inWindow addr = true ↔ c.mrcBase ≤ addr ∧ addr < c.mrcBase + 4096 := by
  simp [Config.inWindow]

/-- The offset of a bus address inside the window. -/
theorem offsetOf_add (c : Config) {off : Nat} (h : off < 4096) : offsetOf c (c.mrcBase + off) = some off := by
  have : c.inWindow (c.mrcBase + off) = true := (inWindow_iff _ _).2 ⟨by omega, by omega⟩
  simp [offsetOf, this]

theorem offsetOf_some {c : Config} {addr off : Nat} (h : offsetOf c addr = some off) :
    addr = c.mrcBase + off ∧ off < 4096 := by
  unfold offsetOf at h
  split at h
  · next hw =>
    have := (inWindow_iff _ _).1 hw
    cases h
    omega
  · cases h

theorem widthAllowed_iff (off n : Nat) : widthAllowed (regionOf off) n = true ↔ MapAllows off n := by
  unfold regionOf MapAllows
  split
  · next h => simp [widthAllowed]; omega
  · split
    · next h => simp [widthAllowed]; omega
    · split
      · next h => simp [widthAllowed]; omega
      · split
        · next h => simp [widthAllowed]; omega
        · next h => simp [widthAllowed]; omega

/-- An access has no BusError exactly when it is aligned and of an allowed width. -/
theorem busError_none_iff (off n : Nat) : busError off n = none ↔ (n ≠ 0 → off % n = 0) ∧ MapAllows off n := by
  rw [← widthAllowed_iff]
  unfold busError
  split
  · next h => simp; intro h'; exact absurd (h' h.1) h.2
  · next h =>
    split
    · next hw => simp_all
    · next hw => simp_all

theorem busError_none_of_legal {off n : Nat} (h : LegalAccess off n) : busError off n = none :=
  (busError_none_iff off n).2 ⟨fun _ => h.2.1, h.2.2.2⟩

/-- The offsets the machine turns away while BUSY = 1 are those of P, BUF, SIN and SOUT. -/
theorem busyForbidden_iff {off n : Nat} (hoff : off < 4096) (h : busError off n = none) :
    busyForbidden off = true ↔ OwnedWhileBusy off := by
  obtain ⟨ha, hm⟩ := (busError_none_iff off n).1 h
  unfold busyForbidden regionOf OwnedWhileBusy
  unfold MapAllows at hm
  by_cases h1 : off < 0x018
  · have hn : n = 4 := by omega
    subst hn
    have := ha (by decide)
    simp only [h1, if_true, decide_eq_true_eq]
    omega
  · by_cases h2 : off < 0x400
    · simp only [h1, h2, if_true, if_false, Bool.false_eq_true, false_iff]
      omega
    · by_cases h3 : off < 0x580
      · simp only [h1, h2, h3, if_true, if_false, true_iff]
        omega
      · by_cases h4 : off < 0x800
        · simp only [h1, h2, h3, h4, if_true, if_false, Bool.false_eq_true, false_iff]
          omega
        · simp only [h1, h2, h3, h4, if_false, true_iff]
          omega

/-- What a host read can do (60_exceptions.md R244). -/
theorem hostRead_cases (s : State) (addr n : Nat) :
    (s.cfg.inWindow addr = false ∧ hostRead s addr n = .refused .outsideWindow)
      ∨ ∃ off, addr = s.cfg.mrcBase + off ∧ off < 4096 ∧
        ((∃ k, busError off n = some k ∧ hostRead s addr n = .next (respond s (.busError k)))
          ∨ (busError off n = none ∧ s.busy = true ∧ OwnedWhileBusy off
              ∧ hostRead s addr n = .fault .hazardBusyAccess)
          ∨ (busError off n = none ∧ ¬(s.busy = true ∧ OwnedWhileBusy off)
              ∧ hostRead s addr n = .next (respond s (.data (readWindow s off n))))) := by
  unfold hostRead
  cases ho : offsetOf s.cfg addr with
  | none =>
    refine .inl ⟨?_, rfl⟩
    unfold offsetOf at ho
    split at ho
    · cases ho
    · next h => simpa using h
  | some off =>
    obtain ⟨ha, hlt⟩ := offsetOf_some ho
    refine .inr ⟨off, ha, hlt, ?_⟩
    cases hb : busError off n with
    | some k => exact .inl ⟨k, rfl, by simp [hb, respondNext]⟩
    | none =>
      have hf := busyForbidden_iff hlt hb
      by_cases hc : s.busy = true ∧ OwnedWhileBusy off
      · exact .inr (.inl ⟨rfl, hc.1, hc.2, by simp [hb, hc.1, hf.2 hc.2]⟩)
      · refine .inr (.inr ⟨rfl, hc, ?_⟩)
        rw [← hf] at hc
        simp only [not_and] at hc
        cases hs : s.busy
        · simp [hb, respondNext]
        · simp [hb, hc hs, respondNext]

/-- What a host write can do (60_exceptions.md R244). -/
theorem hostWrite_cases (s : State) (addr n : Nat) (v : Word) :
    (s.cfg.inWindow addr = false ∧ hostWrite s addr n v = .refused .outsideWindow)
      ∨ ∃ off, addr = s.cfg.mrcBase + off ∧ off < 4096 ∧
        ((∃ k, busError off n = some k ∧ hostWrite s addr n v = .next (respond s (.busError k)))
          ∨ (busError off n = none ∧ s.busy = true ∧ OwnedWhileBusy off
              ∧ hostWrite s addr n v = .fault .hazardBusyAccess)
          ∨ (busError off n = none ∧ ¬(s.busy = true ∧ OwnedWhileBusy off)
              ∧ hostWrite s addr n v = .next (respond (writeWindow s off n v) .done))) := by
  unfold hostWrite
  cases ho : offsetOf s.cfg addr with
  | none =>
    refine .inl ⟨?_, rfl⟩
    unfold offsetOf at ho
    split at ho
    · cases ho
    · next h => simpa using h
  | some off =>
    obtain ⟨ha, hlt⟩ := offsetOf_some ho
    refine .inr ⟨off, ha, hlt, ?_⟩
    cases hb : busError off n with
    | some k => exact .inl ⟨k, rfl, by simp [hb, respondNext]⟩
    | none =>
      have hf := busyForbidden_iff hlt hb
      by_cases hc : s.busy = true ∧ OwnedWhileBusy off
      · exact .inr (.inl ⟨rfl, hc.1, hc.2, by simp [hb, hc.1, hf.2 hc.2]⟩)
      · refine .inr (.inr ⟨rfl, hc, ?_⟩)
        rw [← hf] at hc
        simp only [not_and] at hc
        cases hs : s.busy
        · simp [hb, respondNext]
        · simp [hb, hc hs, respondNext]

/-- What a legal write of the host changes: one register, a block of BUF inside it, a polynomial register, or
nothing. -/
theorem writeWindow_cases (s : State) {off n : Nat} (v : Word) (hoff : off < 4096) (h : busError off n = none) :
    writeWindow s off n v = s
      ∨ (off = 0x004 ∧ writeWindow s off n v = writeCtrl s v)
      ∨ (off = 0x008 ∧ writeWindow s off n v = writeStatus s v)
      ∨ (off = 0x00C ∧ writeWindow s off n v = issue s v)
      ∨ (off = 0x010 ∧ writeWindow s off n v = { s with sin := v })
      ∨ (0x400 ≤ off ∧ off - 0x400 + (bytesOfWord n v).length ≤ bufBytes
          ∧ writeWindow s off n v = { s with buf := s.buf.writeBlock (off - 0x400) (bytesOfWord n v) })
      ∨ (0x800 ≤ off ∧ ∃ r c, writeWindow s off n v = { s with p := setPoly s.p r c }) := by
  obtain ⟨ha, hm⟩ := (busError_none_iff off n).1 h
  unfold MapAllows at hm
  unfold writeWindow regionOf
  by_cases h1 : off < 0x018
  · simp only [h1, if_true]
    have hn : n = 4 := by omega
    subst hn
    have := ha (by decide)
    unfold writeRegister
    split
    · exact .inr (.inl ⟨rfl, rfl⟩)
    · exact .inr (.inr (.inl ⟨rfl, rfl⟩))
    · exact .inr (.inr (.inr (.inl ⟨rfl, rfl⟩)))
    · exact .inr (.inr (.inr (.inr (.inl ⟨rfl, rfl⟩))))
    · exact .inl rfl
  · by_cases h2 : off < 0x400
    · exact .inl (by simp [h1, h2])
    · by_cases h3 : off < 0x580
      · rw [if_neg h1, if_neg h2, if_pos h3]
        refine .inr (.inr (.inr (.inr (.inr (.inl ⟨by omega, ?_, rfl⟩)))))
        have hn : n = 1 ∨ n = 2 ∨ n = 4 := by omega
        have := ha (by omega)
        simp only [bytesOfWord, List.length_map, List.length_range, bufBytes]
        rcases hn with rfl | rfl | rfl <;> omega
      · by_cases h4 : off < 0x800
        · exact .inl (by simp [h1, h2, h3, h4])
        · rw [if_neg h1, if_neg h2, if_neg h3, if_neg h4]
          exact .inr (.inr (.inr (.inr (.inr (.inr ⟨by omega, _, _, rfl⟩)))))

/-! ## Steps -/

/-- What a core's turn can do. -/
theorem coreTurn_cases (s : State) :
    ((s.resetPin = true ∨ s.pending = none) ∧ coreTurn s = .next s)
      ∨ (s.resetPin = false ∧ ∃ i, s.pending = some i ∧ coreTurn s = exec i s) := by
  unfold coreTurn
  split
  · next h => exact .inl ⟨.inl h, rfl⟩
  · next h =>
    split
    · next hp => exact .inl ⟨.inr hp, rfl⟩
    · next i hp => exact .inr ⟨by simpa using h, i, hp, rfl⟩

/-- What a step can do: nothing that the block notices, a command's step, a host access, or the reset input. -/
theorem step_cases (s : State) :
    ((s.resetPin = true ∨ s.pending = none) ∧ step s = .next { s with events := s.events.tail })
      ∨ (s.resetPin = false ∧ CoreIsNext s s.events.tail ∧ ∃ i, s.pending = some i
          ∧ step s = exec i { s with events := s.events.tail })
      ∨ (s.resetPin = false ∧ ∃ addr n es, s.events = .read addr n :: es
          ∧ step s = hostRead { s with events := es } addr n)
      ∨ (s.resetPin = false ∧ ∃ addr n v es, s.events = .write addr n v :: es
          ∧ step s = hostWrite { s with events := es } addr n v)
      ∨ ∃ b es, s.events = .reset b :: es ∧ step s = .next (resetInput { s with events := es } b) := by
  have core (hc : CoreIsNext s s.events.tail) (hs : step s = coreTurn { s with events := s.events.tail }) :
      ((s.resetPin = true ∨ s.pending = none) ∧ step s = .next { s with events := s.events.tail })
      ∨ (s.resetPin = false ∧ CoreIsNext s s.events.tail ∧ ∃ i, s.pending = some i
          ∧ step s = exec i { s with events := s.events.tail }) := by
    rcases coreTurn_cases { s with events := s.events.tail } with ⟨h, e⟩ | ⟨h, i, hi, e⟩
    · exact .inl ⟨h, hs.trans e⟩
    · exact .inr ⟨h, hc, i, hi, hs.trans e⟩
  match he : s.events with
  | [] =>
    have hs : s = { s with events := s.events.tail } := by rw [he, List.tail_nil, ← he]
    have h := core (.inl ⟨he, by rw [he]; rfl⟩) (by rw [← hs]; simp [step, advance, he])
    rw [he] at h
    exact h.imp id .inl
  | .coreTurn :: es =>
    have h := core (.inr (by rw [he]; rfl)) (by simp [step, advance, handleEvent, he])
    rw [he] at h
    exact h.imp id .inl
  | .read addr n :: es =>
    by_cases hr : s.resetPin = true
    · exact .inl ⟨.inl hr, by simp [step, advance, handleEvent, he, hr]⟩
    · exact .inr (.inr (.inl ⟨by simpa using hr, addr, n, es, rfl, by simp [step, advance, handleEvent, he, hr]⟩))
  | .write addr n v :: es =>
    by_cases hr : s.resetPin = true
    · exact .inl ⟨.inl hr, by simp [step, advance, handleEvent, he, hr]⟩
    · exact .inr (.inr (.inr (.inl ⟨by simpa using hr, addr, n, v, es, rfl,
        by simp [step, advance, handleEvent, he, hr]⟩)))
  | .reset b :: es =>
    exact .inr (.inr (.inr (.inr ⟨b, es, rfl, by simp [step, advance, handleEvent, he]⟩)))

end Sys2Proof.Machine
end

