-- ==== Sys2Proof/Laws/HostProgram.lean ====
section
/-! SUPPORT. What the host's loop WAIT does (30_encoding.md R85): on an idle block one read, on a busy one the reads
that its latency gives, the command's step, and the read that ends it. -/

namespace Sys2Proof.Machine

/-- The step on a next event is what the event does, and the queue behind it is as before. -/
theorem hostStep_eq (s : State) (e : HostEvent) : hostStep s e = handleEvent s e := rfl

@[simp] theorem andThen_next (s : State) (f : State → Host.Outcome State Fault Refusal) : andThen (.next s) f = f s :=
  rfl

/-- A read of STATUS answers the word and changes nothing else, busy or not (20_memory.md R60). -/
theorem hostStep_status (s : State) (h : s.resetPin = false) :
    hostStep s (rd32 s.cfg.mrcBase 0x008) = .next { s with responses := .data (statusWord s) :: s.responses } := by
  simp only [hostStep_eq, handleEvent, rd32, h, hostRead, offsetOf_add s.cfg (show 0x008 < 4096 by decide)]
  simpa [busError, regionOf, widthAllowed, busyForbidden, respondNext, respond, readWindow, readRegister] using h

/-- Bit 0 of STATUS is BUSY (10_state.md R32). -/
theorem statusWord_busy (s : State) : (statusWord s).getLsbD 0 = s.busy := by
  cases hb : s.busy <;> cases hd : s.done <;> cases he : s.err <;> cases hc : s.errcode <;>
    simp [statusWord, hb, hd, he, hc, errNumber]

/-- A read of STATUS finds the block idle exactly when BUSY is 0. -/
theorem readIdle_status (s : State) (rs : List Response) :
    readIdle { s with responses := .data (statusWord s) :: rs } = !s.busy := by
  rw [← statusWord_busy]; rfl

/-- The core's turn on a busy block is the pending command's step. -/
theorem hostStep_coreTurn_busy (s : State) {i : Instr} (h : s.resetPin = false) (hp : s.pending = some i) :
    hostStep s .coreTurn = exec i s := by
  simp only [hostStep_eq, handleEvent, coreTurn, h, hp, Bool.false_eq_true, if_false]

/-- The core's turn on an idle block changes nothing (60_exceptions.md R251). -/
theorem hostStep_coreTurn_idle (s : State) (hp : s.pending = none) : hostStep s .coreTurn = .next s := by
  simp only [hostStep_eq, handleEvent, coreTurn, hp, ite_self]

/-- WAIT on an idle block is one read of STATUS, whatever the latency. -/
theorem waitLoop_idle (n : Nat) (s : State) (h : s.resetPin = false) (hp : s.pending = none) :
    waitLoop s.cfg.mrcBase n s = .next { s with responses := .data (statusWord s) :: s.responses } := by
  cases n with
  | zero => simp only [waitLoop, hostStep_coreTurn_idle s hp, andThen_next, hostStep_status s h]
  | succ n =>
    have hb : s.busy = false := by simp [State.busy, hp]
    simp only [waitLoop, hostStep_status s h, andThen_next, readIdle_status, hb, Bool.not_false, if_true]

/-- A command's step leaves the block idle, and the reset input and the parameters as they were. -/
theorem exec_idle (i : Instr) (s : State) :
    ∃ u, exec i s = .next u ∧ u.pending = none ∧ u.resetPin = s.resetPin ∧ u.cfg = s.cfg := by
  rcases exec_shape i s with ⟨-, -, ok, v, e⟩ | ⟨-, pd, ok, v, -, e⟩ | ⟨-, ok, d, v, -, -, e⟩ <;>
    exact ⟨_, e, rfl, rfl, rfl⟩

/-- WAIT on a busy block under the latency `n`: `n` reads that find BUSY = 1, the command's step, and the read that
finds BUSY = 0 and ends the loop. -/
theorem waitLoop_busy (n : Nat) (s : State) {i : Instr} (h : s.resetPin = false) (hp : s.pending = some i) :
    ∃ u, exec i { s with responses := List.replicate n (.data (statusWord s)) ++ s.responses } = .next u
      ∧ u.busy = false
      ∧ waitLoop s.cfg.mrcBase n s = .next { u with responses := .data (statusWord u) :: u.responses } := by
  induction n generalizing s with
  | zero =>
    obtain ⟨u, hu, hi, hr, hc⟩ := exec_idle i s
    refine ⟨u, hu, by simp [State.busy, hi], ?_⟩
    simp only [waitLoop, hostStep_coreTurn_busy s h hp, hu, andThen_next]
    rw [← hc, hostStep_status u (hr.trans h)]
  | succ n ih =>
    have hb : s.busy = true := by simp [State.busy, hp]
    obtain ⟨u, hu, hi, hw⟩ := ih { s with responses := .data (statusWord s) :: s.responses } h hp
    refine ⟨u, ?_, hi, ?_⟩
    · rw [← hu, List.replicate_succ', List.append_assoc]
      rfl
    · simp only [waitLoop, hostStep_status s h, andThen_next, readIdle_status, hb, Bool.not_true, Bool.false_eq_true,
        if_false]
      exact hw

/-- `SETP` writes halfwords: every access is one that the map takes, whatever integers the list holds. -/
theorem setPolyEvents_wf (c : Config) (p : PReg) (cs : List Int) :
    ∀ e ∈ setPolyEvents c.mrcBase p cs, HostEvent.wf c e = true := by
  intro e he
  obtain ⟨i, hi, rfl⟩ := List.mem_map.1 he
  have hi := List.mem_range.1 hi
  have hp := p.isLt
  have hv : (BitVec.setWidth 32 (BitVec.ofInt 16 (cs.getD i 0))).toNat < 2 ^ (8 * 2) := by
    rw [BitVec.toNat_setWidth]
    exact Nat.lt_of_le_of_lt (Nat.mod_le _ _) (BitVec.isLt _)
  have ho : (c.mrcBase + (0x800 + 0x200 * p.val + 2 * i) - c.mrcBase) % 2 = 0 := by omega
  have hw : c.inWindow (c.mrcBase + (0x800 + 0x200 * p.val + 2 * i)) = true :=
    (inWindow_iff _ _).2 ⟨by omega, by omega⟩
  simp only [wr16, HostEvent.wf, hw, ho, hv, widthOk]
  decide

end Sys2Proof.Machine
end

