-- ==== Sys2Proof/Laws/PerInstr.lean ====
section
/-! SUPPORT. Per-instruction laws: the word of every command matches its row of the opcode table. -/

namespace Sys2Proof.Laws

/-- The row of spec/opcode_table.json of each command: (mask, match), copied from the table. -/
def rowOf : Instr → Word × Word
  | .montReduce => (0xFFFFFFFF, 0x00000001)
  | .barrettReduce => (0xFFFFFFFF, 0x00000002)
  | .toMont => (0xFFFFFFFF, 0x00000003)
  | .csubq => (0xFFFFFFFF, 0x00000004)
  | .ntt _ => (0xFFFFFCFF, 0x00000008)
  | .invntt _ => (0xFFFFFCFF, 0x00000009)
  | .polyAdd _ _ _ => (0xFFFFC0FF, 0x0000000A)
  | .polySub _ _ _ => (0xFFFFC0FF, 0x0000000B)
  | .polyBasemul _ _ _ => (0xFFFFC0FF, 0x0000000C)
  | .polyNormalize _ => (0xFFFFFCFF, 0x0000000D)
  | .polyTomont _ => (0xFFFFFCFF, 0x0000000E)
  | .polyCompressQ4 _ => (0xFFFFF3FF, 0x00040010)
  | .polyCompressQ5 _ => (0xFFFFF3FF, 0x00050010)
  | .polyCompressQ10 _ => (0xFFFFF3FF, 0x000A0010)
  | .polyCompressQ11 _ => (0xFFFFF3FF, 0x000B0010)
  | .polyDecompressQ4 _ => (0xFFFFFCFF, 0x00040011)
  | .polyDecompressQ5 _ => (0xFFFFFCFF, 0x00050011)
  | .polyDecompressQ10 _ => (0xFFFFFCFF, 0x000A0011)
  | .polyDecompressQ11 _ => (0xFFFFFCFF, 0x000B0011)
  | .polyPack _ => (0xFFFFF3FF, 0x00000012)
  | .polyUnpack _ => (0xFFFFFCFF, 0x00000013)

/-- A word matches a row: its bits under the mask are the row's. -/
def matchesRow (w : Word) (row : Word × Word) : Bool := w &&& row.1 == row.2

/-- The command's own word matches its row (30_encoding.md R74, R75). -/
def RowMatch.Statement (i : Instr) : Prop := matchesRow (encode i) (rowOf i) = true

theorem RowMatch.montReduce : RowMatch.Statement .montReduce := by unfold RowMatch.Statement; decide
theorem RowMatch.barrettReduce : RowMatch.Statement .barrettReduce := by unfold RowMatch.Statement; decide
theorem RowMatch.toMont : RowMatch.Statement .toMont := by unfold RowMatch.Statement; decide
theorem RowMatch.csubq : RowMatch.Statement .csubq := by unfold RowMatch.Statement; decide
theorem RowMatch.ntt : ∀ pd : PReg, RowMatch.Statement (.ntt pd) := by
  unfold RowMatch.Statement; decide
theorem RowMatch.invntt : ∀ pd : PReg, RowMatch.Statement (.invntt pd) := by
  unfold RowMatch.Statement; decide
theorem RowMatch.polyAdd : ∀ pd pa pb : PReg, RowMatch.Statement (.polyAdd pd pa pb) := by
  unfold RowMatch.Statement; decide
theorem RowMatch.polySub : ∀ pd pa pb : PReg, RowMatch.Statement (.polySub pd pa pb) := by
  unfold RowMatch.Statement; decide
theorem RowMatch.polyBasemul : ∀ pd pa pb : PReg, RowMatch.Statement (.polyBasemul pd pa pb) := by
  unfold RowMatch.Statement; decide
theorem RowMatch.polyNormalize : ∀ pd : PReg, RowMatch.Statement (.polyNormalize pd) := by
  unfold RowMatch.Statement; decide
theorem RowMatch.polyTomont : ∀ pd : PReg, RowMatch.Statement (.polyTomont pd) := by
  unfold RowMatch.Statement; decide
theorem RowMatch.polyCompressQ4 : ∀ pa : PReg, RowMatch.Statement (.polyCompressQ4 pa) := by
  unfold RowMatch.Statement; decide
theorem RowMatch.polyCompressQ5 : ∀ pa : PReg, RowMatch.Statement (.polyCompressQ5 pa) := by
  unfold RowMatch.Statement; decide
theorem RowMatch.polyCompressQ10 : ∀ pa : PReg, RowMatch.Statement (.polyCompressQ10 pa) := by
  unfold RowMatch.Statement; decide
theorem RowMatch.polyCompressQ11 : ∀ pa : PReg, RowMatch.Statement (.polyCompressQ11 pa) := by
  unfold RowMatch.Statement; decide
theorem RowMatch.polyDecompressQ4 : ∀ pd : PReg, RowMatch.Statement (.polyDecompressQ4 pd) := by
  unfold RowMatch.Statement; decide
theorem RowMatch.polyDecompressQ5 : ∀ pd : PReg, RowMatch.Statement (.polyDecompressQ5 pd) := by
  unfold RowMatch.Statement; decide
theorem RowMatch.polyDecompressQ10 : ∀ pd : PReg, RowMatch.Statement (.polyDecompressQ10 pd) := by
  unfold RowMatch.Statement; decide
theorem RowMatch.polyDecompressQ11 : ∀ pd : PReg, RowMatch.Statement (.polyDecompressQ11 pd) := by
  unfold RowMatch.Statement; decide
theorem RowMatch.polyPack : ∀ pa : PReg, RowMatch.Statement (.polyPack pa) := by
  unfold RowMatch.Statement; decide
theorem RowMatch.polyUnpack : ∀ pd : PReg, RowMatch.Statement (.polyUnpack pd) := by
  unfold RowMatch.Statement; decide

end Sys2Proof.Laws
end

