-- ==== Sys2Proof/Tests/Slice0.lean ====
section
/-! SUPPORT. Small tests of single definitions and single steps. Expected values are the spec's own: its encoding tables
and examples, and the vectors of 95_test_vectors.md; the rule or section stands at each group. The last part gives, for
each obligation with hypotheses, a state and operands that meet them all. -/

namespace Sys2Proof.Tests

open Sys2Proof.Machine

-- One theorem at a time: the kernel checks below would else start more threads than the memory limit allows.
set_option Elab.async false

/-- A polynomial value from its first coefficients, the rest 0 (30_encoding.md R85, SETP). -/
def polyOf (l : List Int) : Sys2Proof.Poly :=
  ⟨((List.range 256).map fun i => wrap16 (l.getD i 0)).toArray, by simp⟩

/-- The first `n` coefficients of a polynomial value. -/
def firstOf (n : Nat) (c : Sys2Proof.Poly) : List Int := (c.toList.take n).map BitVec.toInt

/-- The reset state with P0, P1, BUF and SIN given. -/
def stateWith (p0 p1 : List Int) (bytes : List Byte) (sin : Word) : State :=
  { State.reset with
    p := setPoly (setPoly State.reset.p 0 (polyOf p0)) 1 (polyOf p1)
    buf := Memory.writeBlock [] 0 bytes
    sin := sin }

/-- An outcome is a next state of which `f` holds. -/
def after (r : Host.Outcome State Fault Refusal) (f : State → Bool) : Bool :=
  match r with
  | .next t => f t
  | .fault _ => false
  | .refused _ => false

/-- The step of the reset state with one event waiting. -/
def stepOn (s : State) (e : HostEvent) : Host.Outcome State Fault Refusal := step { s with events := [e] }

/-- The reset state with `NTT p0` pending. -/
def busyState : State := { State.reset with pending := some (.ntt 0) }

/-- The newest bus response. -/
def lastResponse (t : State) : Option Response := t.responses.head?

/-! ## WellFormed refuses ill-formed terms (20_memory.md R51, R55) -/

theorem test_wf_base_not_multiple : Config.wf { Config.default with mrcBase := 100 } = false := by decide +kernel
theorem test_wf_base_multiple : Config.wf { Config.default with mrcBase := 8192 } = true := by decide +kernel
theorem test_wf_outside_window : HostEvent.wf Config.default (.read 4096 4) = false := by decide +kernel
theorem test_wf_width_three : HostEvent.wf Config.default (.read 0x400 3) = false := by decide +kernel
theorem test_wf_misaligned : HostEvent.wf Config.default (.read 0x401 2) = false := by decide +kernel
theorem test_wf_value_too_wide : HostEvent.wf Config.default (.write 0x400 1 0x100) = false := by decide +kernel
theorem test_wf_write : HostEvent.wf Config.default (.write 0x400 1 0xFF) = true := by decide +kernel

/-! ## Decoding: a word for every command, from its row of R74 (reserved bits, D, PB, PA, PD, OP, most significant
first) -/

theorem test_decode_montReduce : (decode 0b00000000000000000000000000000001).toOption = some .montReduce := by decide +kernel
theorem test_decode_barrettReduce : (decode 0b00000000000000000000000000000010).toOption = some .barrettReduce := by decide +kernel
theorem test_decode_toMont : (decode 0b00000000000000000000000000000011).toOption = some .toMont := by decide +kernel
theorem test_decode_csubq : (decode 0b00000000000000000000000000000100).toOption = some .csubq := by decide +kernel
theorem test_decode_ntt : (decode 0b00000000000000000000001000001000).toOption = some (.ntt 2) := by decide +kernel
theorem test_decode_invntt : (decode 0b00000000000000000000000100001001).toOption = some (.invntt 1) := by decide +kernel
theorem test_decode_polyAdd : (decode 0b00000000000000000010010000001010).toOption = some (.polyAdd 0 1 2) := by decide +kernel
theorem test_decode_polySub : (decode 0b00000000000000000011100100001011).toOption = some (.polySub 1 2 3) := by decide +kernel
theorem test_decode_polyBasemul : (decode 0b00000000000000000001001000001100).toOption = some (.polyBasemul 2 0 1) := by decide +kernel
theorem test_decode_polyNormalize : (decode 0b00000000000000000000001100001101).toOption = some (.polyNormalize 3) := by decide +kernel
theorem test_decode_polyTomont : (decode 0b00000000000000000000000100001110).toOption = some (.polyTomont 1) := by decide +kernel
theorem test_decode_polyCompressQ4 : (decode 0b00000000000001000000000000010000).toOption = some (.polyCompressQ4 0) := by decide +kernel
theorem test_decode_polyCompressQ5 : (decode 0b00000000000001010000010000010000).toOption = some (.polyCompressQ5 1) := by decide +kernel
theorem test_decode_polyCompressQ10 : (decode 0b00000000000010100000100000010000).toOption = some (.polyCompressQ10 2) := by decide +kernel
theorem test_decode_polyCompressQ11 : (decode 0b00000000000010110000110000010000).toOption = some (.polyCompressQ11 3) := by decide +kernel
theorem test_decode_polyDecompressQ4 : (decode 0b00000000000001000000001100010001).toOption = some (.polyDecompressQ4 3) := by decide +kernel
theorem test_decode_polyDecompressQ5 : (decode 0b00000000000001010000001000010001).toOption = some (.polyDecompressQ5 2) := by decide +kernel
theorem test_decode_polyDecompressQ10 : (decode 0b00000000000010100000000100010001).toOption = some (.polyDecompressQ10 1) := by decide +kernel
theorem test_decode_polyDecompressQ11 : (decode 0b00000000000010110000000000010001).toOption = some (.polyDecompressQ11 0) := by decide +kernel
theorem test_decode_polyPack : (decode 0b00000000000000000000010000010010).toOption = some (.polyPack 1) := by decide +kernel
theorem test_decode_polyUnpack : (decode 0b00000000000000000000001000010011).toOption = some (.polyUnpack 2) := by decide +kernel

/-! ## Rejections and their priority (60_exceptions.md R237, R238) -/

/-- The code a word is rejected with. -/
def rejection (w : Word) : Option ErrCode :=
  match decode w with
  | .error c => some c
  | .ok _ => none

theorem test_reject_op_first : rejection 0xFFFFFF3F = some .illegalOp := by decide +kernel
theorem test_reject_reserved_before_width : rejection 0x00030110 = some .reservedField := by decide +kernel
theorem test_reject_width : rejection 0x00010011 = some .unsupportedD := by decide +kernel
theorem test_reject_unused_pd : rejection 0x000B0110 = some .reservedField := by decide +kernel
theorem test_table_word : decodeTableWord 32 0x00000412 = some (.polyPack 1) := by decide +kernel

/-! ## The ROMs (41_ntt.md R131, R145) -/

theorem test_zetas : zetas = (List.range 128).map (fun i => (17 ^ brv7 i * 65536 : Int) % 3329) := by decide +kernel
theorem test_schedule_length : (scheduleRom defaultSchedule).length = 903 := by decide +kernel
theorem test_schedule_start : (scheduleRom defaultSchedule).take 6 = [0, 1, 4, 5, 8, 9] := by decide +kernel

/-! ## Field arithmetic (95_test_vectors.md 2.1) -/

theorem test_montgomery : [0, 1, -1, 2285, 3329, 32768, -32768, 109084671, 218169344, 1073676289, -2147483648,
    2038398976].map (fun x => (montgomeryReduce x).toInt)
    = [0, 169, -169, 1, 0, 1665, 1664, 3160, 3329, 16552, -32768, -32768] := by decide +kernel
theorem test_barrett : [1, -1, 3329, 6658, -3329, 32767, -32768, -29961, 26624].map
    (fun x => (barrettReduce (wrap16 x)).toInt) = [1, 3328, 0, 0, 3329, 2806, 522, 3329, 3321] := by decide +kernel
theorem test_csubq : [0, 3328, 3329, 6657, 6658, -1, -3329, 32767, -32768].map
    (fun x => (csubqReduce (wrap16 x)).toInt) = [0, 3328, 0, 3328, 3329, -1, -3329, 29438, 29439] := by decide +kernel
theorem test_to_montgomery : [1, -1, 2, 169, 3328, 32767, -32768].map
    (fun x => (toMontgomery (wrap16 x)).toInt) = [-1044, 1044, 1241, 1, 1044, 56, 988] := by decide +kernel

/-! ## The transforms (95_test_vectors.md 2.2) -/

theorem test_ntt_ramp : (firstOf 256 (ntt (polyOf ((List.range 256).map Int.ofNat)))).take 8
    = [5758, -484, 3754, -2534, 5194, -1973, 7282, 31] := by decide +kernel
theorem test_ntt_x5 : firstOf 8 (ntt (polyOf [0, 0, 0, 0, 0, 3])) = [0, 867, 0, 867, 0, -867, 0, -867] := by
  decide +kernel
theorem test_invntt_ramp : firstOf 12 (invntt defaultSchedule (polyOf ((List.range 256).map Int.ofNat)))
    = [127, 128, -1196, -1196, -1635, -1635, 410, 410, -681, -681, -1348, -1348] := by decide +kernel
theorem test_invntt_one : firstOf 8 (invntt defaultSchedule (polyOf [1])) = [-26, 0, -589, 0, 357, 0, 21, 0] := by
  decide +kernel

/-! ## Polynomial algebra (95_test_vectors.md 2.3) -/

/-- A basemul pair as integers. -/
def pairOf (a0 a1 b0 b1 z : Int) : Int × Int :=
  let r := basemulPair (wrap16 a0) (wrap16 a1) (wrap16 b0) (wrap16 b1) z
  (r.1.toInt, r.2.toInt)

theorem test_basemul_pair : pairOf 5 7 11 13 (zeta 64) = (-2240, 695) := by decide +kernel
theorem test_basemul_pair_negated : pairOf 5 7 11 13 (-zeta 127) = (-179, 695) := by decide +kernel
theorem test_basemul_out_of_contract : pairOf 32767 32767 32767 32767 (zeta 64) = (18300, -32432) := by decide +kernel

/-! ## The codec (95_test_vectors.md 2.4) -/

theorem test_compress_coeff : [1664, 3224, 3225, 3328, -1, 32767, -32768].map
    (fun x => [4, 5, 10, 11].map fun d => compressCoeff d (wrap16 x))
    = [[8, 16, 512, 1024], [15, 31, 992, 1983], [0, 31, 992, 1984], [0, 0, 0, 2047], [0, 0, 0, 2047],
       [13, 27, 863, 1726], [3, 5, 161, 321]] := by decide +kernel
theorem test_decompress_coeff : [(4, 8), (4, 15), (5, 31), (10, 511), (11, 1023), (11, 2047)].map
    (fun e => (decompressCoeff e.1 e.2).toInt) = [1665, 3121, 3225, 1661, 1663, 3327] := by decide +kernel

/-! ## One step of each command on a small state (40 to 43; 95_test_vectors.md 2.1 to 2.4) -/

theorem test_mont_reduce : after (exec .montReduce (stateWith [] [] [] 0xFFFFFBEC)) (fun t => t.sout == 1) = true := by
  decide +kernel
theorem test_barrett_reduce_low_half :
    after (exec .barrettReduce (stateWith [] [] [] 0x00010005)) (fun t => t.sout == 5) = true := by decide +kernel
theorem test_to_mont : after (exec .toMont (stateWith [] [] [] 0x00007FFF)) (fun t => t.sout == 56) = true := by
  decide +kernel
theorem test_csubq_negative : after (exec .csubq (stateWith [] [] [] 0xFFFFFFFF)) (fun t => t.sout == 0xFFFF) = true := by
  decide +kernel
theorem test_exec_ntt : after (exec (.ntt 0) (stateWith [1] [] [] 0))
    (fun t => firstOf 5 (polyReg t 0) == [1, 0, 1, 0, 1]) = true := by decide +kernel
theorem test_exec_invntt : after (exec (.invntt 0) (stateWith (List.replicate 256 1) [] [] 0))
    (fun t => firstOf 4 (polyReg t 0) == [1, 1, 0, 0]) = true := by decide +kernel
theorem test_poly_add_wraps : after (exec (.polyAdd 0 0 1) (stateWith [32767, -32768, 3328, 1] [1, -1, 1, -1] [] 0))
    (fun t => firstOf 4 (polyReg t 0) == [-32768, 32767, 3329, 0]) = true := by decide +kernel
theorem test_poly_sub_order : after (exec (.polySub 2 0 1) (stateWith [32767, -32768, 3328, 1] [-1, 1, 3329, 1] [] 0))
    (fun t => firstOf 4 (polyReg t 2) == [-32768, 32767, -1, 0]) = true := by decide +kernel
theorem test_poly_basemul : after (exec (.polyBasemul 3 0 1) (stateWith [5, 7, 5, 7] [11, 13, 11, 13] [] 0))
    (fun t => firstOf 5 (polyReg t 3) == [-2240, 695, 856, 695, 0]) = true := by decide +kernel
theorem test_poly_normalize :
    after (exec (.polyNormalize 0) (stateWith [-3329, 6658, -32768, 32767, -1, 3329] [] [] 0))
    (fun t => firstOf 6 (polyReg t 0) == [0, 0, 522, 2806, 3328, 0]) = true := by decide +kernel
theorem test_poly_tomont : after (exec (.polyTomont 1) (stateWith [] [1, 2, 3] [] 0))
    (fun t => firstOf 4 (polyReg t 1) == [-1044, 1241, 197, 0]) = true := by decide +kernel
theorem test_compress_q4_keeps_rest :
    after (exec (.polyCompressQ4 0) (stateWith [1000, 2000, 3000, 3328] [] (List.replicate 384 0x77) 0))
    (fun t => bufPrefix t 3 == [0xA5, 0x0E, 0x00] && bufByte t 127 == 0 && bufByte t 128 == 0x77) = true := by
  decide +kernel
theorem test_compress_q5 : after (exec (.polyCompressQ5 0) (stateWith [1664, 3224] [] [] 0))
    (fun t => bufPrefix t 3 == [0xF0, 0x03, 0x00]) = true := by decide +kernel
theorem test_compress_q10 : after (exec (.polyCompressQ10 0) (stateWith [1664, 3225] [] [] 0))
    (fun t => bufPrefix t 3 == [0x00, 0x82, 0x0F]) = true := by decide +kernel
theorem test_compress_q11 : after (exec (.polyCompressQ11 0) (stateWith [1000, 2000, 3000, 3328, 0, 1, 2, 3] [] [] 0))
    (fun t => bufPrefix t 11 == [0x67, 0x72, 0xA6, 0xCD, 0xFF, 0x0F, 0x80, 0x00, 0x04, 0x40, 0x00]) = true := by
  decide +kernel
theorem test_decompress_q4 : after (exec (.polyDecompressQ4 0) (stateWith [] [] [0xA5, 0x0E] 0))
    (fun t => firstOf 4 (polyReg t 0) == [1040, 2081, 2913, 0]) = true := by decide +kernel
theorem test_decompress_q5 : after (exec (.polyDecompressQ5 0) (stateWith [] [] [0xF0, 0x03] 0))
    (fun t => firstOf 3 (polyReg t 0) == [1665, 3225, 0]) = true := by decide +kernel
theorem test_decompress_q10 : after (exec (.polyDecompressQ10 2) (stateWith [] [] [0xFF, 0x01, 0x08] 0))
    (fun t => firstOf 3 (polyReg t 2) == [1661, 1665, 0]) = true := by decide +kernel
theorem test_decompress_q11 : after (exec (.polyDecompressQ11 1)
      (stateWith [] [] [0x67, 0x72, 0xA6, 0xCD, 0xFF, 0x0F, 0x80, 0x00, 0x04, 0x40, 0x00] 0))
    (fun t => firstOf 9 (polyReg t 1) == [1000, 1999, 3001, 3327, 0, 2, 2, 3, 0]) = true := by decide +kernel
theorem test_pack : after (exec (.polyPack 0) (stateWith [1, 2, 3328, 4095] [] [] 0))
    (fun t => bufPrefix t 7 == [0x01, 0x20, 0x00, 0x00, 0xFD, 0xFF, 0x00]) = true := by decide +kernel
theorem test_pack_low_bits : after (exec (.polyPack 0) (stateWith [-1, -32768] [] [] 0))
    (fun t => bufPrefix t 3 == [0xFF, 0x0F, 0x00]) = true := by decide +kernel
theorem test_unpack : after (exec (.polyUnpack 3) (stateWith [] [] [0xFF, 0xFF, 0xFF, 0x01, 0x20, 0x00] 0))
    (fun t => firstOf 5 (polyReg t 3) == [4095, 4095, 1, 2, 0]) = true := by decide +kernel

/-! ## Issue, the window, the interrupt and the resets (95_test_vectors.md 2.5 to 2.7, program 4) -/

theorem test_issue_accepted : after (stepOn State.reset (wr32 0 0x00C 0x00000208)) (fun t => statusWord t == 0x001)
    = true := by decide +kernel
theorem test_issue_unsupported : after (stepOn State.reset (wr32 0 0x00C 0x00030010))
    (fun t => statusWord t == 0x304 && t.cmd == 0x00030010) = true := by decide +kernel
theorem test_issue_while_busy : after (stepOn busyState (wr32 0 0x00C 0x0000010A))
    (fun t => statusWord t == 0x405 && decide (t.pending = some (.ntt 0))) = true := by decide +kernel
theorem test_core_turn_done : after (stepOn { busyState with ie := true } .coreTurn)
    (fun t => statusWord t == 0x002 && irq t) = true := by decide +kernel
theorem test_clear_both : after (stepOn { State.reset with done := true, err := true, errcode := .cmdWhileBusy }
    (wr32 0 0x008 0x6)) (fun t => statusWord t == 0) = true := by decide +kernel
theorem test_buf_little_endian : after (stepOn State.reset (wr32 0 0x400 0xDEADBEEF))
    (fun t => bufPrefix t 5 == [0xEF, 0xBE, 0xAD, 0xDE, 0x00]) = true := by decide +kernel
theorem test_read_last_bytes : after (stepOn (stateWith [] [] (List.replicate 384 0x77) 0) (rd16 0 0x57E))
    (fun t => lastResponse t == some (.data 0x7777)) = true := by decide +kernel
theorem test_poly_word_write : after (stepOn State.reset (wr32 0 0x800 0x8000FFFF))
    (fun t => firstOf 3 (polyReg t 0) == [-1, -32768, 0]) = true := by decide +kernel
theorem test_poly_top_read : after (stepOn (stateWith [] [] [] 0) (rd32 0 0xFFC))
    (fun t => lastResponse t == some (.data 0)) = true := by decide +kernel
theorem test_id_read : after (stepOn State.reset (rd32 0 0x000)) (fun t => lastResponse t == some (.data 0x4D524331))
    = true := by decide +kernel
theorem test_sout_read_sign : after (stepOn { State.reset with sout := 0xFBEC } (rd32 0 0x014))
    (fun t => lastResponse t == some (.data 0xFFFFFBEC)) = true := by decide +kernel
theorem test_bus_width : after (stepOn State.reset (rd16 0 0x008)) (fun t => lastResponse t == some (.busError .width))
    = true := by decide +kernel
theorem test_bus_misaligned_first : after (stepOn State.reset (rd16 0 0x005))
    (fun t => lastResponse t == some (.busError .misaligned)) = true := by decide +kernel
theorem test_bus_byte_of_poly : after (stepOn State.reset (rd8 0 0x800))
    (fun t => lastResponse t == some (.busError .width)) = true := by decide +kernel
theorem test_soft_reset : after (stepOn { busyState with ie := true, sout := 5 } (wr32 0 0x004 0x3))
    (fun t => !t.ie && t.sout == 0 && statusWord t == 0) = true := by decide +kernel
theorem test_reset_input : after (stepOn { busyState with ie := true } (.reset true))
    (fun t => t.resetPin && !t.busy && !t.ie) = true := by decide +kernel
theorem test_fetch_word : after (step (State.reset.withFetchWord 32 0x00000001))
    (fun t => t.done && decide (t.pending = none)) = true := by decide +kernel

/-! ## The host pseudo-operations (30_encoding.md R85; 95_test_vectors.md 2.1 for the value) -/

theorem test_setp_masks : (setPolyEvents 0 1 [-1, 3]).take 3 = [wr16 0 0xA00 0xFFFF, wr16 0 0xA02 3, wr16 0 0xA04 0] := by
  decide +kernel
theorem test_wait_idle_reads_once :
    after (waitLoop 0 7 State.reset) (fun t => t.responses == [.data 0]) = true := by decide +kernel
theorem test_exec_waits_for_idle : after (execCommand 0 2 .toMont (stateWith [] [] [] 1))
    (fun t => t.sout.toInt == -1044 && t.responses == [.data 2, .data 1, .data 1, .done]) = true := by decide +kernel
theorem test_status_write_ignores_other_bits :
    after (stepOn { State.reset with done := true, err := true, errcode := .illegalOp } (wr32 0 0x008 0xFFFFFFF9))
    (fun t => statusWord t == 0x106) = true := by decide +kernel

/-- A fault with the hazard. -/
def isHazard (r : Host.Outcome State Fault Refusal) : Bool :=
  match r with
  | .fault .hazardBusyAccess => true
  | .next _ => false
  | .refused _ => false

theorem test_hazard_poly : isHazard (stepOn busyState (rd16 0 0x800)) = true := by decide +kernel
theorem test_hazard_buf_top : isHazard (stepOn busyState (wr8 0 0x57F 1)) = true := by decide +kernel
theorem test_hazard_sin : isHazard (stepOn busyState (rd32 0 0x010)) = true := by decide +kernel
theorem test_no_hazard_status : isHazard (stepOn busyState (rd32 0 0x008)) = false := by decide +kernel
theorem test_no_hazard_reserved : isHazard (stepOn busyState (rd32 0 0x580)) = false := by decide +kernel
theorem test_bus_error_before_hazard : after (stepOn busyState (rd16 0 0x801))
    (fun t => lastResponse t == some (.busError .misaligned)) = true := by decide +kernel

/-! ## Witnesses: the hypotheses of each obligation are met, clause by clause

`witness_<Obligation>` has no obligation's conclusion in it: only that its premises hold together. -/

/-- A true `after` gives the next state itself. -/
theorem exists_next {r : Host.Outcome State Fault Refusal} {f : State → Bool} (h : after r f = true) :
    ∃ t, r = .next t ∧ f t = true := by
  cases r with
  | next t => exact ⟨t, rfl, h⟩
  | fault _ => cases h
  | refused _ => cases h

/-- Any state with its first event given. -/
def withEvent (s : State) (e : HostEvent) : State := { s with events := [e] }

/-- A state in draw mode, with P0, P1 and SIN given. -/
def drawState (p0 p1 : List Int) (sin : Word) : State :=
  { stateWith p0 p1 [] sin with cfg := { Config.default with outOfContract := .draw } }

/-- The state with ERR and a code, and a pending command. -/
def errState : State := { busyState with err := true, errcode := .cmdWhileBusy }

theorem witness_AcceptedWordsNumber252 :
    (decode 0x00000001 = .ok .montReduce ∧ decode 0x00000002 = .ok .barrettReduce) := ⟨by rfl, by rfl⟩

theorem witness_DecoderOutcomes :
    fieldBits 0x00000005 0 6 = 0x05
      ∧ (fieldBits 0x00000041 0 6 = 0x01 ∧ fieldBits 0x00000041 6 2 ≠ 0)
      ∧ (fieldBits 0x00000508 0 6 = 0x08 ∧ fieldBits 0x00000508 10 2 ≠ 0)
      ∧ (fieldBits 0x000C0010 0 6 = 0x10 ∧ fieldBits 0x000C0010 6 2 = 0 ∧ fieldBits 0x000C0010 14 2 = 0
        ∧ fieldBits 0x000C0010 20 12 = 0 ∧ fieldBits 0x000C0010 8 2 = 0 ∧ fieldBits 0x000C0010 12 2 = 0
        ∧ fieldBits 0x000C0010 16 4 ∉ [4, 5, 10, 11])
      ∧ (fieldBits 0x000B0010 0 6 = 0x10 ∧ fieldBits 0x000B0010 16 4 ∈ [4, 5, 10, 11]) := by decide +kernel

theorem witness_SampleWordOutcomes : busyState.busy = true := by decide +kernel

theorem witness_IssueProcedure :
    let e : HostEvent := .write (0 + 0x00C) 4 0x00030010
    let f : HostEvent := .write (0 + 0x00C) 4 0x00000208
    ((withEvent busyState e).resetPin = false ∧ (withEvent busyState e).events = [e]
        ∧ (withEvent busyState e).busy = true)
      ∧ ((withEvent State.reset e).busy = false ∧ rejection 0x00030010 = some .unsupportedD)
      ∧ ((withEvent State.reset f).busy = false ∧ (decode 0x00000208).toOption = some (.ntt 2)) := by decide +kernel

theorem witness_StatusWriteAcknowledges :
    (withEvent errState (.write 8 4 0x4)).resetPin = false
      ∧ (withEvent errState (.write 8 4 0x4)).events = .write (errState.cfg.mrcBase + 0x008) 4 0x4 :: []
      ∧ (withEvent errState (.write 8 4 0x2)).events = .write (errState.cfg.mrcBase + 0x008) 4 0x2 :: []
      ∧ (withEvent errState (.write 8 4 0x6)).events = .write (errState.cfg.mrcBase + 0x008) 4 0x6 :: []
      ∧ (State.reset.err = false ∧ State.reset.errcode = .none) := by
  decide +kernel

theorem witness_ErrIsSticky :
    ∀ e ∈ ([.write 0x008 4 0x4, .write 0x004 4 0x2, .reset true] : List HostEvent),
      ∃ t, stepOn errState e = .next t ∧ (errState.err && !t.err) = true := by
  intro e he
  have h : ∀ e ∈ ([.write 0x008 4 0x4, .write 0x004 4 0x2, .reset true] : List HostEvent),
      after (stepOn errState e) (fun t => errState.err && !t.err) = true := by decide +kernel
  exact exists_next (h e he)

theorem witness_InterruptLine :
    (∃ t, exec .toMont busyState = .next t ∧ true = true) ∧ busyState.busy = true
      ∧ rejection 0x00000000 = some .illegalOp :=
  ⟨exists_next (f := fun _ => true) (by decide +kernel), by decide +kernel, by decide +kernel⟩

theorem witness_StepPerformsPending :
    (busyState.resetPin = false ∧ busyState.events = [] ∧ busyState.pending = some (.ntt 0))
      ∧ (withEvent busyState .coreTurn).events = [.coreTurn] ∧ State.reset.pending = none := by decide +kernel

theorem witness_WrittenCommandRuns :
    let s : State := { State.reset with events := [.write (0 + 0x00C) 4 0x00000208, .coreTurn] }
    (decode 0x00000208).toOption = some (.ntt 2) ∧ s.resetPin = false ∧ s.busy = false
      ∧ s.events = [.write (s.cfg.mrcBase + 0x00C) 4 0x00000208, .coreTurn] := by decide +kernel

/-- For EveryCommandCompletes, ScalarCommandResults, PolyBasemulResult and every other statement in exact mode. -/
theorem witness_exact_mode : ExactMode State.reset := rfl

/-- For the three frames: one command of each kind that answers a next state. -/
theorem witness_frames :
    (Instr.csubq ∈ [Instr.montReduce, .barrettReduce, .toMont, .csubq] ∧ ∃ t, exec .csubq State.reset = .next t ∧ true = true)
      ∧ (writesPoly (.polyAdd 3 3 0) = some 3 ∧ ∃ t, exec (.polyAdd 3 3 0) State.reset = .next t ∧ true = true)
      ∧ (writesBuf (.polyPack 3) = some 384 ∧ ∃ t, exec (.polyPack 3) State.reset = .next t ∧ true = true) :=
  ⟨⟨by decide, exists_next (f := fun _ => true) (by decide +kernel)⟩,
    ⟨rfl, exists_next (f := fun _ => true) (by decide +kernel)⟩,
    ⟨rfl, exists_next (f := fun _ => true) (by decide +kernel)⟩⟩

theorem witness_MontgomeryDatapath : ∀ x ∈ ([-2147483648, 2147483647] : List Int), -2 ^ 31 ≤ x ∧ x < 2 ^ 31 := by
  decide +kernel

theorem witness_MontgomeryContractHolds :
    (∀ x ∈ ([109084671, -109084671] : List Int), |x| < Q * 2 ^ 15)
      ∧ ∀ x ∈ ([2038398975, -2038398975] : List Int), |x| ≤ 2038398975 := by decide +kernel

theorem witness_CsubqDomain :
    (∀ a ∈ ([0, 6657] : List Int), 0 ≤ (wrap16 a).toInt ∧ (wrap16 a).toInt < 2 * Q)
      ∧ ∀ a ∈ ([-1, -3329] : List Int), -Q ≤ (wrap16 a).toInt ∧ (wrap16 a).toInt < 0 := by decide +kernel

theorem witness_ScalarDraws :
    (drawState [] [] 0).cfg.outOfContract = .draw
      ∧ |(drawState [] [] 109084671).sin.toInt| < Q * 2 ^ 15
      ∧ ¬|(drawState [] [] 109084672).sin.toInt| < Q * 2 ^ 15
      ∧ (0 ≤ ((6657 : Word).setWidth 16).toInt ∧ ((6657 : Word).setWidth 16).toInt < 2 * Q)
      ∧ ¬(0 ≤ ((6658 : Word).setWidth 16).toInt ∧ ((6658 : Word).setWidth 16).toInt < 2 * Q)
      ∧ ¬(0 ≤ ((0xFFFF : Word).setWidth 16).toInt ∧ ((0xFFFF : Word).setWidth 16).toInt < 2 * Q) := by decide +kernel

/-- For NttRunsTheLoops (also in draw mode), NttGivesQuotientResidues and NttRoundTrip. -/
theorem witness_ntt_contract : CoeffsWithin 9471 (polyReg (drawState [9471, -9471] [] 0) 0) := by
  unfold CoeffsWithin
  decide +kernel

theorem witness_InvnttRunsTheLoops : CoeffsWithin 16383 (polyReg (drawState [16383, -16383] [] 0) 0) := by
  unfold CoeffsWithin
  decide +kernel

theorem witness_NttGrowthBound :
    ∀ i, i < 256 → 0 ≤ (coeff (polyOf [3328, 0]) i).toInt ∧ (coeff (polyOf [3328, 0]) i).toInt < Q := by decide +kernel

theorem witness_NttRoundTrip : CoeffsWithin 9471 (polyOf [1]) ∧ CoeffsWithin 16383 (ntt (polyOf [1])) := by
  unfold CoeffsWithin
  decide +kernel

theorem witness_PolyAddSubResults :
    let s := drawState [32766, -32766] [1, -1] 0
    (|(coeff (polyReg s 0) 0).toInt + (coeff (polyReg s 1) 0).toInt| ≤ 32767)
      ∧ |(coeff (polyReg s 0) 0).toInt - (coeff (polyReg s 1) 0).toInt| ≤ 32767 := by decide +kernel

theorem witness_PolyAddDraws :
    let s := drawState [32767, -32768] [1, 1] 0
    s.cfg.outOfContract = .draw ∧ ¬|(coeff (polyReg s 0) 0).toInt + (coeff (polyReg s 1) 0).toInt| ≤ 32767
      ∧ ¬|(coeff (polyReg s 0) 1).toInt - (coeff (polyReg s 1) 1).toInt| ≤ 32767 := by
  decide +kernel

/-- For PolyBasemulResult and OutOfContractDraws: a pair at the end of the contract, and one outside it. -/
theorem witness_basemul_contract :
    let s := drawState [10444, -10444, 10445] [10444, 10444, 10445] 0
    ProductsInContract (polyReg s 0) (polyReg s 1) (4 * 0)
      ∧ ¬ProductsInContract (polyReg s 0) (polyReg s 1) (2 * 1) := by
  unfold ProductsInContract
  decide +kernel

/-- For OutOfContractDraws: the transforms and the codec just outside their ranges. -/
theorem witness_OutOfContractDraws :
    ¬CoeffsWithin 9471 (polyReg (drawState [9472] [] 0) 0) ∧ ¬CoeffsWithin 16383 (polyReg (drawState [-16384] [] 0) 0)
      ∧ ¬(0 ≤ (coeff (polyReg (drawState [4096] [] 0) 0) 0).toInt
        ∧ (coeff (polyReg (drawState [4096] [] 0) 0) 0).toInt < 4096)
      ∧ ¬(0 ≤ (coeff (polyReg (drawState [3329] [] 0) 0) 0).toInt
        ∧ (coeff (polyReg (drawState [3329] [] 0) 0) 0).toInt < Q) := by
  unfold CoeffsWithin
  decide +kernel

theorem witness_BasemulPairMeaning :
    (∀ x ∈ ([31058, -31058] : List Int), |(wrap16 x).toInt| ≤ 31058)
      ∧ |(wrap16 10444).toInt * (wrap16 10444).toInt| < Q * 2 ^ 15 := by decide +kernel

/-- The state for RingMultiplication: canonical operands in P0 and P1, exact mode, the default schedule. -/
def ringState : State := stateWith [3328, 0, 1] [0, 3328] [] 0

theorem witness_RingMultiplication_operands :
    (0 : PReg) ≠ 1
      ∧ (∀ i, i < 256 → 0 ≤ (coeff (polyReg ringState 0) i).toInt ∧ (coeff (polyReg ringState 0) i).toInt < Q)
      ∧ ∀ i, i < 256 → 0 ≤ (coeff (polyReg ringState 1) i).toInt ∧ (coeff (polyReg ringState 1) i).toInt < Q := by
  decide +kernel

theorem witness_RingMultiplication_parameters : ringState.cfg = Config.default := rfl

/-- For PackWritesTheStream, CompressWritesTheStream and PackUnpackRoundTrip: the ends of the two ranges. -/
theorem witness_codec_ranges :
    (∀ i, i < 256 → 0 ≤ (coeff (polyReg (drawState [0, 4095] [] 0) 0) i).toInt
        ∧ (coeff (polyReg (drawState [0, 4095] [] 0) 0) i).toInt < 4096)
      ∧ (∀ i, i < 256 → 0 ≤ (coeff (polyReg (drawState [0, 3328] [] 0) 0) i).toInt
        ∧ (coeff (polyReg (drawState [0, 3328] [] 0) 0) i).toInt < Q)
      ∧ Memory.wf (stateWith [] [] [0xFF, 0x00, 0x01] 0).buf = true := by decide +kernel

/-- For CompressWritesTheStream and DecompressReadsTheStream: the forms they range over. -/
theorem witness_codec_forms :
    (compressForms 3).map Prod.snd = [.polyCompressQ4 3, .polyCompressQ5 3, .polyCompressQ10 3, .polyCompressQ11 3]
      ∧ (decompressForms 0).map Prod.snd
        = [.polyDecompressQ4 0, .polyDecompressQ5 0, .polyDecompressQ10 0, .polyDecompressQ11 0] := by decide +kernel

/-- For CompressRounds and CompressionError. -/
theorem witness_CompressRounds : 0 ≤ (wrap16 3328).toInt ∧ (wrap16 3328).toInt < Q := by decide +kernel

/-- For StepKeepsInv, ParametersNeverChange and PendingCommandUndisturbed: a state that meets the invariant with BUF
written, an error reported and a command pending, and that takes a step. -/
theorem witness_StepKeepsInv :
    let s : State := { errState with buf := Memory.writeBlock [] 0 [1, 0, 2], events := [.read 0x008 4] }
    s.Inv ∧ s.busy = true ∧ ∃ t, step s = .next t ∧ true = true := by
  refine ⟨⟨by decide +kernel, by decide +kernel, by decide +kernel⟩, by decide +kernel, ?_⟩
  exact exists_next (f := fun _ => true) (by decide +kernel)

theorem witness_StopsOnlyAtHostAccesses :
    isHazard (step (withEvent busyState (.read 0x800 2))) = true
      ∧ State.reset.cfg.inWindow 4096 = false := by decide +kernel

/-- The read outside the window is refused, by name. -/
theorem witness_outside_window : step (withEvent State.reset (.read 4096 4)) = .refused .outsideWindow := by rfl

theorem witness_LatencyIndependence :
    let s : State := { busyState with events := [.read 0x008 4, .read 0x008 4, .coreTurn] }
    s.resetPin = false ∧ s.pending = some (.ntt 0)
      ∧ s.events = List.replicate 2 (pollStatus s.cfg) ++ .coreTurn :: [] := by decide +kernel

theorem witness_ResetInputResets :
    (withEvent busyState (.reset true)).events = [.reset true]
      ∧ ({ busyState with resetPin := true } : State).resetPin = true
      ∧ ({ busyState with resetPin := true } : State).events = [] := by decide +kernel

theorem witness_reset_deasserted : (withEvent busyState (.reset false)).events = [.reset false] := by decide +kernel

theorem witness_poly_byte_access : IsAccess State.reset.cfg 0xFFF 1 (.write (0 + 0xFFF) 1 7) :=
  .inr ⟨7, by decide +kernel⟩

theorem witness_reset_access :
    IsAccess busyState.cfg 0x008 4 (.read 8 4) ∧ IsAccess busyState.cfg 0x00C 4 (.write 12 4 1) :=
  ⟨.inl rfl, .inr ⟨1, rfl⟩⟩

theorem witness_SoftReset :
    busyState.resetPin = false ∧ (0x3 : Word).getLsbD 1 = true
      ∧ (withEvent busyState (.write 4 4 0x3)).events = .write (busyState.cfg.mrcBase + 0x004) 4 0x3 :: [] := by
  decide +kernel

theorem witness_InterruptEnableWrite :
    (0x1 : Word).getLsbD 1 = false ∧ (0xFFFFFFFC : Word).getLsbD 1 = false
      ∧ (withEvent busyState (.write 4 4 0x1)).events = .write (busyState.cfg.mrcBase + 0x004) 4 0x1 :: [] := by
  decide +kernel

/-- A misaligned access at the last offset, and an aligned access of a width the map does not allow, in each region
that has one. -/
theorem witness_BusErrorsChangeNothing :
    (0xFFF % 2 ≠ 0 ∧ 0xFFF < 4096) ∧ ∀ on ∈ ([(0x014, 1), (0x008, 2), (0x400, 8), (0x800, 1)] : List (Nat × Nat)),
      on.1 % on.2 = 0 ∧ ¬MapAllows on.1 on.2 := by
  unfold MapAllows
  decide +kernel

/-- Legal accesses at the ends of the owned ranges and just outside them. -/
theorem witness_BusyAccessHazard :
    (∀ on ∈ ([(0x010, 4), (0x014, 4), (0x400, 1), (0x57F, 1), (0x800, 2), (0xFFC, 4)] : List (Nat × Nat)),
      LegalAccess on.1 on.2 ∧ OwnedWhileBusy on.1)
      ∧ ∀ on ∈ ([(0x00C, 4), (0x018, 1), (0x3FF, 1), (0x580, 4), (0x7FF, 1)] : List (Nat × Nat)),
        LegalAccess on.1 on.2 ∧ ¬OwnedWhileBusy on.1 := by
  unfold LegalAccess OwnedWhileBusy MapAllows
  decide +kernel

theorem witness_ReadsHaveNoSideEffect :
    ∃ t, step (withEvent busyState (.read 0x008 4)) = .next t ∧ true = true :=
  exists_next (f := fun _ => true) (by decide +kernel)

theorem witness_BufWindowAccess :
    ∀ on ∈ ([(0x400, 4), (0x57F, 1), (0x57C, 4)] : List (Nat × Nat)),
      LegalAccess on.1 on.2 ∧ 0x400 ≤ on.1 ∧ on.1 < 0x580
        ∧ (withEvent State.reset (.read on.1 on.2)).events = .read (State.reset.cfg.mrcBase + on.1) on.2 :: [] := by
  unfold LegalAccess MapAllows
  decide +kernel

theorem witness_PolyWindowAccess :
    State.reset.busy = false
      ∧ (withEvent State.reset (.write 0x9FE 2 7)).events
        = .write (State.reset.cfg.mrcBase + (0x800 + 0x200 * (0 : PReg).val + 2 * 255)) 2 7 :: []
      ∧ (withEvent State.reset (.read 0xFFC 4)).events
        = .read (State.reset.cfg.mrcBase + (0x800 + 0x200 * (3 : PReg).val + 2 * 254)) 4 :: [] := by decide +kernel

theorem witness_ReservedOffsets :
    ∀ on ∈ ([(0x018, 4), (0x3FF, 1), (0x580, 2), (0x7FC, 4)] : List (Nat × Nat)),
      LegalAccess on.1 on.2 ∧ ((0x018 ≤ on.1 ∧ on.1 ≤ 0x3FF) ∨ (0x580 ≤ on.1 ∧ on.1 ≤ 0x7FF)) := by
  unfold LegalAccess MapAllows
  decide +kernel

theorem witness_RegisterAccess :
    ∀ off ∈ ([0x000, 0x008, 0x00C, 0x010, 0x014] : List Nat),
      (withEvent State.reset (.read off 4)).events = .read (State.reset.cfg.mrcBase + off) 4 :: []
        ∧ State.reset.busy = false ∧ State.reset.resetPin = false := by decide +kernel

end Sys2Proof.Tests
end

/-! ## OUT_OF_CONTRACT = draw (00_scope.md R18)

What the shared results are in draw mode, each contract as the rule writes it, and the bit stream that a codec command
leaves in BUF; then the statements of 00_scope.md. -/

namespace Sys2Proof.Machine

/-! ### Results in draw mode -/

/-- A scalar command in contract, in either mode: SOUT is the rule's value. -/
theorem scalarResult_inContract {s : State} {ok : Bool} (h : ok = true) (v : Coeff) :
    scalarResult s ok v = { s with sout := v, pending := none, done := true } := by
  subst h
  simp [scalarResult, complete, observedCoeff_true, drawsAfter_true]

section Drawn

variable {s : State} (hdraw : s.cfg.outOfContract = .draw)

include hdraw

theorem observedCoeff_drawn (lane : Nat) (v : Coeff) :
    observedCoeff s false lane v = Config.freeCoeff s.draws lane := by
  simp [observedCoeff, hdraw]

theorem drawsAfter_drawn : drawsAfter s false = s.draws + 1 := by
  simp [drawsAfter, hdraw]

/-- One lane out of contract is enough for the draw counter to advance. -/
theorem drawsAfter_allLanes_drawn {ok : Fin 256 → Bool} {lane : Fin 256} (hlane : ¬ok lane = true) :
    drawsAfter s (allLanes ok) = s.draws + 1 := by
  have hall : allLanes ok = false := Bool.eq_false_iff.2 fun h => hlane ((allLanes_iff ok).1 h lane)
  rw [hall, drawsAfter_drawn hdraw]

/-- A lane out of contract is a free draw. -/
theorem coeff_observedPoly_drawn {ok : Fin 256 → Bool} (v : Sys2Proof.Poly) {i : Nat} (hi : i < 256)
    (hlane : ¬ok ⟨i, hi⟩ = true) :
    coeff (observedPoly s ok v) i = Config.freeCoeff s.draws i := by
  simp [observedPoly, hdraw, coeff, List.getD_eq_getElem?_getD, hi, hlane]

theorem coeff_polyResult_drawn (pd : PReg) {ok : Fin 256 → Bool} (v : Sys2Proof.Poly) {i : Nat} (hi : i < 256)
    (hlane : ¬ok ⟨i, hi⟩ = true) :
    coeff (polyReg (polyResult s pd ok v) pd) i = Config.freeCoeff s.draws i := by
  rw [polyReg_polyResult, if_pos rfl, coeff_observedPoly_drawn hdraw v hi hlane]

/-- A codec value out of contract is a free draw cut to the width. -/
theorem getD_observedValues_drawn {ok : Fin 256 → Bool} (d : Nat) (v : List Nat) {i : Nat} (hi : i < 256)
    (hlane : ¬ok ⟨i, hi⟩ = true) :
    (observedValues s ok d v).getD i 0 = (Config.freeCoeff s.draws i).toNat % 2 ^ d := by
  simp [observedValues, hdraw, List.getD_eq_getElem?_getD, hi, hlane]

/-- A scalar command out of contract in draw mode: SOUT is a free draw. -/
theorem scalarResult_drawn {ok : Bool} (h : ¬ok = true) (v : Coeff) :
    scalarResult s ok v
      = { s with sout := Config.freeCoeff s.draws 0, draws := s.draws + 1, pending := none, done := true } := by
  obtain rfl : ok = false := by simpa using h
  simp [scalarResult, complete, observedCoeff_drawn hdraw, drawsAfter_drawn hdraw]

end Drawn

/-! ### The contracts, as the rules write them -/

/-- `absLe` as a bound on the absolute value. -/
theorem absLe_iff_abs (b v : Int) : absLe b v = true ↔ |v| ≤ b := by rw [absLe_iff, abs_le]

theorem montgomeryContract_iff (x : Int) : montgomeryContract x = true ↔ |x| < Q * 2 ^ 15 := by
  rw [montgomeryContract, absLe_iff_abs, Int.le_sub_one_iff]

theorem csubqContract_iff (a : Coeff) : csubqContract a = true ↔ 0 ≤ a.toInt ∧ a.toInt < 2 * Q := by
  simp [csubqContract]

theorem sumContract_iff (f : Int → Int → Int) (a b : Sys2Proof.Poly) (i : Fin 256) :
    sumContract f a b i = true ↔ |f (coeff a i).toInt (coeff b i).toInt| ≤ 32767 :=
  absLe_iff_abs _ _

/-- The pair at `2 * m` is the one that both of its lanes belong to. -/
theorem basemulContract_iff (a b : Sys2Proof.Poly) {m : Nat} {i : Fin 256} (h : i.val / 2 = m) :
    basemulContract a b i = true ↔ ProductsInContract a b (2 * m) := by
  subst h
  simp [basemulContract, montgomeryContract_iff, ProductsInContract, and_assoc]

theorem allAbsLe_iff (b : Int) (c : Sys2Proof.Poly) : allAbsLe b c = true ↔ CoeffsWithin b c := by
  simp only [allAbsLe, List.all_eq_true, absLe_iff, CoeffsWithin, coeff]
  constructor
  · intro h i hi
    rw [List.getD_eq_getElem _ _ (by simpa using hi)]
    exact h _ (List.getElem_mem _)
  · intro h x hx
    obtain ⟨i, hi, rfl⟩ := List.mem_iff_getElem.1 hx
    rw [← List.getD_eq_getElem _ 0 hi]
    exact h i (by simpa using hi)

theorem coeffBelow_iff (b : Int) (c : Sys2Proof.Poly) (i : Fin 256) :
    coeffBelow b c i = true ↔ 0 ≤ (coeff c i).toInt ∧ (coeff c i).toInt < b := by
  simp [coeffBelow]

/-! ### The bit stream of a codec command (43_codec.md R190) -/

/-- Bit `i * d + b` of the stream is bit `b` of value `i`. -/
theorem testBit_streamOfValues {d b : Nat} (hb : b < d) (vs : List Nat) (i : Nat) :
    (streamOfValues d vs).testBit (i * d + b) = (vs.getD i 0).testBit b := by
  induction vs generalizing i with
  | nil => simp [streamOfValues]
  | cons v vs ih =>
    have hcons : streamOfValues d (v :: vs) = 2 ^ d * streamOfValues d vs + v % 2 ^ d := by
      simp [streamOfValues, Nat.add_comm]
    rw [hcons, Nat.testBit_two_pow_mul_add _ (Nat.mod_lt _ (Nat.two_pow_pos d))]
    cases i with
    | zero => simp [hb]
    | succ i =>
      have hpos : (i + 1) * d + b = d + (i * d + b) := by ring
      rw [hpos, if_neg (by omega), Nat.add_sub_cancel_left, ih, List.getD_cons_succ]

/-- Bit `b` of digit `j` is bit `w * j + b` of the number. -/
theorem testBit_digits {w b n j : Nat} (hb : b < w) (hj : j < n) (x : Nat) :
    ((digits w n x).getD j 0).testBit b = x.testBit (w * j + b) := by
  induction n generalizing j x with
  | zero => omega
  | succ n ih =>
    cases j with
    | zero => simp [digits, hb]
    | succ j =>
      have hpos : w * (j + 1) + b = w + (w * j + b) := by ring
      rw [digits, List.getD_cons_succ, ih (by omega), Nat.testBit_div_two_pow, hpos, Nat.add_comm]

/-- Stream bit `n` is bit `n mod 8` of byte `n div 8` of the encoded stream. -/
theorem getLsbD_encodeStream (d : Nat) (vs : List Nat) {n : Nat} (hn : n < 256 * d) :
    ((encodeStream d vs).getD (n / 8) 0).getLsbD (n % 8) = (streamOfValues d vs).testBit n := by
  have hbyte : (encodeStream d vs).getD (n / 8) 0
      = BitVec.ofNat 8 ((digits 8 (32 * d) (streamOfValues d vs)).getD (n / 8) 0) := by
    rw [encodeStream, show (0 : Byte) = BitVec.ofNat 8 0 from rfl, List.getD_map]
  have hbit : n % 8 < 8 := Nat.mod_lt _ (by decide)
  rw [hbyte, BitVec.getLsbD_ofNat, decide_eq_true hbit, Bool.true_and, testBit_digits hbit (by omega), Nat.div_add_mod]

/-- What a codec command leaves in BUF, bit by bit: bit `b` of value `i` as it is observed. -/
theorem bufBit_bufResult (s : State) (ok : Fin 256 → Bool) {d : Nat} (v : List Nat) {i b : Nat} (hi : i < 256)
    (hb : b < d) :
    bufBit (bufResult s ok d v (encodeStream d)) (i * d + b) = ((observedValues s ok d v).getD i 0).testBit b := by
  have hn : i * d + b < 256 * d := by
    calc i * d + b < (i + 1) * d := by rw [Nat.add_one_mul]; omega
      _ ≤ 256 * d := Nat.mul_le_mul_right d hi
  rw [bufBit, bufByte_bufResult, if_pos (by omega), getLsbD_encodeStream d _ hn, testBit_streamOfValues hb]

/-- A codec value out of contract, as BUF holds it in draw mode: the low bits of a free draw. -/
theorem bufBit_bufResult_drawn {s : State} (hdraw : s.cfg.outOfContract = .draw) {ok : Fin 256 → Bool} {d : Nat}
    (v : List Nat) {i b : Nat} (hi : i < 256) (hlane : ¬ok ⟨i, hi⟩ = true) (hb : b < d) :
    bufBit (bufResult s ok d v (encodeStream d)) (i * d + b) = (Config.freeCoeff s.draws i).getLsbD b := by
  rw [bufBit_bufResult s ok v hi hb, getD_observedValues_drawn hdraw d v hi hlane]
  simp [hb, BitVec.testBit_toNat]

/-! ### The commands, through the shared results -/

/-- The low 16 bits of a word are its wrap (10_state.md R26). -/
theorem low16_eq_setWidth (w : Word) : low16 w = w.setWidth 16 :=
  BitVec.signExtend_eq_setWidth_of_le w (by decide)

theorem exec_montReduce (s : State) :
    exec .montReduce s
      = .next (scalarResult s (montgomeryContract s.sin.toInt) (montgomeryReduce s.sin.toInt)) := rfl

theorem exec_csubq (s : State) :
    exec .csubq s
      = .next (scalarResult s (csubqContract (s.sin.setWidth 16)) (csubqReduce (s.sin.setWidth 16))) := by
  rw [← low16_eq_setWidth]
  rfl

/-- Each compress command is `compressResult` at its width (43_codec.md R210 to R213). -/
theorem exec_compressForm (s : State) {pa : PReg} {di : Nat × Instr} (h : di ∈ compressForms pa) :
    exec di.2 s = .next (compressResult di.1 pa s) := by
  simp only [compressForms, List.mem_cons, List.not_mem_nil, or_false] at h
  rcases h with rfl | rfl | rfl | rfl <;> rfl

/-- A coefficient whose exact sum or difference `f` is beyond 32767 in magnitude is a free draw. -/
theorem polyResult_sumContract_drawn {s : State} (hdraw : s.cfg.outOfContract = .draw) (pd : PReg)
    (f : Int → Int → Int) {a b : Sys2Proof.Poly} {i : Nat} (hi : i < 256)
    (h : ¬|f (coeff a i).toInt (coeff b i).toInt| ≤ 32767) (v : Sys2Proof.Poly) :
    coeff (polyReg (polyResult s pd (sumContract f a b) v) pd) i = Config.freeCoeff s.draws i
      ∧ (polyResult s pd (sumContract f a b) v).draws = s.draws + 1 := by
  have hlane := mt (sumContract_iff f a b ⟨i, hi⟩).1 h
  exact ⟨coeff_polyResult_drawn hdraw pd v hi hlane, drawsAfter_allLanes_drawn hdraw hlane⟩

/-- A transform's contract is one for all 256 lanes, so out of contract every output is a free draw. -/
theorem polyResult_allAbsLe_drawn {s : State} (hdraw : s.cfg.outOfContract = .draw) (pd : PReg) {b : Int}
    {c : Sys2Proof.Poly} (h : ¬CoeffsWithin b c) (v : Sys2Proof.Poly) :
    (polyResult s pd (fun _ => allAbsLe b c) v).draws = s.draws + 1
      ∧ ∀ i, i < 256 →
        coeff (polyReg (polyResult s pd (fun _ => allAbsLe b c) v) pd) i = Config.freeCoeff s.draws i := by
  have hlane := mt (allAbsLe_iff b c).1 h
  exact ⟨drawsAfter_allLanes_drawn hdraw (lane := 0) hlane, fun i hi => coeff_polyResult_drawn hdraw pd v hi hlane⟩

/-- A codec's contract is `coeffBelow`: the value of a coefficient outside it is a free draw cut to the width. -/
theorem bufResult_coeffBelow_drawn {s : State} (hdraw : s.cfg.outOfContract = .draw) {c : Sys2Proof.Poly} {bound : Int}
    {i : Nat} (hi : i < 256) (h : ¬(0 ≤ (coeff c i).toInt ∧ (coeff c i).toInt < bound)) (d : Nat) (v : List Nat) :
    (bufResult s (coeffBelow bound c) d v (encodeStream d)).draws = s.draws + 1
      ∧ ∀ b, b < d → bufBit (bufResult s (coeffBelow bound c) d v (encodeStream d)) (i * d + b)
          = (Config.freeCoeff s.draws i).getLsbD b := by
  have hlane := mt (coeffBelow_iff bound c ⟨i, hi⟩).1 h
  exact ⟨drawsAfter_allLanes_drawn hdraw hlane, fun b hb => bufBit_bufResult_drawn hdraw v hi hlane hb⟩

/-- Both coefficients of a basemul pair out of contract are free draws. -/
theorem polyBasemul_drawn {s : State} (hdraw : s.cfg.outOfContract = .draw) (pd pa pb : PReg) {m : Nat} (hm : m < 128)
    (h : ¬ProductsInContract (polyReg s pa) (polyReg s pb) (2 * m)) :
    ∃ t, exec (.polyBasemul pd pa pb) s = .next t ∧ t.draws = s.draws + 1
      ∧ coeff (polyReg t pd) (2 * m) = Config.freeCoeff s.draws (2 * m)
      ∧ coeff (polyReg t pd) (2 * m + 1) = Config.freeCoeff s.draws (2 * m + 1) := by
  have hlane (i : Fin 256) (hi : i.val / 2 = m) : ¬basemulContract (polyReg s pa) (polyReg s pb) i = true :=
    mt (basemulContract_iff _ _ hi).1 h
  have h0 := hlane ⟨2 * m, by omega⟩ (Nat.mul_div_cancel_left m (by decide))
  have h1 := hlane ⟨2 * m + 1, by omega⟩ (Nat.mul_add_div (by decide) m 1)
  exact ⟨_, rfl, drawsAfter_allLanes_drawn hdraw h0, coeff_polyResult_drawn hdraw pd _ _ h0,
    coeff_polyResult_drawn hdraw pd _ _ h1⟩

/-! ### The statements of 00_scope.md -/

/-- Settles O22: each contract decides which of the two scalar results the command is. -/
theorem scalarDraws : Obligations.ScalarDraws := by
  intro s hdraw
  rw [exec_montReduce, exec_csubq]
  refine ⟨fun h => ?_, fun h => ?_, fun h => ?_, fun h => ?_⟩
  · rw [scalarResult_inContract ((montgomeryContract_iff _).2 h)]
  · rw [scalarResult_drawn hdraw (mt (montgomeryContract_iff _).1 h)]
  · rw [scalarResult_inContract ((csubqContract_iff _).2 h)]
  · rw [scalarResult_drawn hdraw (mt (csubqContract_iff _).1 h)]

/-- Settles O30: the contract of each coefficient is the bound on its own exact sum or difference. -/
theorem polyAddDraws : Obligations.PolyAddDraws := by
  intro s pd pa pb i hdraw hi
  constructor
  · exact fun h => ⟨_, rfl, polyResult_sumContract_drawn hdraw pd (· + ·) hi h _⟩
  · exact fun h => ⟨_, rfl, polyResult_sumContract_drawn hdraw pd (· - ·) hi h _⟩

/-- Settles O60: one clause for each kind of contract, a pair's, a transform's and a codec value's. -/
theorem outOfContractDraws : Obligations.OutOfContractDraws := by
  intro s hdraw
  refine ⟨fun pd pa pb m hm h => polyBasemul_drawn hdraw pd pa pb hm h, fun pd h => ?_, fun pd h => ?_,
    fun pa i hi h => ?_, fun pa i hi h di hdi => ?_⟩
  · exact ⟨_, rfl, polyResult_allAbsLe_drawn hdraw pd h _⟩
  · exact ⟨_, rfl, polyResult_allAbsLe_drawn hdraw pd h _⟩
  · exact ⟨_, rfl, bufResult_coeffBelow_drawn hdraw hi h 12 _⟩
  · exact ⟨_, exec_compressForm s hdi, bufResult_coeffBelow_drawn hdraw hi h di.1 _⟩

end Sys2Proof.Machine

/-! ## The block's state (10_state.md)

What a step that answers a next state can have done, what a command's step keeps of the host's side, and an access to a
control or status register as one equation; then the statements of 10_state.md. -/

namespace Sys2Proof.Machine

/-! ### The core's turn -/

/-- When the core is next, the step takes the turn from the queue and is the core's turn (10_state.md R43). -/
theorem step_coreIsNext {s : State} {es : List HostEvent} (h : CoreIsNext s es) :
    step s = coreTurn { s with events := es } := by
  obtain ⟨he, rfl⟩ | he := h
  · have hs : s = { s with events := [] } := by rw [← he]
    rw [← hs, step, advance, he]
  · rw [step, advance, he]
    rfl

/-- Settles O10: the step is the core's turn, on a busy or an idle block. -/
theorem stepPerformsPending : Obligations.StepPerformsPending := by
  intro s es hpin hcore
  rw [step_coreIsNext hcore]
  exact ⟨fun i hi => hostStep_coreTurn_busy { s with events := es } hpin hi,
    fun hp => hostStep_coreTurn_idle { s with events := es } hp⟩

/-! ### What a command's step keeps -/

/-- Every command completes and leaves the host's side as it was (10_state.md R24, 30_encoding.md R81). -/
theorem exec_next {i : Instr} {s t : State} (h : exec i s = .next t) :
    t.pending = none ∧ t.done = true ∧ SameHostSide s t := by
  rcases exec_shape i s with ⟨-, -, ok, v, e⟩ | ⟨-, pd, ok, v, -, e⟩ | ⟨-, ok, d, v, -, -, e⟩ <;>
  · cases e.symm.trans h
    exact ⟨rfl, rfl, rfl, rfl, rfl, rfl, rfl, rfl, rfl, rfl, rfl⟩

/-- A command that writes neither a polynomial register nor BUF is a scalar command. -/
theorem exec_scalar {i : Instr} (hp : writesPoly i = none) (hb : writesBuf i = none) (s : State) :
    ∃ ok v, exec i s = .next (scalarResult s ok v) := by
  rcases exec_shape i s with ⟨-, -, e⟩ | ⟨-, pd, ok, v, hpd, -⟩ | ⟨-, ok, d, v, hd, -, -⟩
  · exact e
  · cases hp.symm.trans hpd
  · cases hb.symm.trans hd

/-- A command that writes P[pd] is a polynomial command on that register. -/
theorem exec_poly {i : Instr} {pd : PReg} (hp : writesPoly i = some pd) (s : State) :
    ∃ ok v, exec i s = .next (polyResult s pd ok v) := by
  rcases exec_shape i s with ⟨hn, -, -⟩ | ⟨-, r, ok, v, hr, e⟩ | ⟨hn, -⟩
  · cases hn.symm.trans hp
  · cases hr.symm.trans hp
    exact ⟨ok, v, e⟩
  · cases hn.symm.trans hp

/-! ### Writes to CTRL and CMD -/

/-- SRST set: the soft reset (70_reset_and_hazards.md R262). -/
theorem writeCtrl_srst (s : State) {v : Word} (h : v.getLsbD 1 = true) : writeCtrl s v = resetBlock s := if_pos h

/-- SRST clear: bit 0 is stored in IE (10_state.md R31). -/
theorem writeCtrl_ie (s : State) {v : Word} (h : v.getLsbD 1 = false) :
    writeCtrl s v = { s with ie := v.getLsbD 0 } := if_neg (ne_true_of_eq_false h)

/-- A command word that is not accepted sets ERR with a code (60_exceptions.md R235, R236). -/
theorem issue_rejected {s : State} {w : Word} (h : s.busy = true ∨ ∃ c, decode w = .error c) :
    ∃ c, issue s w = { s with cmd := w, err := true, errcode := c } := by
  rcases issue_cases s w with ⟨-, e⟩ | ⟨-, c, -, e⟩ | ⟨hb, i, hi, -⟩
  · exact ⟨_, e⟩
  · exact ⟨c, e⟩
  · obtain hb' | ⟨c, hc⟩ := h
    · exact absurd hb' (by simp [hb])
    · cases hc.symm.trans hi

/-! ### A legal access that no hazard turns away -/

section LegalAccess

variable {s : State} {es : List HostEvent} {off n : Nat} (hpin : s.resetPin = false) (hlegal : LegalAccess off n)
  (hfree : ¬(s.busy = true ∧ OwnedWhileBusy off))

include hlegal in
theorem LegalAccess.off_lt : off < 4096 := by
  obtain ⟨hn, -, hend, -⟩ := hlegal
  omega

include hlegal hfree in
/-- Outside the owned offsets, and everywhere while BUSY = 0, there is no hazard (70_reset_and_hazards.md R270). -/
theorem LegalAccess.no_hazard : (s.busy && busyForbidden off) = false := by
  rw [Bool.eq_false_iff, ne_eq, Bool.and_eq_true, busyForbidden_iff hlegal.off_lt (busError_none_of_legal hlegal)]
  exact hfree

include hlegal hfree in
theorem hostRead_legal :
    hostRead s (s.cfg.mrcBase + off) n = .next (respond s (.data (readWindow s off n))) := by
  simp only [hostRead, offsetOf_add s.cfg hlegal.off_lt, busError_none_of_legal hlegal, hlegal.no_hazard hfree,
    Bool.false_eq_true, if_false, respondNext]

include hlegal hfree in
theorem hostWrite_legal (v : Word) :
    hostWrite s (s.cfg.mrcBase + off) n v = .next (respond (writeWindow s off n v) .done) := by
  simp only [hostWrite, offsetOf_add s.cfg hlegal.off_lt, busError_none_of_legal hlegal, hlegal.no_hazard hfree,
    Bool.false_eq_true, if_false, respondNext]

include hpin hlegal hfree

/-- Such a read answers what the window holds, and nothing else changes (20_memory.md R60). -/
theorem step_legalRead (he : s.events = .read (s.cfg.mrcBase + off) n :: es) :
    step s = .next { s with events := es, responses := .data (readWindow s off n) :: s.responses } := by
  have hstep : step s = hostRead { s with events := es } (s.cfg.mrcBase + off) n := by
    simp [step, advance, he, handleEvent, hpin]
  exact hstep.trans (hostRead_legal (s := { s with events := es }) hlegal hfree)

/-- Such a write does what the window does with it, and is answered as complete (60_exceptions.md R244). -/
theorem step_legalWrite {v : Word} (he : s.events = .write (s.cfg.mrcBase + off) n v :: es) :
    step s = .next (respond (writeWindow { s with events := es } off n v) .done) := by
  have hstep : step s = hostWrite { s with events := es } (s.cfg.mrcBase + off) n v := by
    simp [step, advance, he, handleEvent, hpin]
  exact hstep.trans (hostWrite_legal (s := { s with events := es }) hlegal hfree v)

end LegalAccess

/-! ### An access to a control or status register -/

/-- The control and status registers are accessed as words (20_memory.md R52). -/
theorem registers_width {off n : Nat} (hoff : off < 0x018) (hb : busError off n = none) : n = 4 := by
  obtain ⟨-, hm⟩ := (busError_none_iff off n).1 hb
  unfold MapAllows at hm
  omega

theorem legalAccess_register {off : Nat} (hoff : off < 0x018) (hword : off % 4 = 0) : LegalAccess off 4 :=
  ⟨.inr (.inr rfl), hword, by omega, .inl ⟨hoff, rfl⟩⟩

/-- An idle block and the registers below SIN take every access (70_reset_and_hazards.md R270). -/
theorem register_not_owned {s : State} {off : Nat} (hoff : off < 0x018) (hfree : s.busy = false ∨ off < 0x010) :
    ¬(s.busy = true ∧ OwnedWhileBusy off) := by
  rintro ⟨hb, ho⟩
  unfold OwnedWhileBusy at ho
  obtain hidle | hlow := hfree
  · exact absurd hb (by simp [hidle])
  · omega

section Register

variable {s : State} {es : List HostEvent} {off : Nat} (hpin : s.resetPin = false) (hoff : off < 0x018)
  (hword : off % 4 = 0) (hfree : s.busy = false ∨ off < 0x010)

include hpin hoff hword hfree

/-- A read of a register answers its word, and nothing else changes. -/
theorem step_registerRead (he : s.events = .read (s.cfg.mrcBase + off) 4 :: es) :
    step s = .next { s with events := es, responses := .data (readRegister s off) :: s.responses } := by
  have hwindow : readWindow s off 4 = readRegister s off := by simp [readWindow, regionOf, hoff]
  rw [← hwindow]
  exact step_legalRead hpin (legalAccess_register hoff hword) (register_not_owned hoff hfree) he

/-- A write to a register is the register's own write, with the completion answered (10_state.md R29). -/
theorem step_registerWrite {v : Word} (he : s.events = .write (s.cfg.mrcBase + off) 4 v :: es) :
    step s = .next (respond (writeRegister { s with events := es } off v) .done) := by
  have hwindow : writeWindow { s with events := es } off 4 v = writeRegister { s with events := es } off v := by
    simp [writeWindow, regionOf, hoff]
  rw [← hwindow]
  exact step_legalWrite hpin (legalAccess_register hoff hword) (register_not_owned hoff hfree) he

end Register

/-! ### What a step to a next state can do -/

/-- A step to a next state changes nothing of the block, performs a command, takes a legal write of the host, or
follows the reset input. -/
theorem step_next_cases {s t : State} (h : step s = .next t) :
    (∃ es rs, t = { s with events := es, responses := rs })
      ∨ (s.resetPin = false ∧ CoreIsNext s s.events.tail ∧ ∃ i, s.pending = some i
          ∧ exec i { s with events := s.events.tail } = .next t)
      ∨ (s.resetPin = false ∧ ∃ off n v es, s.events = .write (s.cfg.mrcBase + off) n v :: es ∧ off < 4096
          ∧ busError off n = none ∧ ¬(s.busy = true ∧ OwnedWhileBusy off)
          ∧ t = respond (writeWindow { s with events := es } off n v) .done)
      ∨ ∃ b es, s.events = .reset b :: es ∧ t = resetInput { s with events := es } b := by
  rcases step_cases s with ⟨-, e⟩ | ⟨hr, hc, i, hi, e⟩ | ⟨hr, addr, n, es, he, e⟩ | ⟨hr, addr, n, v, es, he, e⟩
    | ⟨b, es, he, e⟩
  case inl =>
    cases e.symm.trans h
    exact .inl ⟨_, _, rfl⟩
  case inr.inl => exact .inr (.inl ⟨hr, hc, i, hi, e.symm.trans h⟩)
  case inr.inr.inl =>
    rw [h] at e
    rcases hostRead_cases { s with events := es } addr n with
      ⟨-, e'⟩ | ⟨off, -, -, ⟨k, -, e'⟩ | ⟨-, -, -, e'⟩ | ⟨-, -, e'⟩⟩ <;> cases e.trans e' <;> exact .inl ⟨_, _, rfl⟩
  case inr.inr.inr.inl =>
    rw [h] at e
    rcases hostWrite_cases { s with events := es } addr n v with
      ⟨-, e'⟩ | ⟨off, ha, ho, ⟨k, -, e'⟩ | ⟨-, -, -, e'⟩ | ⟨hb, hf, e'⟩⟩ <;> cases e.trans e'
    · exact .inl ⟨_, _, rfl⟩
    · subst ha
      exact .inr (.inr (.inl ⟨hr, off, n, v, es, he, ho, hb, hf, rfl⟩))
  case inr.inr.inr.inr =>
    cases e.symm.trans h
    exact .inr (.inr (.inr ⟨b, es, he, rfl⟩))

/-! ### The invariant -/

/-- In a reset block BUF is empty, no error is reported and no command is pending (10_state.md R42). -/
theorem resetBlock_inv (s : State) : (resetBlock s).Inv :=
  ⟨Memory.wf_nil, ⟨fun _ => rfl, fun _ => rfl⟩, fun h => by cases h⟩

/-- A codec writes at most the 384 bytes of BUF, so a command keeps the canonical form. -/
theorem exec_keeps_buf_wf {i : Instr} {s t : State} (h : exec i s = .next t) (hbuf : s.buf.wf = true) :
    t.buf.wf = true := by
  rcases exec_shape i s with ⟨-, -, ok, v, e⟩ | ⟨-, pd, ok, v, -, e⟩ | ⟨-, ok, d, v, -, hd, e⟩ <;> cases e.symm.trans h
  · exact hbuf
  · exact hbuf
  · refine Memory.wf_writeBlock hbuf 0 _ ?_
    rw [encodeStream_length, bufBytes]
    omega

/-- A command leaves the error report alone and the block idle. -/
theorem exec_keeps_inv {i : Instr} {s t : State} (h : exec i s = .next t) (hs : s.Inv) : t.Inv := by
  obtain ⟨hbuf, hreport, -⟩ := hs
  obtain ⟨hpending, -, -, -, herr, hcode, -⟩ := exec_next h
  refine ⟨exec_keeps_buf_wf h hbuf, by rw [herr, hcode]; exact hreport, fun hb => ?_⟩
  exact absurd hb (by simp [State.busy, hpending])

/-- Clearing ERR clears ERRCODE, and clearing DONE sets nothing (10_state.md R32). -/
theorem writeStatus_keeps_inv {s : State} (v : Word) (hs : s.Inv) : (writeStatus s v).Inv := by
  obtain ⟨hbuf, hreport, hdone⟩ := hs
  refine ⟨hbuf, ?_, fun hb => by simp [hdone hb]⟩
  rw [writeStatus_err, writeStatus_errcode]
  cases v.getLsbD 2
  · simpa using hreport
  · simp

/-- A rejection sets ERR with a code that is not NONE, and an acceptance clears DONE (60_exceptions.md R235, R236). -/
theorem issue_keeps_inv {s : State} (w : Word) (hs : s.Inv) : (issue s w).Inv := by
  obtain ⟨hbuf, hreport, hdone⟩ := hs
  rcases issue_cases s w with ⟨-, e⟩ | ⟨-, c, hc, e⟩ | ⟨-, i, -, e⟩ <;> rw [e]
  · exact ⟨hbuf, by simp, hdone⟩
  · exact ⟨hbuf, by simp [decode_error_ne_none hc], hdone⟩
  · exact ⟨hbuf, hreport, fun _ => rfl⟩

theorem writeCtrl_keeps_inv {s : State} (v : Word) (hs : s.Inv) : (writeCtrl s v).Inv := by
  cases hv : v.getLsbD 1
  · rw [writeCtrl_ie s hv]
    exact hs
  · rw [writeCtrl_srst s hv]
    exact resetBlock_inv s

/-- A legal write to BUF stays inside it, so that it keeps the canonical form too (20_memory.md R57). -/
theorem writeWindow_keeps_inv {s : State} {off n : Nat} (v : Word) (hoff : off < 4096) (hb : busError off n = none)
    (hs : s.Inv) : (writeWindow s off n v).Inv := by
  rcases writeWindow_cases s v hoff hb with
    e | ⟨-, e⟩ | ⟨-, e⟩ | ⟨-, e⟩ | ⟨-, e⟩ | ⟨-, hlen, e⟩ | ⟨-, r, c, e⟩ <;> rw [e]
  · exact hs
  · exact writeCtrl_keeps_inv v hs
  · exact writeStatus_keeps_inv v hs
  · exact issue_keeps_inv v hs
  · exact hs
  · obtain ⟨hbuf, hflags⟩ := hs
    exact ⟨Memory.wf_writeBlock hbuf _ _ hlen, hflags⟩
  · exact hs

theorem resetInput_keeps_inv {s : State} (b : Bool) (hs : s.Inv) : (resetInput s b).Inv := by
  cases b
  · exact hs
  · exact resetBlock_inv s

/-- Settles O44: the invariant does not read the queue and the responses, and each kind of step keeps it. -/
theorem stepKeepsInv : Obligations.StepKeepsInv := by
  intro s t hs h
  rcases step_next_cases h with
    ⟨es, rs, rfl⟩ | ⟨-, -, i, -, e⟩ | ⟨-, off, n, v, es, -, hoff, hb, -, rfl⟩ | ⟨b, es, -, rfl⟩
  · exact hs
  · exact exec_keeps_inv (s := { s with events := s.events.tail }) e hs
  · exact writeWindow_keeps_inv (s := { s with events := es }) v hoff hb hs
  · exact resetInput_keeps_inv (s := { s with events := es }) b hs

/-- Settles O45: the state after reset is a reset block. -/
theorem resetMeetsInv : Obligations.ResetMeetsInv := resetBlock_inv State.reset

/-! ### ERR and the interrupt output -/

/-- Of the host's writes only those to STATUS with bit 2 set and to CTRL with SRST set clear ERR. -/
theorem writeWindow_clears_err {s : State} {off n : Nat} {v : Word} (hoff : off < 4096) (hb : busError off n = none)
    (h1 : s.err = true) (h0 : (writeWindow s off n v).err = false) :
    (off = 0x008 ∧ v.getLsbD 2 = true) ∨ (off = 0x004 ∧ v.getLsbD 1 = true) := by
  have hsame : (writeWindow s off n v).err ≠ s.err := by simp [h0, h1]
  rcases writeWindow_cases s v hoff hb with
    e | ⟨ho, e⟩ | ⟨ho, e⟩ | ⟨-, e⟩ | ⟨-, e⟩ | ⟨-, -, e⟩ | ⟨-, r, c, e⟩ <;> rw [e] at hsame
  · exact absurd rfl hsame
  · refine .inr ⟨ho, Bool.of_not_eq_false fun hv => hsame ?_⟩
    rw [writeCtrl_ie s hv]
  · exact .inl ⟨ho, by simpa [h1] using hsame⟩
  · rcases issue_cases s v with ⟨-, e'⟩ | ⟨-, c, -, e'⟩ | ⟨-, i, -, e'⟩ <;> rw [e'] at hsame
    · exact absurd h1.symm hsame
    · exact absurd h1.symm hsame
    · exact absurd rfl hsame
  · exact absurd rfl hsame
  · exact absurd rfl hsame
  · exact absurd rfl hsame

/-- Settles O8: no step but a write to STATUS or CTRL or the reset input can clear ERR. -/
theorem errIsSticky : Obligations.ErrIsSticky := by
  intro s t h h1 h0
  rcases step_next_cases h with
    ⟨es, rs, rfl⟩ | ⟨-, -, i, -, e⟩ | ⟨-, off, n, v, es, he, hoff, hb, -, rfl⟩ | ⟨b, es, he, rfl⟩
  · cases h1.symm.trans h0
  · obtain ⟨-, -, -, -, herr, -⟩ := exec_next e
    cases h1.symm.trans (herr.symm.trans h0)
  · rcases writeWindow_clears_err (s := { s with events := es }) hoff hb h1 h0 with ⟨rfl, hv⟩ | ⟨rfl, hv⟩ <;>
      cases registers_width (by decide) hb
    · exact .inl ⟨v, es, he, hv⟩
    · exact .inr (.inl ⟨v, es, he, hv⟩)
  · cases b
    · cases h1.symm.trans h0
    · exact .inr (.inr ⟨es, he⟩)

/-- Settles O9: a command's step leaves DONE set and a rejection ERR, and neither changes IE. -/
theorem interruptLine : Obligations.InterruptLine := by
  refine ⟨fun s => by simp [irq], fun i s t h => ?_, fun s w h => ?_⟩
  · obtain ⟨-, hdone, -, hie, -⟩ := exec_next h
    simp [irq, hdone, hie]
  · obtain ⟨c, e⟩ := issue_rejected h
    simp [irq, e]

/-! ### Frames of the commands -/

/-- Settles O13: the four scalar commands are those that write neither a polynomial register nor BUF. -/
theorem scalarCommandsFrame : Obligations.ScalarCommandsFrame := by
  intro i s t hi h
  obtain ⟨hp, hb⟩ : writesPoly i = none ∧ writesBuf i = none := by
    simp only [List.mem_cons, List.not_mem_nil, or_false] at hi
    rcases hi with rfl | rfl | rfl | rfl <;> exact ⟨rfl, rfl⟩
  obtain ⟨-, -, hside⟩ := exec_next h
  obtain ⟨ok, v, e⟩ := exec_scalar hp hb s
  cases e.symm.trans h
  exact ⟨fun _ => rfl, fun _ => rfl, hside⟩

/-- Settles O14: such a command's result replaces P[pd] in the register file. -/
theorem polyCommandsFrame : Obligations.PolyCommandsFrame := by
  intro i pd s t hpd h
  obtain ⟨-, -, hside⟩ := exec_next h
  obtain ⟨ok, v, e⟩ := exec_poly hpd s
  cases e.symm.trans h
  exact ⟨fun r hr => by rw [polyReg_polyResult, if_neg hr], fun _ => rfl, rfl, hside⟩

/-! ### The registers on the bus -/

/-- A write to STATUS where ERR and ERRCODE agree: ERRCODE becomes NONE exactly where the write clears ERR (R32). -/
theorem writeStatus_of_agreement {s : State} (v : Word) (hcode : s.err = false → s.errcode = .none) :
    writeStatus s v = { s with
      done := if v.getLsbD 1 then false else s.done
      err := if v.getLsbD 2 then false else s.err
      errcode := if s.err = true ∧ v.getLsbD 2 = true then .none else s.errcode } := by
  have hflag (flag ack : Bool) : (flag && !ack) = if ack then false else flag := by cases ack <;> simp
  rw [writeStatus, hflag, hflag]
  cases herr : s.err
  · simp [hcode herr]
  · simp

/-- Settles O7: the write is `writeStatus`, and each of the three words of R240 is evaluated. -/
theorem statusWriteAcknowledges : Obligations.StatusWriteAcknowledges := by
  intro s es v hpin he
  have hstep := step_registerWrite hpin (by decide) (by decide) (.inr (by decide)) he
  rw [hstep]
  refine ⟨fun hcode => ?_, ?_, ?_, ?_⟩
  · simp only [writeRegister, writeStatus_of_agreement (s := { s with events := es }) v hcode, respond]
  all_goals
    rintro rfl
    simp [writeRegister, writeStatus, respond]

/-- Settles O52: without SRST the write is the write of IE, and a read of CTRL shows IE in bit 0. -/
theorem interruptEnableWrite : Obligations.InterruptEnableWrite := by
  intro s es v hpin hv he
  have hstep : step s = .next { s with ie := v.getLsbD 0, events := es, responses := .done :: s.responses } := by
    rw [step_registerWrite hpin (by decide) (by decide) (.inr (by decide)) he]
    simp [writeRegister, writeCtrl_ie _ hv, respond]
  refine ⟨hstep, fun t ht => ?_⟩
  cases hstep.symm.trans ht
  cases v.getLsbD 0 <;> rfl

/-- A field of a word as a quotient and a remainder (00_scope.md R10). -/
theorem fieldBits_eq (w : Word) (lo width : Nat) : fieldBits w lo width = w.toNat / 2 ^ lo % 2 ^ width := by
  simp [fieldBits, BitVec.extractLsb'_toNat, Nat.shiftRight_eq_div_pow]

/-- A bit of a word from its quotient. -/
theorem getLsbD_eq_of_div {w : Word} {k : Nat} {b : Bool} (h : w.toNat / 2 ^ k % 2 = b.toNat) : w.getLsbD k = b := by
  rw [BitVec.getLsbD, Nat.testBit_eq_decide_div_mod_eq, h]
  cases b <;> rfl

/-- STATUS holds BUSY, DONE, ERR and ERRCODE in their bits and 0 in every other bit (10_state.md R32). -/
theorem statusWord_fields (s : State) :
    (statusWord s).getLsbD 0 = s.busy ∧ (statusWord s).getLsbD 1 = s.done ∧ (statusWord s).getLsbD 2 = s.err
      ∧ fieldBits (statusWord s) 8 4 = errNumber s.errcode ∧ fieldBits (statusWord s) 3 5 = 0
      ∧ fieldBits (statusWord s) 12 20 = 0 := by
  have hbusy := Bool.toNat_le s.busy
  have hdone := Bool.toNat_le s.done
  have herr := Bool.toNat_le s.err
  have hcode : errNumber s.errcode ≤ 4 := by cases s.errcode <;> decide
  have hword : (statusWord s).toNat
      = s.busy.toNat + 2 * s.done.toNat + 4 * s.err.toNat + 256 * errNumber s.errcode := by
    rw [statusWord, BitVec.toNat_ofNat, Nat.mod_eq_of_lt (by omega)]
  simp only [fieldBits_eq, hword]
  refine ⟨statusWord_busy s, getLsbD_eq_of_div ?_, getLsbD_eq_of_div ?_, ?_, ?_, ?_⟩
  · rw [hword]; omega
  · rw [hword]; omega
  all_goals omega

/-- Settles O59: each access is the register's own read or write. -/
theorem registerAccess : Obligations.RegisterAccess := by
  intro s es hpin
  refine ⟨fun off v he h => ?_, fun he => ⟨statusWord s, ?_, statusWord_fields s⟩, fun v he => ?_, fun v hidle he => ?_,
    fun v hidle he => ?_⟩
  · simp only [List.mem_cons, Prod.mk.injEq, List.not_mem_nil, or_false] at h
    rcases h with (⟨rfl, rfl⟩ | ⟨rfl, rfl⟩) | ⟨hidle, ⟨rfl, rfl⟩ | ⟨rfl, rfl⟩⟩
    · exact step_registerRead hpin (by decide) (by decide) (.inr (by decide)) he
    · exact step_registerRead hpin (by decide) (by decide) (.inr (by decide)) he
    · exact step_registerRead hpin (by decide) (by decide) (.inl hidle) he
    · exact step_registerRead hpin (by decide) (by decide) (.inl hidle) he
  · exact step_registerRead hpin (by decide) (by decide) (.inr (by decide)) he
  · exact step_registerWrite hpin (by decide) (by decide) (.inr (by decide)) he
  · exact step_registerWrite hpin (by decide) (by decide) (.inl hidle) he
  · exact step_registerWrite hpin (by decide) (by decide) (.inl hidle) he

end Sys2Proof.Machine

/-! ## The window (20_memory.md)

The frame of the commands that write BUF, and what a host access to each region of the window does; then the statements
of 20_memory.md. -/

namespace Sys2Proof.Machine

/-! ### The commands that write BUF -/

/-- A command that writes `n` bytes of BUF is a codec command whose values fill them. -/
theorem exec_codec {i : Instr} {n : Nat} (hb : writesBuf i = some n) (s : State) :
    ∃ ok d v, n = 32 * d ∧ exec i s = .next (bufResult s ok d v (encodeStream d)) := by
  rcases exec_shape i s with ⟨-, hn, -⟩ | ⟨hn, -⟩ | ⟨-, ok, d, v, hd, -, e⟩
  · cases hn.symm.trans hb
  · cases hn.symm.trans hb
  · cases hd.symm.trans hb
    exact ⟨ok, d, v, rfl, e⟩

/-- Settles O15: the codec's write covers its own bytes only, and nothing else of its result is an operand. -/
theorem bufCommandsFrame : Obligations.BufCommandsFrame := by
  intro i n s t hb h
  obtain ⟨-, -, hside⟩ := exec_next h
  obtain ⟨ok, d, v, rfl, e⟩ := exec_codec hb s
  cases e.symm.trans h
  exact ⟨fun k hk => by rw [bufByte_bufResult, if_neg (by omega)], fun _ => rfl, rfl, hside⟩

/-! ### Reads -/

/-- A host read that is answered only adds its response. -/
theorem hostRead_next {s t : State} {addr n : Nat} (h : hostRead s addr n = .next t) : ∃ r, t = respond s r := by
  rcases hostRead_cases s addr n with ⟨-, e⟩ | ⟨off, -, -, ⟨k, -, e⟩ | ⟨-, -, -, e⟩ | ⟨-, -, e⟩⟩ <;>
    cases e.symm.trans h
  · exact ⟨_, rfl⟩
  · exact ⟨_, rfl⟩

/-- A step on a read changes at most the queue and the responses (20_memory.md R60). -/
theorem step_read_next {s t : State} {addr n : Nat} {es : List HostEvent} (he : s.events = .read addr n :: es)
    (h : step s = .next t) : ∃ rs, t = { s with events := es, responses := rs } := by
  by_cases hpin : s.resetPin = true
  · have hkeep : step s = .next { s with events := es } := by simp [step, advance, he, handleEvent, hpin]
    cases hkeep.symm.trans h
    exact ⟨_, rfl⟩
  · have hread : hostRead { s with events := es } addr n = .next t := by
      simpa [step, advance, he, handleEvent, hpin] using h
    obtain ⟨r, rfl⟩ := hostRead_next hread
    exact ⟨_, rfl⟩

/-- Settles O55: neither the queue nor the responses are the block's. -/
theorem readsHaveNoSideEffect : Obligations.ReadsHaveNoSideEffect := by
  intro s t addr n es he h
  obtain ⟨rs, rfl⟩ := step_read_next he h
  exact ⟨⟨rfl, rfl, rfl, rfl, rfl, rfl, rfl, rfl, rfl, rfl, rfl⟩, rfl, rfl, rfl⟩

/-! ### Accesses that a BusError turns away -/

/-- An access with a BusError changes nothing but its response, busy or not (60_exceptions.md R243, R244). -/
theorem step_busError {s : State} {es : List HostEvent} {e : HostEvent} {off n : Nat} {k : BusErrorKind}
    (hpin : s.resetPin = false) (hoff : off < 4096) (hk : busError off n = some k) (hacc : IsAccess s.cfg off n e)
    (he : s.events = e :: es) :
    step s = .next { s with events := es, responses := .busError k :: s.responses } := by
  obtain rfl | ⟨v, rfl⟩ := hacc
  · simp [step, advance, he, handleEvent, hpin, hostRead, offsetOf_add _ hoff, hk, respondNext, respond]
  · simp [step, advance, he, handleEvent, hpin, hostWrite, offsetOf_add _ hoff, hk, respondNext, respond]

/-! ### The reserved offsets -/

theorem regionOf_reserved {off : Nat} (h : (0x018 ≤ off ∧ off ≤ 0x3FF) ∨ (0x580 ≤ off ∧ off ≤ 0x7FF)) :
    regionOf off = .reserved := by
  obtain ⟨hlo, hhi⟩ | ⟨hlo, hhi⟩ := h
  · rw [regionOf, if_neg (by omega), if_pos (by omega)]
  · rw [regionOf, if_neg (by omega), if_neg (by omega), if_neg (by omega), if_pos (by omega)]

/-- Settles O58: a reserved offset is not owned, so the access takes place, and the region holds nothing. -/
theorem reservedOffsets : Obligations.ReservedOffsets := by
  intro s es off n hpin hlegal hrange
  have hregion := regionOf_reserved hrange
  have hfree : ¬(s.busy = true ∧ OwnedWhileBusy off) := by
    rintro ⟨-, howned⟩
    unfold OwnedWhileBusy at howned
    omega
  refine ⟨fun he => ?_, fun v he => ?_⟩
  · simpa only [readWindow, hregion] using step_legalRead hpin hlegal hfree he
  · simpa only [writeWindow, hregion, respond] using step_legalWrite hpin hlegal hfree he

/-! ### What a write to P or BUF leaves alone -/

/-- An idle block takes an access at every offset (70_reset_and_hazards.md R270). -/
theorem idle_not_owned {s : State} (hidle : s.busy = false) (off : Nat) : ¬(s.busy = true ∧ OwnedWhileBusy off) :=
  fun h => absurd h.1 (ne_true_of_eq_false hidle)

/-- P, BUF, the queue and the responses are none of the registers and flags. -/
theorem sameRegisters_with (s : State) (f : PolyFile) (m : Memory) (es : List HostEvent) (rs : List Response) :
    SameRegisters s { s with p := f, buf := m, events := es, responses := rs } :=
  ⟨rfl, rfl, rfl, rfl, rfl, rfl, rfl, rfl, rfl, rfl, rfl⟩

/-! ### BUF -/

theorem regionOf_buf {off : Nat} (hlo : 0x400 ≤ off) (hhi : off < 0x580) : regionOf off = .buf := by
  rw [regionOf, if_neg (by omega), if_neg (by omega), if_pos hhi]

theorem byteOf_eq_extractLsb' (v : Word) (k : Nat) : byteOf v k = v.extractLsb' (8 * k) 8 := by
  simp [byteOf, BitVec.extractLsb', Nat.shiftRight_eq_div_pow]

@[simp] theorem bytesOfWord_length (n : Nat) (v : Word) : (bytesOfWord n v).length = n := by simp [bytesOfWord]

/-- Byte `k` of a written value. -/
theorem getD_bytesOfWord {n k : Nat} (hk : k < n) (v : Word) :
    (bytesOfWord n v).getD k 0 = v.extractLsb' (8 * k) 8 := by
  simp [bytesOfWord, List.getD_eq_getElem?_getD, hk, byteOf_eq_extractLsb']

/-- A byte of a memory after the bytes of a word are written at `lo`. -/
theorem read_writeBlock_bytesOfWord (m : Memory) (lo n : Nat) (v : Word) :
    (∀ k, k < n → (m.writeBlock lo (bytesOfWord n v)).read (lo + k) = v.extractLsb' (8 * k) 8)
      ∧ ∀ k, k < lo ∨ lo + n ≤ k → (m.writeBlock lo (bytesOfWord n v)).read k = m.read k := by
  refine ⟨fun k hk => ?_, fun k hk => ?_⟩ <;> rw [Memory.read_writeBlock, bytesOfWord_length]
  · rw [if_pos (by omega), Nat.add_sub_cancel_left, getD_bytesOfWord hk]
  · rw [if_neg (by omega)]

/-- A little-endian number is the sum of its digits at their places. -/
theorem ofDigits_map_range' (b : Nat) (f : Nat → Nat) (lo n : Nat) :
    Nat.ofDigits b ((List.range' lo n).map f) = ∑ k ∈ Finset.range n, f (lo + k) * b ^ k := by
  induction n generalizing lo with
  | zero => rfl
  | succ n ih =>
    rw [List.range'_succ, List.map_cons, Nat.ofDigits_cons, ih, Finset.sum_range_succ', Finset.mul_sum, Nat.add_comm]
    congr 1
    · refine Finset.sum_congr rfl fun k _ => ?_
      rw [show lo + 1 + k = lo + (k + 1) by omega]
      ring
    · simp

/-- The value of a sequence of bytes as a number in base 256. -/
theorem wordOfBytes_eq_ofDigits (bs : List Byte) :
    wordOfBytes bs = BitVec.ofNat 32 (Nat.ofDigits 256 (bs.map BitVec.toNat)) := by
  rw [wordOfBytes, Nat.ofDigits_eq_foldr, List.foldr_map]
  rfl

/-- At most four bytes make a word without a wrap. -/
theorem wordOfBytes_toNat {bs : List Byte} (h : bs.length ≤ 4) :
    (wordOfBytes bs).toNat = Nat.ofDigits 256 (bs.map BitVec.toNat) := by
  have hlt : Nat.ofDigits 256 (bs.map BitVec.toNat) < 256 ^ (bs.map BitVec.toNat).length := by
    refine Nat.ofDigits_lt_base_pow_length (by decide) fun x hx => ?_
    obtain ⟨b, -, rfl⟩ := List.mem_map.1 hx
    exact b.isLt
  have hword : 256 ^ (bs.map BitVec.toNat).length ≤ 2 ^ 32 := by
    rw [List.length_map]
    exact Nat.pow_le_pow_right (by decide) h
  rw [wordOfBytes_eq_ofDigits, BitVec.toNat_ofNat, Nat.mod_eq_of_lt (hlt.trans_le hword)]

/-- What a read of `n` bytes of a memory returns: their sum, the byte at `lo + k` at the place 2^(8k). -/
theorem wordOfBytes_readBlock_toNat (m : Memory) (lo : Nat) {n : Nat} (hn : n ≤ 4) :
    (wordOfBytes (m.readBlock lo n)).toNat = ∑ k ∈ Finset.range n, (m.read (lo + k)).toNat * 2 ^ (8 * k) := by
  rw [wordOfBytes_toNat (by simpa using hn), Memory.readBlock, List.map_map, ofDigits_map_range']
  exact Finset.sum_congr rfl fun k _ => by rw [pow_mul]; rfl

/-- Settles O56: a write stores the bytes of the value as a block, a read returns the sum of a block. -/
theorem bufWindowAccess : Obligations.BufWindowAccess := by
  intro s es off n hpin hidle hlegal hlo hhi
  have hregion := regionOf_buf hlo hhi
  have hfree := idle_not_owned hidle off
  refine ⟨fun v he => ?_, fun he => ⟨readWindow s off n, step_legalRead hpin hlegal hfree he, ?_⟩⟩
  · obtain ⟨hwritten, hkept⟩ := read_writeBlock_bytesOfWord s.buf (off - 0x400) n v
    refine ⟨_, step_legalWrite hpin hlegal hfree he, ?_⟩
    simp only [writeWindow, hregion]
    exact ⟨hwritten, hkept, fun _ => rfl, sameRegisters_with s s.p _ _ _, rfl, rfl⟩
  · obtain ⟨hn, -⟩ := hlegal
    simp only [readWindow, hregion]
    exact wordOfBytes_readBlock_toNat s.buf _ (by omega)

/-! ### P -/

/-- The offset of P[p][i] in the window (20_memory.md R58). -/
def coeffOffset (p : PReg) (i : Nat) : Nat := 0x800 + 0x200 * p.val + 2 * i

theorem regionOf_poly {off : Nat} (h : 0x800 ≤ off) : regionOf off = .poly := by
  rw [regionOf, if_neg (by omega), if_neg (by omega), if_neg (by omega), if_neg (by omega)]

section CoeffOffset

variable (p : PReg) {i : Nat} (hi : i < 256)

theorem regionOf_coeffOffset : regionOf (coeffOffset p i) = .poly := regionOf_poly (by unfold coeffOffset; omega)

include hi

theorem offPoly_coeffOffset : offPoly (coeffOffset p i) = p := by
  have hp := p.isLt
  apply Fin.ext
  simp only [offPoly, coeffOffset, Fin.ofNat_eq_cast, Fin.val_natCast]
  omega

theorem offIndex_coeffOffset : offIndex (coeffOffset p i) = i := by
  simp only [offIndex, coeffOffset]
  omega

/-- A halfword access is legal at every coefficient, a word access at the even ones. -/
theorem legalAccess_coeffOffset {n : Nat} (hn : n = 2 ∨ (n = 4 ∧ i % 2 = 0)) : LegalAccess (coeffOffset p i) n := by
  have hp := p.isLt
  unfold LegalAccess MapAllows coeffOffset
  obtain rfl | ⟨rfl, heven⟩ := hn <;> omega

/-- A byte of P is not accessed alone (20_memory.md R58). -/
theorem busError_coeffOffset_byte {b : Nat} (hb : b < 2) :
    coeffOffset p i + b < 4096 ∧ busError (coeffOffset p i + b) 1 = some .width := by
  have hp := p.isLt
  have hregion : regionOf (coeffOffset p i + b) = .poly := regionOf_poly (by unfold coeffOffset; omega)
  exact ⟨by unfold coeffOffset; omega, by simp [busError, hregion, widthAllowed, Nat.mod_one]⟩

end CoeffOffset

theorem halfOf_eq_extractLsb' (v : Word) (k : Nat) : halfOf v k = v.extractLsb' (16 * k) 16 := by
  simp [halfOf, BitVec.extractLsb', Nat.shiftRight_eq_div_pow]

/-- A coefficient of the register that a write to P addresses. -/
theorem coeff_writePoly (s : State) (off n : Nat) (v : Word) (j : Nat) :
    coeff (polyReg (writePoly s off n v) (offPoly off)) j
      = if n ≠ 2 ∧ offIndex off + 1 = j ∧ j < 256 then v.extractLsb' 16 16
        else if offIndex off = j ∧ j < 256 then v.extractLsb' 0 16
        else coeff (polyReg s (offPoly off)) j := by
  have hreg : polyReg (writePoly s off n v) (offPoly off)
      = if n = 2 then setCoeff (polyReg s (offPoly off)) (offIndex off) (halfOf v 0)
        else setCoeff (setCoeff (polyReg s (offPoly off)) (offIndex off) (halfOf v 0)) (offIndex off + 1)
          (halfOf v 1) := setPoly_get_self _ _ _
  have hlast (k : Nat) : (k = j ∧ k < 256) ↔ (k = j ∧ j < 256) := and_congr_right fun h => h ▸ Iff.rfl
  rw [hreg]
  by_cases hn : n = 2 <;> simp [hn, coeff_setCoeff, hlast, halfOf_eq_extractLsb']

/-- Every other register is as before. -/
theorem samePolysBut_writePoly (s : State) (off n : Nat) (v : Word) :
    SamePolysBut (offPoly off) s (writePoly s off n v) := fun _ hr => setPoly_get_ne _ _ hr

/-- Two coefficients as one word, the first in the low half. -/
theorem ofNat_halves (lo hi : Coeff) : BitVec.ofNat 32 (lo.toNat + hi.toNat * 2 ^ 16) = hi ++ lo := by
  apply BitVec.eq_of_toNat_eq
  have hlo := lo.isLt
  have hhi := hi.isLt
  rw [BitVec.toNat_append, ← Nat.shiftLeft_add_eq_or_of_lt hlo, Nat.shiftLeft_eq, BitVec.toNat_ofNat]
  omega

section PolyAccess

variable {s : State} {es : List HostEvent} {p : PReg} {i n : Nat} (hpin : s.resetPin = false) (hidle : s.busy = false)
  (hi : i < 256)

include hpin hidle hi

/-- A write at P[p][i] stores the low half in coefficient `i`, one of four bytes the high half in the next, and leaves
everything else as it was. -/
theorem step_polyWrite {v : Word} (hn : n = 2 ∨ (n = 4 ∧ i % 2 = 0))
    (he : s.events = .write (s.cfg.mrcBase + coeffOffset p i) n v :: es) :
    ∃ t, step s = .next t
      ∧ (∀ j, coeff (polyReg t p) j
          = if n ≠ 2 ∧ i + 1 = j ∧ j < 256 then v.extractLsb' 16 16
            else if i = j ∧ j < 256 then v.extractLsb' 0 16 else coeff (polyReg s p) j)
      ∧ SamePolysBut p s t ∧ SameBuf s t ∧ SameRegisters s t ∧ t.events = es ∧ t.responses = .done :: s.responses := by
  have hp := offPoly_coeffOffset p hi
  have hcoeff := coeff_writePoly { s with events := es } (coeffOffset p i) n v
  have hothers := samePolysBut_writePoly { s with events := es } (coeffOffset p i) n v
  rw [hp] at hcoeff hothers
  rw [offIndex_coeffOffset p hi] at hcoeff
  refine ⟨_, step_legalWrite hpin (legalAccess_coeffOffset p hi hn) (idle_not_owned hidle _) he, ?_⟩
  simp only [writeWindow, regionOf_coeffOffset]
  exact ⟨hcoeff, hothers, fun _ => rfl, sameRegisters_with s _ s.buf _ _, rfl, rfl⟩

/-- A read at P[p][i] answers that coefficient, or it and the next. -/
theorem step_polyRead (hn : n = 2 ∨ (n = 4 ∧ i % 2 = 0))
    (he : s.events = .read (s.cfg.mrcBase + coeffOffset p i) n :: es) :
    step s = .next { s with
      events := es
      responses := .data (if n = 2 then (coeff (polyReg s p) i).setWidth 32
        else coeff (polyReg s p) (i + 1) ++ coeff (polyReg s p) i) :: s.responses } := by
  rw [step_legalRead hpin (legalAccess_coeffOffset p hi hn) (idle_not_owned hidle _) he]
  simp only [readWindow, regionOf_coeffOffset, readPoly, offPoly_coeffOffset p hi, offIndex_coeffOffset p hi,
    BitVec.ofNat_toNat, ofNat_halves]

end PolyAccess

/-- Settles O57: the write and the read of P at each width, and the BusError of a byte access. -/
theorem polyWindowAccess : Obligations.PolyWindowAccess := by
  intro s es p i hpin hidle hi
  refine ⟨fun v he => ?_, fun he => ?_, fun heven v he => ?_, fun heven he => ?_, fun b e hb hacc he => ?_⟩
  · obtain ⟨t, hstep, hcoeff, hrest⟩ := step_polyWrite hpin hidle hi (.inl rfl) he
    exact ⟨t, hstep, by simp [hcoeff, hi], fun j _ hj => by simp [hcoeff, hj.symm], hrest⟩
  · exact step_polyRead hpin hidle hi (.inl rfl) he
  · obtain ⟨t, hstep, hcoeff, hrest⟩ := step_polyWrite hpin hidle hi (.inr ⟨rfl, heven⟩) he
    have hnext : i + 1 < 256 := by omega
    exact ⟨t, hstep, by simp [hcoeff, hi], by simp [hcoeff, hnext], fun j _ h0 h1 => by simp [hcoeff, h0.symm, h1.symm],
      hrest⟩
  · exact step_polyRead hpin hidle hi (.inr ⟨rfl, heven⟩) he
  · obtain ⟨hoff, hk⟩ := busError_coeffOffset_byte p hi hb
    exact step_busError hpin hoff hk hacc he

end Sys2Proof.Machine

/-! ## Encoding and issue (30_encoding.md)

A command word and its fields determine each other, and the opcode map as lists; then what each outcome of the decoder
needs, the statements on the decoder, and the statements on issuing and performing a command. -/

namespace Sys2Proof.Machine

/-! ### A command word and its fields (30_encoding.md R71) -/

section CommandWord

variable {op d : Nat} (pd pa pb : PReg) (hop : op < 64) (hd : d < 16)

include hop hd

/-- No field reaches into another, so the word is the sum of the fields at their places. -/
theorem commandWord_toNat :
    (commandWord op pd pa pb d).toNat
      = op + pd.val * 2 ^ 8 + pa.val * 2 ^ 10 + pb.val * 2 ^ 12 + d * 2 ^ 16 := by
  rw [commandWord, BitVec.toNat_ofNat, Nat.mod_eq_of_lt (by omega)]

theorem fields_commandWord :
    fieldOp (commandWord op pd pa pb d) = op ∧ fieldPD (commandWord op pd pa pb d) = pd.val
      ∧ fieldPA (commandWord op pd pa pb d) = pa.val ∧ fieldPB (commandWord op pd pa pb d) = pb.val
      ∧ fieldD (commandWord op pd pa pb d) = d := by
  simp only [fieldOp, fieldPD, fieldPA, fieldPB, fieldD, bitField, commandWord_toNat pd pa pb hop hd]
  omega

theorem reservedZero_commandWord : reservedZero (commandWord op pd pa pb d) = true := by
  simp only [reservedZero, bitField, commandWord_toNat pd pa pb hop hd, Bool.and_eq_true, beq_iff_eq]
  omega

end CommandWord

/-- A register index is the whole of its 2-bit field (30_encoding.md R72). -/
theorem pregOf_bitField (w : Word) (lo : Nat) : (pregOf (bitField w lo 2)).val = bitField w lo 2 :=
  Nat.mod_eq_of_lt (Nat.mod_lt _ (by decide))

@[simp] theorem pregOf_val (r : PReg) : pregOf r.val = r := Fin.ofNat_val_eq_self r

/-- A word whose reserved bits are 0 is the word of its fields. -/
theorem commandWord_fields {w : Word} (h : reservedZero w = true) :
    commandWord (fieldOp w) (pregOf (fieldPD w)) (pregOf (fieldPA w)) (pregOf (fieldPB w)) (fieldD w) = w := by
  simp only [reservedZero, bitField, Bool.and_eq_true, beq_iff_eq] at h
  have hw := w.isLt
  apply BitVec.eq_of_toNat_eq
  simp only [commandWord, fieldOp, fieldPD, fieldPA, fieldPB, fieldD, pregOf_bitField, BitVec.toNat_ofNat]
  simp only [bitField]
  omega

/-! ### The opcode map (30_encoding.md R74) -/

/-- The opcodes of the map. -/
def mapOpcodes : List Nat :=
  [0x01, 0x02, 0x03, 0x04, 0x08, 0x09, 0x0A, 0x0B, 0x0C, 0x0D, 0x0E, 0x10, 0x11, 0x12, 0x13]

/-- The fields that an opcode uses, from the lists of the opcodes that use each field. -/
def listedFields (op : Nat) : UsedFields where
  pd := decide (op ∈ [0x08, 0x09, 0x0A, 0x0B, 0x0C, 0x0D, 0x0E, 0x11, 0x13])
  pa := decide (op ∈ [0x0A, 0x0B, 0x0C, 0x10, 0x12])
  pb := decide (op ∈ [0x0A, 0x0B, 0x0C])
  d := decide (op ∈ [0x10, 0x11])

/-- The opcode map, read row by row, is the lists of the opcodes that use each field. -/
theorem usedFields_eq (op : Nat) : usedFields op = if op ∈ mapOpcodes then some (listedFields op) else none := by
  unfold usedFields
  split
  case h_16 => exact (if_neg (by simp_all [mapOpcodes])).symm
  all_goals rfl

theorem usedFields_listed {op : Nat} (h : op ∈ mapOpcodes) : usedFields op = some (listedFields op) :=
  (usedFields_eq op).trans (if_pos h)

theorem usedFields_unlisted {op : Nat} (h : op ∉ mapOpcodes) : usedFields op = none :=
  (usedFields_eq op).trans (if_neg h)

/-- Every opcode of the map fits its field. -/
theorem usedFields_lt {op : Nat} {u : UsedFields} (h : usedFields op = some u) : op < 64 := by
  rw [usedFields_eq, Option.ite_none_right_eq_some] at h
  obtain ⟨hop, -⟩ := h
  simp only [mapOpcodes, List.mem_cons, List.not_mem_nil, or_false] at hop
  omega

/-- An opcode of the map names a command unless it is 0x10 or 0x11 with a width that is not supported (R76). -/
theorem commandOf_eq_none_iff {op : Nat} {u : UsedFields} (h : usedFields op = some u) (pd pa pb : PReg) (d : Nat) :
    commandOf op pd pa pb d = none ↔ op ∈ [0x10, 0x11] ∧ d ∉ [4, 5, 10, 11] := by
  unfold commandOf
  split
  case h_22 =>
    rw [usedFields_eq, Option.ite_none_right_eq_some] at h
    obtain ⟨hop, -⟩ := h
    simp only [mapOpcodes, List.mem_cons, List.not_mem_nil, or_false] at hop ⊢
    -- no row of the table fits: of the opcodes in the map only 0x10 and 0x11 have rows for some widths alone
    grind
  all_goals simp

/-- The operands that an opcode does not use are 0 (30_encoding.md R72). -/
def unusedOperandsZero (u : UsedFields) (pd pa pb : PReg) (d : Nat) : Bool :=
  (u.pd || pd == 0) && (u.pa || pa == 0) && (u.pb || pb == 0) && (u.d || d == 0)

theorem unusedZero_eq (u : UsedFields) (w : Word) :
    unusedZero u w
      = unusedOperandsZero u (pregOf (fieldPD w)) (pregOf (fieldPA w)) (pregOf (fieldPB w)) (fieldD w) := by
  have hpreg (lo : Nat) : (pregOf (bitField w lo 2) == 0) = (bitField w lo 2 == 0) := by
    rw [Bool.eq_iff_iff, beq_iff_eq, beq_iff_eq, Fin.ext_iff, pregOf_bitField, Fin.val_zero]
  simp only [unusedZero, unusedOperandsZero, fieldPD, fieldPA, fieldPB, hpreg]

/-- The command that an opcode and its operands name is encoded by them, if the operands it does not use are 0. -/
theorem encode_of_commandOf {op d : Nat} {pd pa pb : PReg} {u : UsedFields} {i : Instr} (hu : usedFields op = some u)
    (hzero : unusedOperandsZero u pd pa pb d = true) (hi : commandOf op pd pa pb d = some i) :
    encode i = commandWord op pd pa pb d := by
  unfold commandOf at hi
  split at hi
  case h_22 => cases hi
  all_goals
    cases hi
    cases hu
    simp only [unusedOperandsZero, Bool.false_or, Bool.true_or, Bool.and_true, Bool.true_and, Bool.and_eq_true,
      beq_iff_eq, and_assoc] at hzero
    simp [encode, hzero]

theorem fieldBits_eq_bitField (w : Word) (lo width : Nat) : fieldBits w lo width = bitField w lo width :=
  fieldBits_eq w lo width

/-! ### The decoder's outcomes (30_encoding.md R76) -/

/-- The command that the fields of a word name. -/
def namedCommand (w : Word) : Option Instr :=
  commandOf (fieldOp w) (pregOf (fieldPD w)) (pregOf (fieldPA w)) (pregOf (fieldPB w)) (fieldD w)

theorem namedCommand_eq_none_iff {w : Word} {u : UsedFields} (h : usedFields (fieldOp w) = some u) :
    namedCommand w = none ↔ fieldOp w ∈ [0x10, 0x11] ∧ fieldBits w 16 4 ∉ [4, 5, 10, 11] := by
  rw [fieldBits_eq_bitField]
  exact commandOf_eq_none_iff h _ _ _ _

theorem decode_illegalOp {w : Word} (h : usedFields (fieldOp w) = none) : decode w = .error .illegalOp := by
  simp [decode, h]

section KnownOp

variable {w : Word} {u : UsedFields} (hu : usedFields (fieldOp w) = some u)

include hu

theorem decode_reservedField (h : ¬(reservedZero w = true ∧ unusedZero u w = true)) :
    decode w = .error .reservedField := by
  cases hr : reservedZero w
  · simp [decode, hu, hr]
  · have hz : unusedZero u w = false := Bool.eq_false_iff.2 fun hz => h ⟨hr, hz⟩
    simp [decode, hu, hr, hz]

variable (hr : reservedZero w = true) (hz : unusedZero u w = true)

include hr hz

theorem decode_unsupportedD (h : namedCommand w = none) : decode w = .error .unsupportedD := by
  rw [namedCommand] at h
  simp [decode, hu, hr, hz, h]

theorem decode_command {i : Instr} (h : namedCommand w = some i) : decode w = .ok i := by
  rw [namedCommand] at h
  simp [decode, hu, hr, hz, h]

theorem encode_namedCommand {i : Instr} (h : namedCommand w = some i) : encode i = w := by
  rw [← commandWord_fields hr]
  exact encode_of_commandOf hu (unusedZero_eq u w ▸ hz) h

end KnownOp

/-- A word that is accepted passed every check, so it is the word of its fields. -/
theorem encode_of_decode {w : Word} {i : Instr} (h : decode w = .ok i) : encode i = w := by
  cases hu : usedFields (fieldOp w) with
  | none => cases (decode_illegalOp hu).symm.trans h
  | some u =>
    by_cases hzero : reservedZero w = true ∧ unusedZero u w = true
    · obtain ⟨hr, hz⟩ := hzero
      cases hi : namedCommand w with
      | none => cases (decode_unsupportedD hu hr hz hi).symm.trans h
      | some j =>
        cases (decode_command hu hr hz hi).symm.trans h
        exact encode_namedCommand hu hr hz hi
    · cases (decode_reservedField hu hzero).symm.trans h

/-- A word of fields that name a command, the unused ones 0, is accepted as that command. -/
theorem decode_commandWord {op d : Nat} {pd pa pb : PReg} {u : UsedFields} {i : Instr} (hd : d < 16)
    (hu : usedFields op = some u) (hzero : unusedOperandsZero u pd pa pb d = true)
    (hi : commandOf op pd pa pb d = some i) : decode (commandWord op pd pa pb d) = .ok i := by
  have hop := usedFields_lt hu
  obtain ⟨eop, epd, epa, epb, ed⟩ := fields_commandWord pd pa pb hop hd
  refine decode_command (u := u) ?_ (reservedZero_commandWord pd pa pb hop hd) ?_ ?_
  · rwa [eop]
  · rwa [unusedZero_eq, epd, epa, epb, ed, pregOf_val, pregOf_val, pregOf_val]
  · rwa [namedCommand, eop, epd, epa, epb, ed, pregOf_val, pregOf_val, pregOf_val]

theorem decode_encode (i : Instr) : decode (encode i) = .ok i := by
  cases i <;> exact decode_commandWord (by decide) rfl rfl rfl

/-- Settles O1: a command's word passes every check, and a word that passes them is the word of its fields. -/
theorem decodeEncodeAgree : Obligations.DecodeEncodeAgree := by
  intro w i
  constructor
  · exact encode_of_decode
  · rintro rfl
    exact decode_encode i

/-- Settles O5: each word is the encoding of its command. -/
theorem exampleWordsDecode : Obligations.ExampleWordsDecode := by
  refine ⟨?_, ?_, ?_, ?_, ?_, ?_, ?_⟩ <;> exact (decodeEncodeAgree _ _).2 rfl

theorem reservedZero_iff (w : Word) :
    reservedZero w = true ↔ ¬(fieldBits w 6 2 ≠ 0 ∨ fieldBits w 14 2 ≠ 0 ∨ fieldBits w 20 12 ≠ 0) := by
  simp [reservedZero, fieldBits_eq_bitField, and_assoc]

/-- The unused fields are 0 when none of the four, where the opcode is not on its list, holds anything else. -/
theorem unusedZero_listed_iff (op : Nat) (w : Word) :
    unusedZero (listedFields op) w = true ↔
      ¬((op ∉ [0x08, 0x09, 0x0A, 0x0B, 0x0C, 0x0D, 0x0E, 0x11, 0x13] ∧ fieldBits w 8 2 ≠ 0)
        ∨ (op ∉ [0x0A, 0x0B, 0x0C, 0x10, 0x12] ∧ fieldBits w 10 2 ≠ 0)
        ∨ (op ∉ [0x0A, 0x0B, 0x0C] ∧ fieldBits w 12 2 ≠ 0)
        ∨ (op ∉ [0x10, 0x11] ∧ fieldBits w 16 4 ≠ 0)) := by
  simp only [unusedZero, listedFields, Bool.and_eq_true, Bool.or_eq_true, decide_eq_true_eq, beq_iff_eq,
    fieldBits_eq_bitField, not_or, not_and_or, not_not, ne_eq, and_assoc]
  rfl

/-- Settles O3: the decoder's checks on the fields are the statement's, by the opcode map as lists. -/
theorem decoderOutcomes : Obligations.DecoderOutcomes := by
  intro w op known reserved unused badWidth
  have hop : op = fieldOp w := fieldBits_eq_bitField w 0 6
  clear_value op
  subst hop
  have hreserved : reservedZero w = true ↔ ¬reserved := reservedZero_iff w
  have hunused : unusedZero (listedFields (fieldOp w)) w = true ↔ ¬unused := unusedZero_listed_iff _ w
  refine ⟨fun hknown => decode_illegalOp ?_, fun hknown h => decode_reservedField (usedFields_listed hknown) ?_,
    fun hknown hr hz hd => ?_, fun hknown hr hz hd => ?_⟩
  · exact usedFields_unlisted hknown
  · exact fun ⟨hr, hz⟩ => h.elim (hreserved.1 hr) (hunused.1 hz)
  · have hnone := (namedCommand_eq_none_iff (usedFields_listed hknown)).2 hd
    exact decode_unsupportedD (usedFields_listed hknown) (hreserved.2 hr) (hunused.2 hz) hnone
  · cases hi : namedCommand w with
    | none => exact absurd ((namedCommand_eq_none_iff (usedFields_listed hknown)).1 hi) hd
    | some i =>
      have hok := decode_command (usedFields_listed hknown) (hreserved.2 hr) (hunused.2 hz) hi
      exact ⟨i, hok, encode_of_decode hok⟩

/-! ### Counting the accepted words (30_encoding.md R78) -/

/-- Decoding recovers the command. -/
theorem encode_injective : Function.Injective encode := by
  intro i j h
  have hdecode : decode (encode i) = .ok j := by rw [h, decode_encode]
  exact Except.ok.inj ((decode_encode i).symm.trans hdecode)

/-- The commands, one list for each of the five families. -/
def commandFamilies : List (List Instr) :=
  [[.montReduce, .barrettReduce, .toMont, .csubq],
    (List.finRange 4).flatMap fun pd => [.ntt pd, .invntt pd, .polyNormalize pd, .polyTomont pd],
    (List.finRange 4).flatMap fun pd => (List.finRange 4).flatMap fun pa => (List.finRange 4).flatMap fun pb =>
      [.polyAdd pd pa pb, .polySub pd pa pb, .polyBasemul pd pa pb],
    (List.finRange 4).flatMap fun r => (compressForms r ++ decompressForms r).map Prod.snd,
    (List.finRange 4).flatMap fun r => [.polyPack r, .polyUnpack r]]

/-- Every command, with every value of its operands. -/
def allCommands : List Instr := commandFamilies.flatten

theorem mem_allCommands (i : Instr) : i ∈ allCommands := by
  cases i <;> simp [allCommands, commandFamilies, compressForms, decompressForms]

/-- The place of a command in `allCommands`. -/
def commandIndex : Instr → Nat
  | .montReduce => 0
  | .barrettReduce => 1
  | .toMont => 2
  | .csubq => 3
  | .ntt pd => 4 + 4 * pd.val
  | .invntt pd => 5 + 4 * pd.val
  | .polyNormalize pd => 6 + 4 * pd.val
  | .polyTomont pd => 7 + 4 * pd.val
  | .polyAdd pd pa pb => 20 + 3 * (16 * pd.val + 4 * pa.val + pb.val)
  | .polySub pd pa pb => 21 + 3 * (16 * pd.val + 4 * pa.val + pb.val)
  | .polyBasemul pd pa pb => 22 + 3 * (16 * pd.val + 4 * pa.val + pb.val)
  | .polyCompressQ4 pa => 212 + 8 * pa.val
  | .polyCompressQ5 pa => 213 + 8 * pa.val
  | .polyCompressQ10 pa => 214 + 8 * pa.val
  | .polyCompressQ11 pa => 215 + 8 * pa.val
  | .polyDecompressQ4 pd => 216 + 8 * pd.val
  | .polyDecompressQ5 pd => 217 + 8 * pd.val
  | .polyDecompressQ10 pd => 218 + 8 * pd.val
  | .polyDecompressQ11 pd => 219 + 8 * pd.val
  | .polyPack pa => 244 + 2 * pa.val
  | .polyUnpack pd => 245 + 2 * pd.val

/-- The commands are numbered from 0 to 251 without a gap. -/
theorem map_commandIndex : allCommands.map commandIndex = List.range 252 := by decide +kernel

theorem allCommands_nodup : allCommands.Nodup :=
  List.Nodup.of_map commandIndex (map_commandIndex ▸ List.nodup_range)

theorem allCommands_length : allCommands.length = 252 := by
  rw [← List.length_map commandIndex, map_commandIndex, List.length_range]

/-- The opcode of a command (30_encoding.md R74). -/
def opcode : Instr → Nat
  | .montReduce => 0x01
  | .barrettReduce => 0x02
  | .toMont => 0x03
  | .csubq => 0x04
  | .ntt _ => 0x08
  | .invntt _ => 0x09
  | .polyAdd _ _ _ => 0x0A
  | .polySub _ _ _ => 0x0B
  | .polyBasemul _ _ _ => 0x0C
  | .polyNormalize _ => 0x0D
  | .polyTomont _ => 0x0E
  | .polyCompressQ4 _ | .polyCompressQ5 _ | .polyCompressQ10 _ | .polyCompressQ11 _ => 0x10
  | .polyDecompressQ4 _ | .polyDecompressQ5 _ | .polyDecompressQ10 _ | .polyDecompressQ11 _ => 0x11
  | .polyPack _ => 0x12
  | .polyUnpack _ => 0x13

theorem fieldBits_encode (i : Instr) : fieldBits (encode i) 0 6 = opcode i := by
  rw [fieldBits_eq_bitField]
  cases i <;> exact (fields_commandWord _ _ _ (by decide) (by decide)).1

/-- Settles O2: the list is that of the commands' words, one for each command. -/
theorem acceptedWordsNumber252 : Obligations.AcceptedWordsNumber252 := by
  refine ⟨fun w w' i i' hi hi' => ?_, allCommands.map encode, allCommands_nodup.map encode_injective, fun w => ?_,
    (List.length_map _).trans allCommands_length, ?_⟩
  · rw [← encode_of_decode hi, ← encode_of_decode hi', encode_injective.eq_iff]
  · simp [decodeEncodeAgree w, mem_allCommands]
  · simp only [List.filter_map, List.length_map, Function.comp_def, fieldBits_encode]
    simp [allCommands, commandFamilies, compressForms, decompressForms, opcode, List.length_flatMap,
      List.filter_flatMap]

/-! ### Issuing a command (30_encoding.md R80, 60_exceptions.md R236) -/

theorem issue_busy {s : State} (w : Word) (h : s.busy = true) :
    issue s w = { s with cmd := w, err := true, errcode := .cmdWhileBusy } := by
  simp [issue, h, raiseCmdError]

section IdleIssue

variable {s : State} {w : Word} (hidle : s.busy = false)

include hidle

theorem issue_error {c : ErrCode} (h : decode w = .error c) :
    issue s w = { s with cmd := w, err := true, errcode := c } := by
  simp [issue, hidle, h, raiseCmdError]

theorem issue_ok {i : Instr} (h : decode w = .ok i) :
    issue s w = { s with cmd := w, pending := some i, done := false } := by
  simp [issue, hidle, h, accept]

end IdleIssue

/-- The host's write of a word to CMD issues the word, busy or not. -/
theorem step_writeCmd {s : State} {es : List HostEvent} {w : Word} (hpin : s.resetPin = false)
    (he : s.events = .write (s.cfg.mrcBase + 0x00C) 4 w :: es) :
    step s = .next (respond (issue { s with events := es } w) .done) :=
  step_registerWrite hpin (by decide) (by decide) (.inr (by decide)) he

/-- Settles O6: the step is `issue`, in each of its three cases. -/
theorem issueProcedure : Obligations.IssueProcedure := by
  intro s es w hpin he
  rw [step_writeCmd hpin he]
  refine ⟨fun hb => ?_, fun hidle c hc => ?_, fun hidle i hi => ?_⟩
  · rw [issue_busy (s := { s with events := es }) w hb, respond]
  · rw [issue_error (s := { s with events := es }) hidle hc, respond]
  · rw [issue_ok (s := { s with events := es }) hidle hi, respond]

/-- A word that decodes is presented as accepted, with the core's turn next (log 2). -/
theorem withFetchWord_ok (s : State) {w : Word} {i : Instr} (h : decode w = .ok i) :
    s.withFetchWord 32 w.toNat
      = { s with
        cmd := w, pending := some i, done := false, resetPin := false, events := .coreTurn :: s.events } := by
  have hw : BitVec.ofNat 32 (w.toNat % 2 ^ 32) = w := by
    rw [Nat.mod_eq_of_lt w.isLt, BitVec.ofNat_toNat, BitVec.setWidth_eq]
  rw [State.withFetchWord, hw, presentCommand, h]
  rfl

/-- The core's turn on a busy block, first in the queue, performs the pending command. -/
theorem step_coreTurn_busy {s : State} {es : List HostEvent} {i : Instr} (he : s.events = .coreTurn :: es)
    (hpin : s.resetPin = false) (hp : s.pending = some i) : step s = exec i { s with events := es } := by
  obtain ⟨hbusy, -⟩ := stepPerformsPending s es hpin (.inr he)
  exact hbusy i hp

/-- Settles O11: the write and the presentation each leave the accepted state with the core next. -/
theorem writtenCommandRuns : Obligations.WrittenCommandRuns := by
  intro s es w i hi
  refine ⟨fun hpin hidle he => ?_, ?_⟩
  · obtain ⟨-, -, haccept⟩ := issueProcedure s _ w hpin he
    exact ⟨_, haccept hidle i hi, step_coreTurn_busy rfl hpin rfl⟩
  · rw [withFetchWord_ok s hi]
    exact step_coreTurn_busy rfl rfl rfl

/-! ### Performing a command (30_encoding.md R81) -/

/-- Every command answers a next state, and draws no value in exact mode (log 7). -/
theorem exec_completes (i : Instr) (s : State) :
    ∃ t, exec i s = .next t ∧ (ExactMode s → t.draws = s.draws) := by
  rcases exec_shape i s with ⟨-, -, ok, v, e⟩ | ⟨-, pd, ok, v, -, e⟩ | ⟨-, ok, d, v, -, -, e⟩ <;>
    exact ⟨_, e, fun h => drawsAfter_exact h _⟩

/-- Settles O12: by the three shapes of a command's result. -/
theorem everyCommandCompletes : Obligations.EveryCommandCompletes := by
  intro i s
  obtain ⟨t, h, hdraws⟩ := exec_completes i s
  obtain ⟨hpending, hdone, hside⟩ := exec_next h
  exact ⟨t, h, hpending, busy_mk_none t hpending, hdone, hside, hdraws⟩

end Sys2Proof.Machine

/-! ## Field arithmetic (40_field_arithmetic.md)

One specification for each scalar function: what it does to its input's value, with the residue and the range that
follow; then the statements of 40_field_arithmetic.md. -/

namespace Sys2Proof.Machine

/-! ### Residues -/

/-- The wrap and its argument differ by a multiple of 2^16. -/
theorem dvd_wrap16_sub (v : Int) : (2 ^ 16 : Int) ∣ (wrap16 v).toInt - v :=
  Int.ModEq.dvd (wrap16_emod v).symm

/-- The value of Q, for linear arithmetic. -/
theorem Q_eq : Q = 3329 := rfl

theorem congQ_iff_dvd {a b : Int} : CongQ a b ↔ (3329 : Int) ∣ a - b := Iff.rfl

theorem congQ_iff_modEq {a b : Int} : CongQ a b ↔ a ≡ b [ZMOD Q] := by
  rw [Int.modEq_comm, Int.modEq_iff_dvd, CongQ]

theorem CongQ.trans {a b c : Int} (hab : CongQ a b) (hbc : CongQ b c) : CongQ a c :=
  congQ_iff_modEq.2 ((congQ_iff_modEq.1 hab).trans (congQ_iff_modEq.1 hbc))

theorem CongQ.mul_right {a b : Int} (h : CongQ a b) (c : Int) : CongQ (a * c) (b * c) :=
  congQ_iff_modEq.2 ((congQ_iff_modEq.1 h).mul_right c)

/-- 2^16 is a unit modulo Q. -/
theorem CongQ.cancel_two_pow_16 {a b : Int} (h : CongQ (a * 2 ^ 16) (b * 2 ^ 16)) : CongQ a b := by
  rw [congQ_iff_dvd] at *
  omega

/-! ### montgomery_reduce (40_field_arithmetic.md R102, R103) -/

section Montgomery

variable (x : Int)

theorem montgomeryReduce_eq :
    montgomeryReduce x = wrap16 ((x - (wrap16 (x * 62209)).toInt * 3329) / 2 ^ 16) := rfl

/-- The subtraction of R102 is exact, because QINV is the inverse of Q modulo 2^16 (R101). -/
theorem montgomery_exact : (2 ^ 16 : Int) ∣ x - (wrap16 (x * 62209)).toInt * 3329 := by
  have hu := dvd_wrap16_sub (x * 62209)
  omega

variable {x}

/-- Up to 2^31 - 1 - 2^15 * Q the quotient is in int16, so the wrap does not change it. -/
theorem montgomeryReduce_toInt (h : |x| ≤ 2038398975) :
    (montgomeryReduce x).toInt = (x - (wrap16 (x * 62209)).toInt * 3329) / 2 ^ 16 := by
  obtain ⟨hlo, hhi⟩ := abs_le.1 h
  have hu := coeff_range (wrap16 (x * 62209))
  rw [montgomeryReduce_eq]
  exact wrap16_toInt_of_range (by omega) (by omega)

/-- With no wrap, 2^16 times the result is the exact difference of R102. -/
theorem montgomeryReduce_mul (h : |x| ≤ 2038398975) :
    (montgomeryReduce x).toInt * 2 ^ 16 = x - (wrap16 (x * 62209)).toInt * 3329 := by
  rw [montgomeryReduce_toInt h, Int.ediv_mul_cancel (montgomery_exact x)]

/-- montgomery_reduce multiplies by 2^-16 modulo Q. -/
theorem congQ_montgomeryReduce (h : |x| ≤ 2038398975) : CongQ ((montgomeryReduce x).toInt * 2 ^ 16) x := by
  rw [montgomeryReduce_mul h, congQ_iff_dvd]
  omega

/-- The contract of montgomery_reduce is within the range of no wrap. -/
theorem noWrap_of_contract (h : |x| < Q * 2 ^ 15) : |x| ≤ 2038398975 :=
  h.le.trans (by decide)

/-- In contract the result is strictly between -Q and Q. -/
theorem montgomeryReduce_range (h : |x| < Q * 2 ^ 15) :
    -Q < (montgomeryReduce x).toInt ∧ (montgomeryReduce x).toInt < Q := by
  have hmul := montgomeryReduce_mul (noWrap_of_contract h)
  have hu := coeff_range (wrap16 (x * 62209))
  obtain ⟨hlo, hhi⟩ := abs_lt.1 h
  rw [Q_eq] at *
  omega

end Montgomery

/-- Settles O16: u is the wrap of x * QINV. -/
theorem montgomeryDatapath : Obligations.MontgomeryDatapath := by
  intro x _ _
  obtain ⟨hlo, hhi⟩ := coeff_range (wrap16 (x * 62209))
  exact ⟨_, hlo, hhi, dvd_wrap16_sub _, montgomery_exact x, dvd_wrap16_sub _⟩

/-- Settles O17: the range and the residue from the exact quotient, and the corner values by evaluation. -/
theorem montgomeryContractHolds : Obligations.MontgomeryContractHolds := by
  refine ⟨fun x h => ?_, fun x h => ?_, fun x _ _ => montgomeryReduce_eq x, by decide⟩
  · obtain ⟨hlo, hhi⟩ := montgomeryReduce_range h
    exact ⟨hlo, hhi, congQ_montgomeryReduce (noWrap_of_contract h)⟩
  · exact ⟨congQ_montgomeryReduce h, montgomeryReduce_toInt h⟩

/-! ### barrett_reduce (40_field_arithmetic.md R105, R106) -/

theorem barrettReduce_eq (a : Coeff) :
    barrettReduce a = wrap16 (a.toInt - 20159 * a.toInt / 2 ^ 26 * 3329) := rfl

/-- The quotient t of R105 by its two bounds; a - t * Q does not wrap. As 20159 * Q = 2^26 + 447, t is floor(a / Q)
but at the negative multiples of Q, where the 447 makes it one less. -/
theorem barrettReduce_quotient (a : Coeff) :
    ∃ t : Int, 2 ^ 26 * t ≤ 20159 * a.toInt ∧ 20159 * a.toInt < 2 ^ 26 * (t + 1)
      ∧ (barrettReduce a).toInt = a.toInt - t * 3329 := by
  have ha := coeff_range a
  rw [barrettReduce_eq]
  exact ⟨20159 * a.toInt / 2 ^ 26, by omega, by omega, wrap16_toInt_of_range (by omega) (by omega)⟩

theorem barrettReduce_range (a : Coeff) : 0 ≤ (barrettReduce a).toInt ∧ (barrettReduce a).toInt ≤ Q := by
  obtain ⟨t, hle, hlt, ht⟩ := barrettReduce_quotient a
  have ha := coeff_range a
  rw [Q_eq]
  omega

theorem congQ_barrettReduce (a : Coeff) : CongQ (barrettReduce a).toInt a.toInt := by
  obtain ⟨t, -, -, ht⟩ := barrettReduce_quotient a
  rw [ht, congQ_iff_dvd]
  omega

/-- The result is Q exactly at the negative multiples of Q in int16. -/
theorem barrettReduce_eq_Q_iff (a : Coeff) :
    (barrettReduce a).toInt = Q ↔ ∃ k : Int, 1 ≤ k ∧ k ≤ 9 ∧ a.toInt = -3329 * k := by
  obtain ⟨t, hle, hlt, ht⟩ := barrettReduce_quotient a
  have ha := coeff_range a
  rw [Q_eq]
  constructor
  · intro hQ
    exact ⟨-(t + 1), by omega, by omega, by omega⟩
  · rintro ⟨k, hk1, hk9, hk⟩
    omega

/-- The result is 0 exactly at the other multiples of Q in int16. -/
theorem barrettReduce_eq_zero_iff (a : Coeff) :
    (barrettReduce a).toInt = 0 ↔ ∃ k : Int, 0 ≤ k ∧ k ≤ 9 ∧ a.toInt = 3329 * k := by
  obtain ⟨t, hle, hlt, ht⟩ := barrettReduce_quotient a
  have ha := coeff_range a
  constructor
  · intro h0
    exact ⟨t, by omega, by omega, by omega⟩
  · rintro ⟨k, hk0, hk9, hk⟩
    omega

/-- Settles O18: the range, the residue and the two exact sets, and the corner values by evaluation. -/
theorem barrettRange : Obligations.BarrettRange := by
  refine ⟨fun a => ?_, by decide⟩
  obtain ⟨h0, hQ⟩ := barrettReduce_range a
  exact ⟨h0, hQ, congQ_barrettReduce a, barrettReduce_eq_Q_iff a, barrettReduce_eq_zero_iff a⟩

/-! ### csubq (40_field_arithmetic.md R107, R108) -/

/-- Where a - Q does not wrap, csubq subtracts Q exactly when that leaves a value that is not negative. -/
theorem csubqReduce_toInt {a : Coeff} (h : -29439 ≤ a.toInt) :
    (csubqReduce a).toInt = if a.toInt < Q then a.toInt else a.toInt - Q := by
  have ha := coeff_range a
  have hQ := Q_eq
  have hsub : (wrap16 (a.toInt - Q)).toInt = a.toInt - Q := wrap16_toInt_of_range (by omega) (by omega)
  rw [csubqReduce, hsub]
  by_cases hlt : a.toInt < Q
  · rw [if_pos (by omega), if_pos hlt, sub_add_cancel, wrap16_toInt_self]
  · rw [if_neg (by omega), if_neg hlt, hsub]

/-- On [0, 2Q) csubq gives the canonical representative. -/
theorem csubqReduce_canonical {a : Coeff} (h0 : 0 ≤ a.toInt) (h2Q : a.toInt < 2 * Q) :
    0 ≤ (csubqReduce a).toInt ∧ (csubqReduce a).toInt < Q ∧ CongQ (csubqReduce a).toInt a.toInt := by
  rw [csubqReduce_toInt (by omega), congQ_iff_dvd]
  rw [Q_eq] at *
  split <;> omega

/-- On [-Q, 0) csubq is the identity. -/
theorem csubqReduce_of_neg {a : Coeff} (hQ : -Q ≤ a.toInt) (h0 : a.toInt < 0) : csubqReduce a = a := by
  rw [Q_eq] at hQ
  apply BitVec.eq_of_toInt_eq
  rw [csubqReduce_toInt (by omega), if_pos (by rw [Q_eq]; omega)]

/-- Settles O19: the two ranges, and the corner values by evaluation. -/
theorem csubqDomain : Obligations.CsubqDomain :=
  ⟨fun _ => csubqReduce_canonical, fun _ => csubqReduce_of_neg, by decide⟩

/-! ### to_montgomery (40_field_arithmetic.md R110, R111) -/

theorem toMontgomery_eq (a : Coeff) : toMontgomery a = montgomeryReduce (a.toInt * 1353) := rfl

/-- Every product with R^2 mod Q is in the contract of montgomery_reduce. -/
theorem toMontgomery_inContract (a : Coeff) : |a.toInt * 1353| < Q * 2 ^ 15 := by
  have ha := coeff_range a
  rw [abs_lt, Q_eq]
  omega

theorem toMontgomery_range (a : Coeff) : -Q < (toMontgomery a).toInt ∧ (toMontgomery a).toInt < Q :=
  montgomeryReduce_range (toMontgomery_inContract a)

/-- to_montgomery multiplies by 2^16 modulo Q, because 1353 is 2^32 modulo Q. -/
theorem congQ_toMontgomery (a : Coeff) : CongQ (toMontgomery a).toInt (a.toInt * 2 ^ 16) := by
  have hreduce : CongQ ((toMontgomery a).toInt * 2 ^ 16) (a.toInt * 1353) :=
    congQ_montgomeryReduce (noWrap_of_contract (toMontgomery_inContract a))
  have hsquare : CongQ (a.toInt * 1353) (a.toInt * 2 ^ 16 * 2 ^ 16) := by
    rw [congQ_iff_dvd]
    omega
  exact (hreduce.trans hsquare).cancel_two_pow_16

/-- montgomery_reduce undoes to_montgomery modulo Q. -/
theorem congQ_montgomeryReduce_toMontgomery (a : Coeff) :
    CongQ (montgomeryReduce (toMontgomery a).toInt).toInt a.toInt := by
  have hnoWrap : |(toMontgomery a).toInt| ≤ 2038398975 := by
    have hm := coeff_range (toMontgomery a)
    rw [abs_le]
    omega
  exact ((congQ_montgomeryReduce hnoWrap).trans (congQ_toMontgomery a)).cancel_two_pow_16

/-- Settles O20: the product is in contract, so R103 gives the range and the residues; the examples by evaluation. -/
theorem toMontgomeryIdentity : Obligations.ToMontgomeryIdentity := by
  refine ⟨fun a => ?_, by decide⟩
  obtain ⟨hlo, hhi⟩ := toMontgomery_range a
  exact ⟨toMontgomery_eq a, hlo, hhi, congQ_toMontgomery a, congQ_montgomeryReduce_toMontgomery a⟩

/-! ### The scalar commands (40_field_arithmetic.md R115 to R118) -/

theorem exec_barrettReduce (s : State) :
    exec .barrettReduce s = .next (scalarResult s true (barrettReduce (s.sin.setWidth 16))) := by
  rw [← low16_eq_setWidth]
  rfl

theorem exec_toMont (s : State) :
    exec .toMont s = .next (scalarResult s true (toMontgomery (s.sin.setWidth 16))) := by
  rw [← low16_eq_setWidth]
  rfl

/-- In exact mode a scalar command writes the rule's value, in contract or not. -/
theorem scalarResult_exact {s : State} (h : ExactMode s) (ok : Bool) (v : Coeff) :
    scalarResult s ok v = { s with sout := v, pending := none, done := true } := by
  simp [scalarResult, complete, observedCoeff_exact h, drawsAfter_exact h]

/-- Settles O21: each command is a scalar result, in exact mode or with no contract to break. -/
theorem scalarCommandResults : Obligations.ScalarCommandResults := by
  intro s
  rw [exec_montReduce, exec_barrettReduce, exec_toMont, exec_csubq]
  refine ⟨fun h => ?_, ?_, ?_, fun h => ?_⟩
  · rw [scalarResult_exact h]
  · rw [scalarResult_inContract rfl]
  · rw [scalarResult_inContract rfl]
  · rw [scalarResult_exact h]

end Sys2Proof.Machine

/-! ## The transforms (41_ntt.md)

A layer of either transform is a set of butterflies on pairs of places that do not meet. `IsLayer` says place by place
what a layer leaves; the group-by-group functions and the in-place loops both satisfy it, so they agree. The same
predicate on residues modulo Q carries the meaning of the transforms. -/

namespace Sys2Proof.Machine

/-! ### Butterflies and layers -/

/-- What a butterfly writes to its lower and to its upper place, from the two values it reads there. -/
structure Butterfly (α : Type) where
  lower : α → α → α
  upper : α → α → α

/-- The forward butterfly on coefficients with twiddle `z` (41_ntt.md R142). -/
def forwardCoeff (z : Int) : Butterfly Coeff where
  lower a b := wrap16 (a.toInt + (montgomeryReduce (z * b.toInt)).toInt)
  upper a b := wrap16 (a.toInt - (montgomeryReduce (z * b.toInt)).toInt)

/-- The inverse butterfly on coefficients, `z` the negated twiddle (41_ntt.md R146). -/
def inverseCoeff (z : Int) : Butterfly Coeff where
  lower a b := wrap16 (a.toInt + b.toInt)
  upper a b := montgomeryReduce (z * (wrap16 (a.toInt - b.toInt)).toInt)

/-- `d` is `c` after a layer of `G` groups of half-width `len`, group `m` with the butterfly `w m`. -/
def IsLayer {α : Type} (len G : Nat) (w : Nat → Butterfly α) (c d : Nat → α) : Prop :=
  ∀ m < G, ∀ r < len,
    d (m * (2 * len) + r) = (w m).lower (c (m * (2 * len) + r)) (c (m * (2 * len) + r + len))
      ∧ d (m * (2 * len) + r + len) = (w m).upper (c (m * (2 * len) + r)) (c (m * (2 * len) + r + len))

section Places

variable {len G : Nat}

/-- The places of group `m` come before those of the groups from `G` on. -/
theorem place_lt {m r : Nat} (hm : m < G) (hr : r < len) : m * (2 * len) + r + len < G * (2 * len) := by
  have hle : (m + 1) * (2 * len) ≤ G * (2 * len) := Nat.mul_le_mul_right _ hm
  rw [Nat.add_one_mul] at hle
  omega

/-- Every place is the lower or the upper place of one butterfly. -/
theorem forall_place {P : Nat → Prop}
    (h : ∀ m < G, ∀ r < len, P (m * (2 * len) + r) ∧ P (m * (2 * len) + r + len)) :
    ∀ i < G * (2 * len), P i := by
  intro i hi
  have hlen : 0 < 2 * len := Nat.pos_of_mul_pos_left (Nat.zero_lt_of_lt hi)
  have hm : i / (2 * len) < G := Nat.div_lt_of_lt_mul (by rwa [Nat.mul_comm])
  have hr := Nat.mod_lt i hlen
  have hi' : i / (2 * len) * (2 * len) + i % (2 * len) = i := Nat.div_add_mod' i _
  by_cases hlow : i % (2 * len) < len
  · exact hi' ▸ (h _ hm _ hlow).1
  · have hup := (h _ hm (i % (2 * len) - len) (by omega)).2
    rwa [Nat.add_assoc, Nat.sub_add_cancel (by omega), hi'] at hup

/-- A layer determines every place of its groups. -/
theorem IsLayer.unique {α : Type} {w : Nat → Butterfly α} {c d d' : Nat → α} (h : IsLayer len G w c d)
    (h' : IsLayer len G w c d') : ∀ i < G * (2 * len), d i = d' i :=
  forall_place fun m hm r hr =>
    ⟨(h m hm r hr).1.trans (h' m hm r hr).1.symm, (h m hm r hr).2.trans (h' m hm r hr).2.symm⟩

end Places

/-- A polynomial value is the list it agrees with place by place. -/
theorem toList_eq_of_coeff {c : Poly} {l : List Coeff} (hl : l.length = 256)
    (h : ∀ i < 256, coeff c i = l.getD i 0) : c.toList = l := by
  rw [poly_ext_coeff (b := polyOfList l hl) fun i hi => (h i hi).trans (coeff_polyOfList l hl i).symm,
    polyOfList_toList]

/-- The last round of a loop over the values `f 0`, `f 1`, … -/
theorem foldl_map_range_succ {α β : Type} (g : α → β → α) (f : Nat → β) (a : α) (n : Nat) :
    ((List.range (n + 1)).map f).foldl g a = g (((List.range n).map f).foldl g a) (f n) := by
  simp [List.range_succ]

/-! ### A layer group by group -/

/-- `n` groups of half-width `len`, one after another. -/
def groupLayer (len : Nat) : Nat → (Nat → Butterfly Coeff) → List Coeff → List Coeff
  | 0, _, c => c
  | n + 1, w, c =>
    List.zipWith (w 0).lower (c.take len) ((c.drop len).take len)
      ++ List.zipWith (w 0).upper (c.take len) ((c.drop len).take len)
      ++ groupLayer len n (fun m => w (m + 1)) (c.drop (2 * len))

theorem nttGroup_eq (z : Int) (lo hi : List Coeff) :
    nttGroup z lo hi
      = List.zipWith (forwardCoeff z).lower lo hi ++ List.zipWith (forwardCoeff z).upper lo hi := by
  simp [nttGroup, forwardCoeff, List.zipWith_map_right]

theorem nttGroups_eq (len n k : Nat) (c : List Coeff) :
    nttGroups len n k c = groupLayer len n (fun m => forwardCoeff (zeta (k + m))) c := by
  induction n generalizing k c with
  | zero => rfl
  | succ n ih => simp [nttGroups, nttGroup_eq, groupLayer, ih, Nat.add_assoc, Nat.add_comm 1]

theorem invGroups_eq (len n k : Nat) (c : List Coeff) :
    invGroups len n k c = groupLayer len n (fun m => inverseCoeff (-zeta (k - m))) c := by
  induction n generalizing k c with
  | zero => rfl
  | succ n ih => simp [invGroups, invGroup, groupLayer, ih, inverseCoeff, Nat.sub_sub, Nat.add_comm 1]

/-- The places of a first group, and those of what follows it. -/
theorem getD_group {len : Nat} (b : Butterfly Coeff) {lo hi : List Coeff} (hlo : lo.length = len)
    (hhi : hi.length = len) (tail : List Coeff) :
    (∀ r < len,
      (List.zipWith b.lower lo hi ++ List.zipWith b.upper lo hi ++ tail).getD r 0
          = b.lower (lo.getD r 0) (hi.getD r 0)
        ∧ (List.zipWith b.lower lo hi ++ List.zipWith b.upper lo hi ++ tail).getD (r + len) 0
          = b.upper (lo.getD r 0) (hi.getD r 0))
      ∧ ∀ i, (List.zipWith b.lower lo hi ++ List.zipWith b.upper lo hi ++ tail).getD (2 * len + i) 0
          = tail.getD i 0 := by
  refine ⟨fun r hr => ⟨?_, ?_⟩, fun i => ?_⟩
  · simp [List.getD_eq_getElem?_getD, List.getElem?_append, hlo, hhi, hr]
  · simp [List.getD_eq_getElem?_getD, List.getElem?_append, hlo, hhi, hr]
  · have hlength : (List.zipWith b.lower lo hi ++ List.zipWith b.upper lo hi).length = 2 * len := by
      simp [hlo, hhi, two_mul]
    rw [List.getD_append_right _ _ _ _ (by omega), hlength, Nat.add_sub_cancel_left]

section GroupLayer

variable {len G : Nat} (w : Nat → Butterfly Coeff) {c : List Coeff} (h : c.length = G * (2 * len))

include h

theorem isLayer_groupLayer : IsLayer len G w (c.getD · 0) ((groupLayer len G w c).getD · 0) := by
  induction G generalizing w c with
  | zero => exact fun m hm => absurd hm (Nat.not_lt_zero m)
  | succ G ih =>
    rw [Nat.add_one_mul] at h
    have htail := ih (fun m => w (m + 1)) (c := c.drop (2 * len)) (by simp [h])
    obtain ⟨hhead, hrest⟩ := getD_group (len := len) (w 0) (lo := c.take len) (hi := (c.drop len).take len)
      (by simp [h]; omega) (by simp [h]; omega) (groupLayer len G (fun m => w (m + 1)) (c.drop (2 * len)))
    rintro (_ | m) hm r hr
    · simpa [groupLayer, List.getD_eq_getElem?_getD, hr, Nat.add_comm len] using hhead r hr
    · have hplace : (m + 1) * (2 * len) + r = 2 * len + (m * (2 * len) + r) := by ring
      rw [hplace, Nat.add_assoc (2 * len)]
      simp only [groupLayer, hrest]
      simpa [List.getD_eq_getElem?_getD] using htail m (by omega) r hr

theorem groupLayer_length : (groupLayer len G w c).length = c.length := by
  induction G generalizing w c with
  | zero => rfl
  | succ G ih =>
    rw [Nat.add_one_mul] at h
    simp [groupLayer, h, ih (c := c.drop (2 * len))]
    omega

end GroupLayer

/-! ### A layer in place -/

/-- A butterfly done in place on the coefficients at `j` and `j + len`. -/
def pairUpdate (len : Nat) (b : Butterfly Coeff) (c : Poly) (j : Nat) : Poly :=
  setCoeff (setCoeff c j (b.lower (coeff c j) (coeff c (j + len)))) (j + len)
    (b.upper (coeff c j) (coeff c (j + len)))

/-- `G` groups of half-width `len` in place, group `m` with the butterfly `w m`. -/
def layerInPlace (len G : Nat) (w : Nat → Butterfly Coeff) (c : Poly) : Poly :=
  (List.range G).foldl (fun c m => (List.range' (m * (2 * len)) len).foldl (pairUpdate len (w m)) c) c

theorem layerInPlace_succ (len G : Nat) (w : Nat → Butterfly Coeff) (c : Poly) :
    layerInPlace len (G + 1) w c
      = (List.range' (G * (2 * len)) len).foldl (pairUpdate len (w G)) (layerInPlace len G w c) := by
  simp [layerInPlace, List.range_succ]

theorem coeff_pairUpdate {len : Nat} (hlen : 0 < len) (b : Butterfly Coeff) (c : Poly) {j : Nat}
    (hj : j + len < 256) (i : Nat) :
    coeff (pairUpdate len b c j) i
      = if i = j then b.lower (coeff c j) (coeff c (j + len))
        else if i = j + len then b.upper (coeff c j) (coeff c (j + len)) else coeff c i := by
  simp only [pairUpdate, coeff_setCoeff]
  grind

/-- What the first `n` butterflies of a group leave. -/
theorem coeff_foldl_pairUpdate {len start n : Nat} (hn : n ≤ len) (hs : start + 2 * len ≤ 256) (b : Butterfly Coeff)
    (c : Poly) (i : Nat) :
    coeff ((List.range' start n).foldl (pairUpdate len b) c) i
      = if start ≤ i ∧ i < start + n then b.lower (coeff c i) (coeff c (i + len))
        else if start + len ≤ i ∧ i < start + len + n then b.upper (coeff c (i - len)) (coeff c i)
        else coeff c i := by
  induction n generalizing i with
  | zero => rw [if_neg (by omega), if_neg (by omega)]; rfl
  | succ n ih =>
    rw [List.range'_1_concat, List.foldl_append, List.foldl_cons, List.foldl_nil,
      coeff_pairUpdate (by omega) _ _ (by omega)]
    simp only [ih (Nat.le_of_succ_le hn)]
    grind

/-- The groups before `G` are done and every later place is as before. -/
theorem layerInPlace_spec {len G : Nat} (h : G * (2 * len) ≤ 256) (w : Nat → Butterfly Coeff) (c : Poly) :
    IsLayer len G w (coeff c) (coeff (layerInPlace len G w c))
      ∧ ∀ i, G * (2 * len) ≤ i → coeff (layerInPlace len G w c) i = coeff c i := by
  induction G with
  | zero => exact ⟨fun m hm => absurd hm (Nat.not_lt_zero m), fun _ _ => rfl⟩
  | succ G ih =>
    rw [Nat.add_one_mul] at h ⊢
    obtain ⟨hdone, hrest⟩ := ih (by omega)
    simp only [IsLayer, layerInPlace_succ, coeff_foldl_pairUpdate le_rfl h]
    refine ⟨fun m hm r hr => ?_, fun i hi => ?_⟩
    · obtain hm | rfl := Nat.lt_succ_iff_lt_or_eq.1 hm
      · have hlt := place_lt hm hr
        rw [if_neg (by omega), if_neg (by omega), if_neg (by omega), if_neg (by omega)]
        exact hdone m hm r hr
      · rw [if_pos (by omega), if_neg (by omega), if_pos (by omega), hrest _ (by omega), hrest _ (by omega),
          Nat.add_sub_cancel, hrest _ (by omega)]
        exact ⟨rfl, rfl⟩
    · rw [if_neg (by omega), if_neg (by omega), hrest i (by omega)]

/-- In place or group by group, a layer is the same. -/
theorem toList_layerInPlace {len G : Nat} (h : G * (2 * len) = 256) (w : Nat → Butterfly Coeff) (c : Poly) :
    (layerInPlace len G w c).toList = groupLayer len G w c.toList := by
  have hc : c.toList.length = G * (2 * len) := by simp [h]
  exact toList_eq_of_coeff (by rw [groupLayer_length w hc, hc, h]) fun i hi =>
    (layerInPlace_spec h.le w c).1.unique (isLayer_groupLayer w hc) i (h ▸ hi)

/-- The spec writes the upper place first, then adds to the lower place, which that write has left alone. -/
theorem forwardButterfly_eq (z : Int) {len : Nat} (hlen : 0 < len) :
    forwardButterfly z len = pairUpdate len (forwardCoeff z) := by
  funext c j
  apply poly_ext_coeff
  intro i hi
  simp only [forwardButterfly, pairUpdate, coeff_setCoeff, forwardCoeff]
  grind

theorem inverseButterfly_eq (z : Int) (len : Nat) : inverseButterfly z len = pairUpdate len (inverseCoeff z) := rfl

/-- The forward loop over `start` is a layer whose twiddle index rises before each group. -/
theorem foldl_forwardGroupLoop {len : Nat} (hlen : 0 < len) (G k : Nat) (c : Poly) :
    ((List.range G).map (· * (2 * len))).foldl (forwardGroupLoop len) (k, c)
      = (k + G, layerInPlace len G (fun m => forwardCoeff (zeta (k + 1 + m))) c) := by
  induction G with
  | zero => rfl
  | succ G ih =>
    rw [foldl_map_range_succ, ih, layerInPlace_succ]
    simp [forwardGroupLoop, forwardButterfly_eq _ hlen, Nat.add_assoc, Nat.add_comm 1]

/-- The inverse loop over `start` is a layer whose twiddle index falls before each group. -/
theorem foldl_inverseGroupLoop (len G k : Nat) (c : Poly) :
    ((List.range G).map (· * (2 * len))).foldl (inverseGroupLoop len) (k, c)
      = (k - G, layerInPlace len G (fun m => inverseCoeff (-zeta (k - 1 - m))) c) := by
  induction G with
  | zero => rfl
  | succ G ih =>
    rw [foldl_map_range_succ, ih, layerInPlace_succ]
    simp [inverseGroupLoop, inverseButterfly_eq, Nat.sub_sub, Nat.add_comm 1]

/-! ### The forward transform layer by layer -/

/-- Layer `n` of the forward transform, of 2^n groups of half-width 2^(7-n) (41_ntt.md R140). -/
theorem forwardLayer_shape {n : Nat} (hn : n ≤ 7) :
    2 ^ n * (2 * 2 ^ (7 - n)) = 256 ∧ 128 / 2 ^ (7 - n) = 2 ^ n := by
  interval_cases n <;> decide

theorem nttLens_eq : nttLens = (List.range 7).map fun n => 2 ^ (7 - n) := by decide

/-- The value after `n` layers of the forward transform. -/
def forwardAfter (c : Poly) : Nat → Poly
  | 0 => c
  | n + 1 => layerInPlace (2 ^ (7 - n)) (2 ^ n) (fun m => forwardCoeff (zeta (2 ^ n + m))) (forwardAfter c n)

theorem isLayer_forwardAfter (c : Poly) {n : Nat} (hn : n < 7) :
    IsLayer (2 ^ (7 - n)) (2 ^ n) (fun m => forwardCoeff (zeta (2 ^ n + m))) (coeff (forwardAfter c n))
      (coeff (forwardAfter c (n + 1))) :=
  (layerInPlace_spec (forwardLayer_shape hn.le).1.le _ _).1

/-- After `n` layers the loops have used the twiddles below 2^n. -/
theorem foldl_forwardLoops (c : Poly) {n : Nat} (hn : n ≤ 7) :
    ((List.range n).map fun n => 2 ^ (7 - n)).foldl
        (fun kc len => (starts len).foldl (forwardGroupLoop len) kc) (0, c)
      = (2 ^ n - 1, forwardAfter c n) := by
  induction n with
  | zero => rfl
  | succ n ih =>
    have hk : 2 ^ n - 1 + 1 = 2 ^ n := Nat.sub_add_cancel Nat.one_le_two_pow
    rw [foldl_map_range_succ, ih (by omega), starts, (forwardLayer_shape (by omega)).2,
      foldl_forwardGroupLoop (Nat.two_pow_pos _), hk, forwardAfter]
    congr 1
    omega

theorem foldl_nttLayer (c : Poly) {n : Nat} (hn : n ≤ 7) :
    ((List.range n).map fun n => 2 ^ (7 - n)).foldl (fun c len => nttLayer len c) c.toList
      = (forwardAfter c n).toList := by
  induction n with
  | zero => rfl
  | succ n ih =>
    obtain ⟨hplaces, hgroups⟩ := forwardLayer_shape (n := n) (by omega)
    rw [foldl_map_range_succ, ih (by omega), nttLayer, hgroups, nttGroups_eq, forwardAfter,
      toList_layerInPlace hplaces]

theorem ntt_eq_forwardAfter (c : Poly) : ntt c = forwardAfter c 7 := by
  apply poly_ext
  rw [ntt, polyOfList_toList, nttLayers, nttLens_eq, foldl_nttLayer c le_rfl]

theorem nttLoops_eq_ntt (c : Poly) : nttLoops c = ntt c := by
  rw [ntt_eq_forwardAfter, nttLoops, nttLens_eq, foldl_forwardLoops c le_rfl]

/-! ### The inverse transform layer by layer -/

/-- `f` applied in place, one place after another. -/
theorem coeff_foldl_setCoeff (f : Coeff → Coeff) {js : List Nat} (hjs : js.Nodup) (c : Poly) {i : Nat} (hi : i < 256) :
    coeff (js.foldl (fun c j => setCoeff c j (f (coeff c j))) c) i
      = if i ∈ js then f (coeff c i) else coeff c i := by
  induction js generalizing c with
  | nil => rfl
  | cons j js ih =>
    obtain ⟨hj, hjs⟩ := List.nodup_cons.1 hjs
    rw [List.foldl_cons, ih hjs, coeff_setCoeff]
    grind

theorem indicesOf_eq (set : IndexSet) : indicesOf set = (List.range 256).filter fun i => set.toList.getD i false := by
  have hzip : (List.range 256).zip set.toList = (List.range 256).map fun i => (i, set.toList.getD i false) := by
    apply List.ext_getElem
    · simp
    · intro i hi _
      have hset : i < set.toList.length := List.lt_length_right_of_zip hi
      simp only [List.getElem_zip, List.getElem_map, List.getElem_range, List.getD_eq_getElem _ _ hset]
  rw [indicesOf, hzip, List.filterMap_map, ← List.filterMap_eq_filter]
  rfl

/-- The scheduled reductions, in increasing order of index, reduce the places of the set (41_ntt.md R145, R146). -/
theorem coeff_reduceLoop (set : IndexSet) (c : Poly) {i : Nat} (hi : i < 256) :
    coeff (reduceLoop set c) i = if set.toList.getD i false then barrettReduce (coeff c i) else coeff c i := by
  rw [reduceLoop, indicesOf_eq, coeff_foldl_setCoeff barrettReduce (List.nodup_range.filter _) c hi]
  simp [hi]

theorem toList_reduceLoop (set : IndexSet) (c : Poly) :
    (reduceLoop set c).toList = reduceSet set.toList c.toList := by
  refine toList_eq_of_coeff (by simp [reduceSet]) fun i hi => ?_
  rw [coeff_reduceLoop set c hi]
  simp [reduceSet, coeff, List.getD_eq_getElem?_getD, hi]

/-- Layer `n` of the inverse transform, counted from 0, of 2^(6-n) groups of half-width 2^(n+1) (41_ntt.md R146). -/
theorem inverseLayer_shape {n : Nat} (hn : n < 7) :
    2 ^ (6 - n) * (2 * 2 ^ (n + 1)) = 256 ∧ 128 / 2 ^ (n + 1) = 2 ^ (6 - n)
      ∧ 2 ^ (7 - n) = 2 * 2 ^ (6 - n) := by
  interval_cases n <;> decide

theorem invLevels_eq : invLevels = (List.range 7).map (· + 1) := by decide

/-- The value after `n` layers of the inverse transform, each with its scheduled reductions. -/
def inverseAfter (sched : Schedule) (c : Poly) : Nat → Poly
  | 0 => c
  | n + 1 =>
    reduceLoop (sched.toList.getD n (Vector.replicate 256 false))
      (layerInPlace (2 ^ (n + 1)) (2 ^ (6 - n)) (fun m => inverseCoeff (-zeta (2 ^ (7 - n) - 1 - m)))
        (inverseAfter sched c n))

section InverseLoops

variable (sched : Schedule) (c : Poly)

/-- After `n` layers the loops have used the twiddles from 2^(7-n) on. -/
theorem foldl_inverseLayerLoop {n : Nat} (hn : n ≤ 7) :
    ((List.range n).map (· + 1)).foldl (inverseLayerLoop sched) (128, c)
      = (2 ^ (7 - n), inverseAfter sched c n) := by
  induction n with
  | zero => rfl
  | succ n ih =>
    obtain ⟨-, hgroups, hk⟩ := inverseLayer_shape (n := n) (by omega)
    rw [foldl_map_range_succ, ih (by omega), inverseLayerLoop, starts, hgroups, foldl_inverseGroupLoop, inverseAfter,
      Nat.add_sub_cancel, show 7 - (n + 1) = 6 - n by omega]
    congr 1
    omega

theorem foldl_invLayer {n : Nat} (hn : n ≤ 7) :
    ((List.range n).map (· + 1)).foldl (fun c l => invLayer sched l c) c.toList = (inverseAfter sched c n).toList := by
  induction n with
  | zero => rfl
  | succ n ih =>
    obtain ⟨hplaces, hgroups, hk⟩ := inverseLayer_shape (n := n) (by omega)
    rw [foldl_map_range_succ, ih (by omega), invLayer, hgroups, invGroups_eq, inverseAfter, toList_reduceLoop,
      toList_layerInPlace hplaces, hk, Nat.add_sub_cancel]

theorem invntt_eq_scaled_inverseAfter :
    invntt sched c = polyMap (fun x => montgomeryReduce (x.toInt * fInv)) (inverseAfter sched c 7) := by
  apply poly_ext
  rw [invntt, polyOfList_toList, invLayers, invLevels_eq, foldl_invLayer sched c le_rfl, invScale, polyMap_toList]

theorem coeff_invntt {i : Nat} (hi : i < 256) :
    coeff (invntt sched c) i = montgomeryReduce (fInv * (coeff (inverseAfter sched c 7) i).toInt) := by
  rw [invntt_eq_scaled_inverseAfter, coeff_polyMap _ _ hi, mul_comm]

theorem invnttLoops_eq_invntt : invnttLoops sched c = invntt sched c := by
  rw [invnttLoops, invLevels_eq, foldl_inverseLayerLoop sched c le_rfl]
  apply poly_ext_coeff
  intro i hi
  rw [coeff_foldl_setCoeff (fun x => montgomeryReduce (x.toInt * fInv)) List.nodup_range _ hi,
    if_pos (List.mem_range.2 hi), coeff_invntt _ _ hi, mul_comm]

end InverseLoops

/-! ### NTT and INVNTT (41_ntt.md R150, R151) -/

/-- In exact mode a polynomial command writes the rule's value, in contract or not. -/
theorem polyResult_exact {s : State} (h : ExactMode s) (pd : PReg) (ok : Fin 256 → Bool) (v : Poly) :
    polyResult s pd ok v = { s with p := s.p.set pd v, pending := none, done := true } := by
  simp [polyResult, complete, setPoly, observedPoly_exact h, drawsAfter_exact h]

/-- A polynomial command with every lane in contract, in either mode. -/
theorem polyResult_inContract (s : State) (pd : PReg) {ok : Fin 256 → Bool} (h : ∀ i, ok i = true) (v : Poly) :
    polyResult s pd ok v = { s with p := s.p.set pd v, pending := none, done := true } := by
  simp [polyResult, complete, setPoly, observedPoly_all h, (allLanes_iff ok).2 h, drawsAfter_true]

theorem polyResult_allAbsLe {s : State} {b : Int} {c : Poly} (h : ExactMode s ∨ CoeffsWithin b c) (pd : PReg)
    (v : Poly) :
    polyResult s pd (fun _ => allAbsLe b c) v = { s with p := s.p.set pd v, pending := none, done := true } := by
  obtain h | h := h
  · exact polyResult_exact h pd _ v
  · exact polyResult_inContract s pd (fun _ => (allAbsLe_iff b c).2 h) v

theorem exec_ntt (pd : PReg) (s : State) :
    exec (.ntt pd) s = .next (polyResult s pd (fun _ => allAbsLe 9471 (polyReg s pd)) (ntt (polyReg s pd))) := rfl

theorem exec_invntt (pd : PReg) (s : State) :
    exec (.invntt pd) s
      = .next (polyResult s pd (fun _ => allAbsLe 16383 (polyReg s pd)) (invntt s.cfg.invSchedule (polyReg s pd))) :=
  rfl

/-- Settles O23: group by group or in place, each layer is the same. -/
theorem nttRunsTheLoops : Obligations.NttRunsTheLoops := by
  intro s pd h
  rw [exec_ntt, polyResult_allAbsLe h, nttLoops_eq_ntt]

/-- Settles O24: so it is for the inverse layers, their reductions and the scaling, whatever the schedule. -/
theorem invnttRunsTheLoops : Obligations.InvnttRunsTheLoops := by
  intro s pd h
  rw [exec_invntt, polyResult_allAbsLe h, invnttLoops_eq_invntt]

/-! ### Ranges (41_ntt.md R143, R147) -/

theorem abs_zeta_lt (k : Nat) : |zeta k| < Q := by
  have htable : ∀ z ∈ zetas, |z| < Q := by decide +kernel
  obtain hk | hk := lt_or_ge k zetas.length
  · rw [zeta, List.getD_eq_getElem _ _ hk]
    exact htable _ (List.getElem_mem hk)
  · rw [zeta, List.getD_eq_default _ _ hk]
    decide

theorem abs_neg_zeta_lt (k : Nat) : |-zeta k| < Q := (abs_neg _).trans_lt (abs_zeta_lt k)

section Product

variable {z : Int} (hz : |z| < Q) (x : Coeff)

include hz

/-- The product of a constant below Q and any int16 is in the contract of montgomery_reduce. -/
theorem product_inContract : |z * x.toInt| < Q * 2 ^ 15 := by
  have hx : |x.toInt| ≤ 2 ^ 15 := by have := coeff_range x; rw [abs_le]; omega
  rw [abs_mul]
  exact (mul_le_mul_of_nonneg_left hx (abs_nonneg z)).trans_lt (mul_lt_mul_of_pos_right hz (by decide))

theorem montgomeryReduce_product_range :
    -3328 ≤ (montgomeryReduce (z * x.toInt)).toInt ∧ (montgomeryReduce (z * x.toInt)).toInt ≤ 3328 := by
  have hrange := montgomeryReduce_range (product_inContract hz x)
  rw [Q_eq] at hrange
  omega

end Product

/-- Settles O27: the last step multiplies an int16 by F_INV, which is below Q. -/
theorem invnttOutputRange : Obligations.InvnttOutputRange := by
  intro sched c i hi
  rw [coeff_invntt _ _ hi]
  exact montgomeryReduce_range (product_inContract (by decide) _)

/-- With the lower input at most 32767 - 3328 in magnitude neither wrap of the butterfly changes a value. -/
theorem forwardCoeff_toInt {b z : Int} (hb : b + 3328 ≤ 32767) (hz : |z| < Q) {x : Coeff}
    (hx : -b ≤ x.toInt ∧ x.toInt ≤ b) (y : Coeff) :
    ((forwardCoeff z).lower x y).toInt = x.toInt + (montgomeryReduce (z * y.toInt)).toInt
      ∧ ((forwardCoeff z).upper x y).toInt = x.toInt - (montgomeryReduce (z * y.toInt)).toInt := by
  have ht := montgomeryReduce_product_range hz y
  exact ⟨wrap16_toInt_of_range (by omega) (by omega), wrap16_toInt_of_range (by omega) (by omega)⟩

/-- A forward layer adds at most 3328 to the magnitude. -/
theorem forwardLayer_range {len G : Nat} (hplaces : G * (2 * len) = 256) {c d : Poly} {k : Nat → Nat} {b : Int}
    (hb : b + 3328 ≤ 32767) (hc : CoeffsWithin b c)
    (h : IsLayer len G (fun m => forwardCoeff (zeta (k m))) (coeff c) (coeff d)) : CoeffsWithin (b + 3328) d := by
  rw [CoeffsWithin, ← hplaces]
  refine forall_place fun m hm r hr => ?_
  have hlt := place_lt hm hr
  have hx := hc (m * (2 * len) + r) (by omega)
  have ht := montgomeryReduce_product_range (abs_zeta_lt (k m)) (coeff c (m * (2 * len) + r + len))
  obtain ⟨hlower, hupper⟩ := forwardCoeff_toInt hb (abs_zeta_lt (k m)) hx (coeff c (m * (2 * len) + r + len))
  rw [(h m hm r hr).1, (h m hm r hr).2, hlower, hupper]
  omega

theorem forwardAfter_range {b : Int} (hb : b ≤ 9471) {c : Poly} (hc : CoeffsWithin b c) {n : Nat} (hn : n ≤ 7) :
    CoeffsWithin (b + n * 3328) (forwardAfter c n) := by
  induction n with
  | zero => simpa [forwardAfter] using hc
  | succ n ih =>
    have h := forwardLayer_range (forwardLayer_shape (by omega)).1 (by omega) (ih (by omega))
      (isLayer_forwardAfter c hn)
    rwa [add_assoc, ← add_one_mul, ← Nat.cast_add_one] at h

/-- Settles O25: 3328 for each of seven layers, and canonical coefficients are within 3328. -/
theorem nttGrowthBound : Obligations.NttGrowthBound := by
  have hgrowth (c : Poly) (b : Int) (hb : b ≤ 9471) (hc : CoeffsWithin b c) : CoeffsWithin (b + 7 * 3328) (ntt c) :=
    ntt_eq_forwardAfter c ▸ forwardAfter_range hb hc le_rfl
  refine ⟨hgrowth, fun c hc => hgrowth c 3328 (by decide) fun i hi => ?_⟩
  have hi := hc i hi
  rw [Q_eq] at hi
  omega

/-! ### Residues -/

theorem congQ_iff_cast {a b : Int} : CongQ a b ↔ (a : ZMod 3329) = b :=
  congQ_iff_modEq.trans (ZMod.intCast_eq_intCast_iff a b 3329).symm

/-- The residue of a coefficient modulo Q. -/
def residue (c : Poly) (i : Nat) : ZMod 3329 := (coeff c i).toInt

/-- The residue that ZETAS[k] is the Montgomery form of; 169 is the inverse of 2^16 modulo Q. -/
def twiddle (k : Nat) : ZMod 3329 := zeta k * 169

theorem zeta_cast (k : Nat) : (zeta k : ZMod 3329) = twiddle k * (2 ^ 16 : Int) := by
  have hunit : (169 * (2 ^ 16 : Int) : ZMod 3329) = 1 := by decide
  rw [twiddle, mul_assoc, hunit, mul_one]

theorem montgomeryReduce_cast {x : Int} (h : |x| ≤ 2038398975) :
    ((montgomeryReduce x).toInt : ZMod 3329) = x * 169 := by
  have hunit : (2 ^ 16 * 169 : ZMod 3329) = 1 := by decide
  have hx := congQ_iff_cast.1 (congQ_montgomeryReduce h)
  rw [Int.cast_mul, Int.cast_pow, Int.cast_ofNat] at hx
  rw [← hx, mul_assoc, hunit, mul_one]

theorem montgomeryReduce_product_cast {z : Int} (hz : |z| < Q) (x : Coeff) :
    ((montgomeryReduce (z * x.toInt)).toInt : ZMod 3329) = z * 169 * x.toInt := by
  rw [montgomeryReduce_cast (noWrap_of_contract (product_inContract hz x)), Int.cast_mul, mul_right_comm]

/-- The forward butterfly on residues. -/
def forwardResidue (z : ZMod 3329) : Butterfly (ZMod 3329) where
  lower a b := a + z * b
  upper a b := a - z * b

/-- The inverse butterfly on residues, `z` the negated twiddle. -/
def inverseResidue (z : ZMod 3329) : Butterfly (ZMod 3329) where
  lower a b := a + b
  upper a b := z * (a - b)

/-- Within the range of no wrap a forward layer is a layer on residues. -/
theorem forwardLayer_residue {len G : Nat} (hplaces : G * (2 * len) = 256) {c d : Poly} {k : Nat → Nat} {b : Int}
    (hb : b + 3328 ≤ 32767) (hc : CoeffsWithin b c)
    (h : IsLayer len G (fun m => forwardCoeff (zeta (k m))) (coeff c) (coeff d)) :
    IsLayer len G (fun m => forwardResidue (twiddle (k m))) (residue c) (residue d) := by
  intro m hm r hr
  have hlt := place_lt hm hr
  have hx := hc (m * (2 * len) + r) (by omega)
  obtain ⟨hlower, hupper⟩ := forwardCoeff_toInt hb (abs_zeta_lt (k m)) hx (coeff c (m * (2 * len) + r + len))
  simp only [residue, (h m hm r hr).1, (h m hm r hr).2, hlower, hupper, Int.cast_add, Int.cast_sub,
    montgomeryReduce_product_cast (abs_zeta_lt (k m))]
  exact ⟨rfl, rfl⟩

theorem isLayer_residue_forwardAfter {c : Poly} (hc : CoeffsWithin 9471 c) {n : Nat} (hn : n < 7) :
    IsLayer (2 ^ (7 - n)) (2 ^ n) (fun m => forwardResidue (twiddle (2 ^ n + m))) (residue (forwardAfter c n))
      (residue (forwardAfter c (n + 1))) :=
  forwardLayer_residue (forwardLayer_shape hn.le).1 (by omega) (forwardAfter_range le_rfl hc hn.le)
    (isLayer_forwardAfter c hn)

/-! ### The meaning of the forward transform (41_ntt.md R144) -/

/-- Coefficient `r` of the remainder modulo x^size - z of the polynomial with the `N * size` coefficients `v`. -/
def blockRemainder (v : Nat → ZMod 3329) (size N : Nat) (z : ZMod 3329) (r : Nat) : ZMod 3329 :=
  ∑ j ∈ Finset.range N, v (r + size * j) * z ^ j

/-- As x^size = z gives x^(2 * size) = z^2, a remainder modulo x^size - z is one of that modulo x^(2 * size) - z^2. -/
theorem blockRemainder_split (v : Nat → ZMod 3329) (size N : Nat) (z : ZMod 3329) (r : Nat) :
    blockRemainder v size (2 * N) z r
      = blockRemainder v (2 * size) N (z ^ 2) r + z * blockRemainder v (2 * size) N (z ^ 2) (r + size) := by
  induction N with
  | zero => simp [blockRemainder]
  | succ N ih =>
    have hlower : r + size * (2 * N) = r + 2 * size * N := by ring
    have hupper : r + size * (2 * N + 1) = r + size + 2 * size * N := by ring
    simp only [blockRemainder, Nat.mul_succ 2, Finset.sum_range_succ] at ih ⊢
    rw [ih, hlower, hupper]
    ring

/-- The z of x^size - z for block `m` of the 2^n blocks after `n` layers, at `k = 2^n + m`. -/
def blockRoot (k : Nat) : ZMod 3329 := (-1) ^ k * twiddle (k / 2)

theorem blockRoot_even (k : Nat) : blockRoot (2 * k) = twiddle k := by simp [blockRoot]

theorem blockRoot_odd (k : Nat) : blockRoot (2 * k + 1) = -twiddle k := by
  have hhalf : (2 * k + 1) / 2 = k := by omega
  simp [blockRoot, pow_succ, hhalf]

/-- The twiddle of a group is a square root of the root of its block: the property of the ZETAS table that the forward
transform rests on (41_ntt.md R131). -/
theorem twiddle_sq : ∀ n < 7, ∀ m < 2 ^ n, twiddle (2 ^ n + m) ^ 2 = blockRoot (2 ^ n + m) := by decide +kernel

theorem zetaRoot_cast : ∀ k < 64, (zetaRoot k : ZMod 3329) = twiddle (64 + k) := by decide +kernel

/-- After `n` layers block `m` holds the remainder of p modulo x^(2^(8-n)) less the root of the block: a layer splits
each block in two, by the two square roots of its root. -/
theorem residue_forwardAfter {c : Poly} (hc : CoeffsWithin 9471 c) {n : Nat} (hn : n ≤ 7) :
    ∀ m < 2 ^ n, ∀ r < 2 * 2 ^ (7 - n), residue (forwardAfter c n) (m * (2 * 2 ^ (7 - n)) + r)
      = blockRemainder (residue c) (2 * 2 ^ (7 - n)) (2 ^ n) (blockRoot (2 ^ n + m)) r := by
  induction n with
  | zero =>
    intro m hm r _
    obtain rfl : m = 0 := by omega
    simp [blockRemainder, forwardAfter]
  | succ n ih =>
    have hhalf : 2 * 2 ^ (7 - (n + 1)) = 2 ^ (7 - n) := by rw [← pow_succ']; congr 1; omega
    have hlayer := isLayer_residue_forwardAfter hc (n := n) (by omega)
    have hbefore := ih (by omega)
    rw [hhalf]
    generalize 2 ^ (7 - n) = len at hlayer hbefore ⊢
    intro m hm r hr
    rw [pow_succ'] at hm ⊢
    obtain ⟨p, rfl | rfl⟩ := m.even_or_odd'
    · have hp : p < 2 ^ n := by omega
      have hplace : 2 * p * len + r = p * (2 * len) + r := by ring
      rw [hplace, ← Nat.mul_add, blockRoot_even, blockRemainder_split, twiddle_sq n hn p hp,
        ← hbefore p hp r (by omega), ← hbefore p hp (r + len) (by omega), ← Nat.add_assoc]
      exact (hlayer p hp r hr).1
    · have hp : p < 2 ^ n := by omega
      have hplace : (2 * p + 1) * len + r = p * (2 * len) + r + len := by ring
      rw [hplace, ← Nat.add_assoc, ← Nat.mul_add, blockRoot_odd, blockRemainder_split, neg_sq, twiddle_sq n hn p hp,
        ← hbefore p hp r (by omega), ← hbefore p hp (r + len) (by omega), ← Nat.add_assoc, neg_mul,
        ← sub_eq_add_neg]
      exact (hlayer p hp r hr).2

/-- The pair at `2 * m` is p modulo x^2 - z, for z the root of block `m`. -/
theorem congQ_ntt_pair {c : Poly} (hc : CoeffsWithin 9471 c) {m : Nat} (hm : m < 128) {z : Int}
    (hz : (z : ZMod 3329) = blockRoot (128 + m)) :
    CongQ (coeff (ntt c) (2 * m)).toInt (∑ j ∈ Finset.range 128, (coeff c (2 * j)).toInt * z ^ j)
      ∧ CongQ (coeff (ntt c) (2 * m + 1)).toInt (∑ j ∈ Finset.range 128, (coeff c (2 * j + 1)).toInt * z ^ j) := by
  have hpair (r : Nat) (hr : r < 2) :
      residue (ntt c) (2 * m + r) = blockRemainder (residue c) 2 128 (blockRoot (128 + m)) r := by
    rw [ntt_eq_forwardAfter, mul_comm 2 m]
    exact residue_forwardAfter hc le_rfl m hm r hr
  simp only [congQ_iff_cast, Int.cast_sum, Int.cast_mul, Int.cast_pow, hz]
  constructor
  · simpa [residue, blockRemainder] using hpair 0 (by decide)
  · simpa [residue, blockRemainder, add_comm 1] using hpair 1 (by decide)

/-- Settles O26: the blocks after seven layers are the 128 pairs, with the roots ζ_k and -ζ_k in turn. -/
theorem nttGivesQuotientResidues : Obligations.NttGivesQuotientResidues := by
  intro c hc k hk
  have hplus : (zetaRoot k : ZMod 3329) = blockRoot (128 + 2 * k) := by
    rw [zetaRoot_cast k hk, ← blockRoot_even, Nat.mul_add]
  have hminus : ((-zetaRoot k : Int) : ZMod 3329) = blockRoot (128 + (2 * k + 1)) := by
    rw [Int.cast_neg, zetaRoot_cast k hk, ← blockRoot_odd, Nat.mul_add, Nat.add_assoc]
  have hform : CongQ (zeta (64 + k)) (zetaRoot k * 2 ^ 16) := by
    rw [congQ_iff_cast, Int.cast_mul, zetaRoot_cast k hk]
    exact zeta_cast _
  obtain ⟨h0, h1⟩ := congQ_ntt_pair hc (by omega) hplus
  obtain ⟨h2, h3⟩ := congQ_ntt_pair hc (by omega) hminus
  have hplus_place : 4 * k = 2 * (2 * k) := by omega
  have hminus_place : 2 * (2 * k) + 2 = 2 * (2 * k + 1) := by omega
  have hminus_place' : 2 * (2 * k) + 3 = 2 * (2 * k + 1) + 1 := by omega
  rw [hplus_place, hminus_place, hminus_place']
  exact ⟨h0, h1, h2, h3, hform⟩

/-! ### The round trip (41_ntt.md R147, R148) -/

/-- On residues an inverse layer with the inverse twiddles undoes a forward layer, times 2. -/
theorem IsLayer.undo {len G : Nat} (hplaces : G * (2 * len) = 256) {z z' : Nat → ZMod 3329}
    (hz : ∀ m < G, z' m * z m = 1) {v w x u : Nat → ZMod 3329} {s : ZMod 3329}
    (hforward : IsLayer len G (fun m => forwardResidue (z m)) v w) (hx : ∀ i < 256, x i = s * w i)
    (hinverse : IsLayer len G (fun m => inverseResidue (z' m)) x u) : ∀ i < 256, u i = 2 * s * v i := by
  rw [← hplaces] at hx ⊢
  refine forall_place fun m hm r hr => ?_
  have hlt := place_lt hm hr
  obtain ⟨hlower, hupper⟩ := hforward m hm r hr
  obtain ⟨hlower', hupper'⟩ := hinverse m hm r hr
  rw [hlower', hupper', hx _ (by omega), hx _ hlt, hlower, hupper]
  simp only [forwardResidue, inverseResidue]
  exact ⟨by ring, by linear_combination (2 * s * v (m * (2 * len) + r + len)) * hz m hm⟩

/-- The negated twiddles of inverse layer `n` are the inverses of the twiddles of forward layer `6 - n`, read from the
last group to the first. -/
theorem twiddle_inverse : ∀ n < 7, ∀ m < 2 ^ (6 - n),
    -twiddle (2 ^ (7 - n) - 1 - m) * twiddle (2 ^ (6 - n) + m) = 1 := by decide +kernel

/-- The default set of a layer of half-width `len` is its lower places (41_ntt.md R145). -/
theorem defaultSchedule_lower {n : Nat} (hn : n < 7) {i : Nat} (hi : i < 256) :
    (defaultSchedule.toList.getD n (Vector.replicate 256 false)).toList.getD i false
      = decide (i % (2 * 2 ^ (n + 1)) < 2 ^ (n + 1)) := by
  simp [defaultSchedule, defaultIndexSet, List.getD_eq_getElem?_getD, hn, hi, pow_succ, mul_comm]

theorem residue_reduceLoop (set : IndexSet) (c : Poly) {i : Nat} (hi : i < 256) :
    residue (reduceLoop set c) i = residue c i := by
  rw [residue, coeff_reduceLoop set c hi]
  split
  · exact congQ_iff_cast.1 (congQ_barrettReduce _)
  · rfl

/-- Up to 16383 neither the sum nor the difference wraps. -/
theorem inverseCoeff_cast {x y : Coeff} (hx : -16383 ≤ x.toInt ∧ x.toInt ≤ 16383)
    (hy : -16383 ≤ y.toInt ∧ y.toInt ≤ 16383) (k : Nat) :
    (((inverseCoeff (-zeta k)).lower x y).toInt : ZMod 3329) = x.toInt + y.toInt
      ∧ (((inverseCoeff (-zeta k)).upper x y).toInt : ZMod 3329) = -twiddle k * (x.toInt - y.toInt) := by
  have hsum : (wrap16 (x.toInt + y.toInt)).toInt = x.toInt + y.toInt := wrap16_toInt_of_range (by omega) (by omega)
  have hsub : (wrap16 (x.toInt - y.toInt)).toInt = x.toInt - y.toInt := wrap16_toInt_of_range (by omega) (by omega)
  constructor
  · rw [inverseCoeff, hsum, Int.cast_add]
  · rw [inverseCoeff, montgomeryReduce_product_cast (abs_neg_zeta_lt k), hsub, Int.cast_sub, Int.cast_neg, neg_mul,
      ← twiddle]

section InverseLayer

variable {len G : Nat} (hplaces : G * (2 * len) = 256) {c d : Poly} {k : Nat → Nat}
  (h : IsLayer len G (fun m => inverseCoeff (-zeta (k m))) (coeff c) (coeff d))

include hplaces h

theorem inverseLayer_residue (hc : CoeffsWithin 16383 c) :
    IsLayer len G (fun m => inverseResidue (-twiddle (k m))) (residue c) (residue d) := by
  intro m hm r hr
  have hlt := place_lt hm hr
  obtain ⟨hlower, hupper⟩ := inverseCoeff_cast (hc (m * (2 * len) + r) (by omega))
    (hc (m * (2 * len) + r + len) (by omega)) (k m)
  simp only [residue, (h m hm r hr).1, (h m hm r hr).2, hlower, hupper]
  exact ⟨rfl, rfl⟩

/-- With the lower places reduced every coefficient is back within 16383, whatever it was: the lower ones are outputs of
barrett_reduce and the upper ones of montgomery_reduce. -/
theorem inverseLayer_range {set : IndexSet}
    (hset : ∀ i < 256, set.toList.getD i false = decide (i % (2 * len) < len)) :
    CoeffsWithin 16383 (reduceLoop set d) := by
  rw [CoeffsWithin, ← hplaces]
  refine forall_place fun m hm r hr => ?_
  have hlt := place_lt hm hr
  have hlower : (m * (2 * len) + r) % (2 * len) = r := by rw [Nat.mul_add_mod', Nat.mod_eq_of_lt (by omega)]
  have hupper : (m * (2 * len) + r + len) % (2 * len) = r + len := by
    rw [Nat.add_assoc, Nat.mul_add_mod', Nat.mod_eq_of_lt (by omega)]
  rw [coeff_reduceLoop _ _ (by omega), coeff_reduceLoop _ _ (by omega), hset _ (by omega), hset _ (by omega), hlower,
    hupper, decide_eq_true hr, decide_eq_false (by omega), (h m hm r hr).2]
  have hbarrett := barrettReduce_range (coeff d (m * (2 * len) + r))
  have hreduce := montgomeryReduce_product_range (abs_neg_zeta_lt (k m))
    (wrap16 ((coeff c (m * (2 * len) + r)).toInt - (coeff c (m * (2 * len) + r + len)).toInt))
  rw [Q_eq] at hbarrett
  simp only [if_true, Bool.false_eq_true, if_false, inverseCoeff]
  omega

end InverseLayer

section RoundTrip

variable {c d : Poly} (hc : CoeffsWithin 9471 c) (hd : CoeffsWithin 16383 d)
  (hres : ∀ i < 256, residue d i = residue (ntt c) i)

include hc hd hres

/-- Each layer of the inverse transform undoes one of the forward transform, the last one first, times 2. -/
theorem inverseAfter_undoes {n : Nat} (hn : n ≤ 7) :
    CoeffsWithin 16383 (inverseAfter defaultSchedule d n)
      ∧ ∀ i < 256, residue (inverseAfter defaultSchedule d n) i = 2 ^ n * residue (forwardAfter c (7 - n)) i := by
  induction n with
  | zero =>
    refine ⟨hd, fun i hi => ?_⟩
    rw [pow_zero, one_mul, Nat.sub_zero, ← ntt_eq_forwardAfter]
    exact hres i hi
  | succ n ih =>
    obtain ⟨hrange, hbefore⟩ := ih (by omega)
    obtain ⟨hplaces, -, -⟩ := inverseLayer_shape (n := n) (by omega)
    have hinverse := (layerInPlace_spec hplaces.le (fun m => inverseCoeff (-zeta (2 ^ (7 - n) - 1 - m)))
      (inverseAfter defaultSchedule d n)).1
    have hforward := isLayer_residue_forwardAfter hc (n := 6 - n) (by omega)
    rw [show 7 - (6 - n) = n + 1 by omega, show 6 - n + 1 = 7 - n by omega] at hforward
    refine ⟨inverseLayer_range hplaces hinverse fun i hi => defaultSchedule_lower hn hi, fun i hi => ?_⟩
    rw [inverseAfter, residue_reduceLoop _ _ hi, show 7 - (n + 1) = 6 - n by omega, pow_succ' (2 : ZMod 3329)]
    exact hforward.undo hplaces (twiddle_inverse n hn) hbefore (inverseLayer_residue hplaces hinverse hrange) i hi

/-- Seven layers leave 128 times the input, and F_INV is the Montgomery form of the inverse of 128 (41_ntt.md R141). -/
theorem congQ_invntt {i : Nat} (hi : i < 256) :
    CongQ (coeff (invntt defaultSchedule d) i).toInt (coeff c i).toInt := by
  have hscale : (fInv * 169 * 2 ^ 7 : ZMod 3329) = 1 := by decide
  have hundo : residue (inverseAfter defaultSchedule d 7) i = 2 ^ 7 * residue c i :=
    (inverseAfter_undoes hc hd hres le_rfl).2 i hi
  rw [congQ_iff_cast, coeff_invntt _ _ hi, montgomeryReduce_product_cast (by decide), ← residue, hundo, ← mul_assoc,
    hscale, one_mul, residue]

end RoundTrip

/-- POLY_NORMALIZE's function gives the canonical representative of each coefficient (42_poly_algebra.md R168). -/
theorem polyNormalizeValue_canonical (c : Poly) {i : Nat} (hi : i < 256) :
    0 ≤ (coeff (polyNormalizeValue c) i).toInt ∧ (coeff (polyNormalizeValue c) i).toInt < Q
      ∧ CongQ (coeff (polyNormalizeValue c) i).toInt (coeff c i).toInt := by
  obtain ⟨h0, hQ⟩ := barrettReduce_range (coeff c i)
  obtain ⟨hlo, hhi, hcong⟩ := csubqReduce_canonical h0 (hQ.trans_lt (by decide))
  rw [polyNormalizeValue, coeff_polyMap _ _ hi]
  exact ⟨hlo, hhi, hcong.trans (congQ_barrettReduce _)⟩

/-- Settles O28: the inverse transform takes any value within 16383 with the residues of ntt's output, as ntt's output
itself is where it is in range, and its normalized form always. -/
theorem nttRoundTrip : Obligations.NttRoundTrip := by
  refine fun c hc => ⟨fun hd i hi => congQ_invntt hc hd (fun _ _ => rfl) hi, fun i hi => ?_⟩
  refine congQ_invntt hc (fun j hj => ?_) (fun j hj => ?_) hi
  · obtain ⟨hlo, hhi, -⟩ := polyNormalizeValue_canonical (ntt c) hj
    rw [Q_eq] at hhi
    omega
  · exact congQ_iff_cast.1 (polyNormalizeValue_canonical (ntt c) hj).2.2

end Sys2Proof.Machine

/-! ## Polynomial algebra (42_poly_algebra.md)

The coefficients a polynomial command leaves where the rule's value is observed, and what basemul_pair does to the
values of its inputs, pair by pair; the product modulo x^256 + 1, whose remainders modulo x^2 - z the transforms turn
into pairs; and the statements of 42_poly_algebra.md. -/

namespace Sys2Proof.Machine

/-! ### Sums, differences and the elementwise commands -/

/-- A coefficient that is in contract, or in exact mode any coefficient, has the rule's value. -/
theorem coeff_polyResult {s : State} {ok : Fin 256 → Bool} {i : Nat} (hi : i < 256)
    (h : ExactMode s ∨ ok ⟨i, hi⟩ = true) (pd : PReg) (v : Poly) :
    coeff (polyReg (polyResult s pd ok v) pd) i = coeff v i := by
  rw [polyReg_polyResult, if_pos rfl]
  obtain h | h := h
  · rw [observedPoly_exact h]
  · exact coeff_observedPoly v hi h

theorem wrap16_add (x y : Coeff) : wrap16 (x.toInt + y.toInt) = x + y :=
  BitVec.eq_of_toInt_eq (by rw [wrap16_toInt, BitVec.toInt_add])

theorem wrap16_sub (x y : Coeff) : wrap16 (x.toInt - y.toInt) = x - y :=
  BitVec.eq_of_toInt_eq (by rw [wrap16_toInt, BitVec.toInt_sub])

/-- Settles O29: the contract of a coefficient is the bound on its exact result, and the wrap is that of `BitVec 16`. -/
theorem polyAddSubResults : Obligations.PolyAddSubResults := by
  intro s pd pa pb
  refine ⟨⟨_, rfl, fun i hi h => ?_⟩, ⟨_, rfl, fun i hi h => ?_⟩⟩
  · rw [coeff_polyResult hi (h.imp_right (sumContract_iff (· + ·) _ _ ⟨i, hi⟩).2), polyAddValue, coeff_polyZip _ _ _ hi,
      wrap16_add]
  · rw [coeff_polyResult hi (h.imp_right (sumContract_iff (· - ·) _ _ ⟨i, hi⟩).2), polySubValue, coeff_polyZip _ _ _ hi,
      wrap16_sub]

/-- Settles O31: no coefficient is out of contract, and csubq finds the output of barrett_reduce in its own contract. -/
theorem polyNormalizeResult : Obligations.PolyNormalizeResult := by
  refine fun s pd => ⟨_, rfl, fun i hi => ?_⟩
  rw [coeff_polyResult hi (.inr rfl)]
  exact ⟨coeff_polyMap _ _ hi, polyNormalizeValue_canonical _ hi⟩

/-- Settles O32: no coefficient is out of contract, and to_montgomery has this range and residue for every int16. -/
theorem polyTomontResult : Obligations.PolyTomontResult := by
  refine fun s pd => ⟨_, rfl, fun i hi => ?_⟩
  rw [coeff_polyResult hi (.inr rfl), polyTomontValue, coeff_polyMap _ _ hi]
  obtain ⟨hlo, hhi⟩ := toMontgomery_range (coeff (polyReg s pd) i)
  exact ⟨rfl, hlo, hhi, congQ_toMontgomery _⟩

/-! ### basemul_pair (42_poly_algebra.md R165, R167) -/

/-- The four products of a pair are at most `b` in magnitude. -/
def PairProductsWithin (b : Int) (a0 a1 b0 b1 : Coeff) : Prop :=
  ∀ x ∈ [a0, a1], ∀ y ∈ [b0, b1], |x.toInt * y.toInt| ≤ b

theorem PairProductsWithin.mono {b c : Int} {a0 a1 b0 b1 : Coeff} (h : PairProductsWithin b a0 a1 b0 b1) (hbc : b ≤ c) :
    PairProductsWithin c a0 a1 b0 b1 := fun x hx y hy => (h x hx y hy).trans hbc

theorem pairProductsWithin_of_abs {b : Int} {a0 a1 b0 b1 : Coeff} (ha : ∀ x ∈ [a0, a1], |x.toInt| ≤ b)
    (hb : ∀ y ∈ [b0, b1], |y.toInt| ≤ b) : PairProductsWithin (b * b) a0 a1 b0 b1 := by
  intro x hx y hy
  have hb0 : 0 ≤ b := (abs_nonneg _).trans (ha x hx)
  rw [abs_mul]
  exact mul_le_mul (ha x hx) (hb y hy) (abs_nonneg _) hb0

/-- A product of two values within 31058 has a Montgomery reduction within 16383, so two of them add up in int16. -/
theorem montgomeryReduce_half_range {x : Int} (h : |x| ≤ 31058 * 31058) :
    -16383 ≤ (montgomeryReduce x).toInt ∧ (montgomeryReduce x).toInt ≤ 16383 := by
  have hmul := montgomeryReduce_mul (h.trans (by decide))
  have hu := coeff_range (wrap16 (x * 62209))
  obtain ⟨hlo, hhi⟩ := abs_le.1 h
  omega

section Pair

variable {a0 a1 b0 b1 : Coeff} {z : Int} (hz : |z| < Q)

include hz

/-- For products of values within 31058 neither sum of R165 wraps. -/
theorem basemulPair_toInt (h : PairProductsWithin (31058 * 31058) a0 a1 b0 b1) :
    (basemulPair a0 a1 b0 b1 z).1.toInt
        = (montgomeryReduce (z * (montgomeryReduce (a1.toInt * b1.toInt)).toInt)).toInt
          + (montgomeryReduce (a0.toInt * b0.toInt)).toInt
      ∧ (basemulPair a0 a1 b0 b1 z).2.toInt
        = (montgomeryReduce (a0.toInt * b1.toInt)).toInt + (montgomeryReduce (a1.toInt * b0.toInt)).toInt := by
  have h00 := montgomeryReduce_half_range (h a0 (by simp) b0 (by simp))
  have h01 := montgomeryReduce_half_range (h a0 (by simp) b1 (by simp))
  have h10 := montgomeryReduce_half_range (h a1 (by simp) b0 (by simp))
  have hr0 := montgomeryReduce_product_range hz (montgomeryReduce (a1.toInt * b1.toInt))
  rw [basemulPair, mul_comm _ z]
  exact ⟨wrap16_toInt_of_range (by omega) (by omega), wrap16_toInt_of_range (by omega) (by omega)⟩

/-- The residues of a pair; 169 is the inverse of 2^16 modulo Q. -/
theorem basemulPair_cast (h : PairProductsWithin (31058 * 31058) a0 a1 b0 b1) :
    ((basemulPair a0 a1 b0 b1 z).1.toInt : ZMod 3329)
        = 169 * (a0.toInt * b0.toInt + z * 169 * (a1.toInt * b1.toInt))
      ∧ ((basemulPair a0 a1 b0 b1 z).2.toInt : ZMod 3329) = 169 * (a0.toInt * b1.toInt + a1.toInt * b0.toInt) := by
  have hprod (x) (hx : x ∈ [a0, a1]) (y) (hy : y ∈ [b0, b1]) :
      ((montgomeryReduce (x.toInt * y.toInt)).toInt : ZMod 3329) = x.toInt * y.toInt * 169 := by
    rw [montgomeryReduce_cast ((h x hx y hy).trans (by decide)), Int.cast_mul]
  obtain ⟨h0, h1⟩ := basemulPair_toInt hz h
  rw [h0, h1, Int.cast_add, Int.cast_add, montgomeryReduce_product_cast hz, hprod a0 (by simp) b0 (by simp),
    hprod a0 (by simp) b1 (by simp), hprod a1 (by simp) b0 (by simp), hprod a1 (by simp) b1 (by simp)]
  exact ⟨by ring, by ring⟩

/-- The meaning of a pair, for a twiddle that is the Montgomery form of `root` (42_poly_algebra.md R167). -/
theorem congQ_basemulPair (h : PairProductsWithin (31058 * 31058) a0 a1 b0 b1) {root : Int}
    (hroot : CongQ z (root * 2 ^ 16)) :
    CongQ ((basemulPair a0 a1 b0 b1 z).1.toInt * 2 ^ 16) (a0.toInt * b0.toInt + root * (a1.toInt * b1.toInt))
      ∧ CongQ ((basemulPair a0 a1 b0 b1 z).2.toInt * 2 ^ 16) (a0.toInt * b1.toInt + a1.toInt * b0.toInt) := by
  have hunit : (169 * 2 ^ 16 : ZMod 3329) = 1 := by decide
  obtain ⟨h0, h1⟩ := basemulPair_cast hz h
  simp only [congQ_iff_cast, Int.cast_add, Int.cast_mul, Int.cast_pow, Int.cast_ofNat] at hroot ⊢
  rw [h0, h1, hroot]
  constructor
  · linear_combination (a0.toInt * b0.toInt + (1 + 169 * 2 ^ 16) * root * (a1.toInt * b1.toInt) : ZMod 3329) * hunit
  · linear_combination (a0.toInt * b1.toInt + a1.toInt * b0.toInt : ZMod 3329) * hunit

/-- In contract both results are strictly between -2Q and 2Q. -/
theorem basemulPair_range (h : PairProductsWithin (Q * 2 ^ 15 - 1) a0 a1 b0 b1) :
    -(2 * Q) < (basemulPair a0 a1 b0 b1 z).1.toInt ∧ (basemulPair a0 a1 b0 b1 z).1.toInt < 2 * Q
      ∧ -(2 * Q) < (basemulPair a0 a1 b0 b1 z).2.toInt ∧ (basemulPair a0 a1 b0 b1 z).2.toInt < 2 * Q := by
  have hrange (x) (hx : x ∈ [a0, a1]) (y) (hy : y ∈ [b0, b1]) :=
    montgomeryReduce_range (Int.le_sub_one_iff.1 (h x hx y hy))
  have h00 := hrange a0 (by simp) b0 (by simp)
  have h01 := hrange a0 (by simp) b1 (by simp)
  have h10 := hrange a1 (by simp) b0 (by simp)
  have hr0 := montgomeryReduce_product_range hz (montgomeryReduce (a1.toInt * b1.toInt))
  obtain ⟨h0, h1⟩ := basemulPair_toInt hz (h.mono (by decide))
  rw [h0, h1]
  rw [Q_eq] at *
  omega

end Pair

/-- ZETAS[64+k] is the Montgomery form of ζ_k (41_ntt.md R144). -/
theorem congQ_zeta_zetaRoot {k : Nat} (hk : k < 64) : CongQ (zeta (64 + k)) (zetaRoot k * 2 ^ 16) := by
  rw [congQ_iff_cast, Int.cast_mul, zetaRoot_cast k hk]
  exact zeta_cast _

/-- Settles O34: the residues of a pair with the twiddle and with its negation, and the range in contract. -/
theorem basemulPairMeaning : Obligations.BasemulPairMeaning := by
  intro a0 a1 b0 b1 k hk
  have hroot := congQ_zeta_zetaRoot hk
  refine ⟨fun h => ?_, fun h z hz => ?_⟩
  · have hproducts : PairProductsWithin (31058 * 31058) a0 a1 b0 b1 :=
      pairProductsWithin_of_abs (fun x hx => h x (by grind)) (fun y hy => h y (by grind))
    obtain ⟨hplus0, hplus1⟩ := congQ_basemulPair (abs_zeta_lt _) hproducts hroot
    obtain ⟨hminus0, hminus1⟩ := congQ_basemulPair (root := -zetaRoot k) (abs_neg_zeta_lt (64 + k)) hproducts
      (by rw [congQ_iff_dvd] at *; omega)
    rw [neg_mul, ← sub_eq_add_neg] at hminus0
    exact ⟨hplus0, hplus1, hminus0, hminus1⟩
  · have hproducts : PairProductsWithin (Q * 2 ^ 15 - 1) a0 a1 b0 b1 :=
      fun x hx y hy => Int.le_sub_one_iff.2 (h x hx y hy)
    rw [List.mem_pair] at hz
    obtain rfl | rfl := hz
    · exact basemulPair_range (abs_zeta_lt _) hproducts
    · exact basemulPair_range (abs_neg_zeta_lt _) hproducts

/-! ### POLY_BASEMUL pair by pair (42_poly_algebra.md R166, R172) -/

/-- The twiddle of pair `m`: the pairs of a group take the group's ZETAS entry and its negation in turn. -/
def pairZeta (m : Nat) : Int := (-1) ^ m * zeta (64 + m / 2)

theorem pairZeta_even (k : Nat) : pairZeta (2 * k) = zeta (64 + k) := by simp [pairZeta]

theorem pairZeta_odd (k : Nat) : pairZeta (2 * k + 1) = -zeta (64 + k) := by
  have hhalf : (2 * k + 1) / 2 = k := by omega
  simp [pairZeta, pow_succ, hhalf]

theorem abs_pairZeta_lt (m : Nat) : |pairZeta m| < Q := by
  rw [pairZeta, abs_mul, abs_pow, abs_neg, abs_one, one_pow, one_mul]
  exact abs_zeta_lt _

/-- The twiddle of a pair is the Montgomery form of the root of its block. -/
theorem pairZeta_cast (m : Nat) : (pairZeta m : ZMod 3329) * 169 = blockRoot (128 + m) := by
  have hhalf : (128 + m) / 2 = 64 + m / 2 := by omega
  have hsign : ((-1) ^ 128 : ZMod 3329) = 1 := Even.neg_one_pow (by decide)
  rw [pairZeta, Int.cast_mul, Int.cast_pow, Int.cast_neg, Int.cast_one, mul_assoc, ← twiddle, blockRoot, hhalf, pow_add,
    hsign, one_mul]

/-- basemul_pair of the pairs of coefficients at `j`. -/
def basemulAt (a b : List Coeff) (j : Nat) (z : Int) : Coeff × Coeff :=
  basemulPair (a.getD j 0) (a.getD (j + 1) 0) (b.getD j 0) (b.getD (j + 1) 0) z

theorem exists_four_cons {α : Type} {l : List α} {n : Nat} (h : l.length = 4 * (n + 1)) :
    ∃ x0 x1 x2 x3 t, l = x0 :: x1 :: x2 :: x3 :: t ∧ t.length = 4 * n := by
  match l, h with
  | x0 :: x1 :: x2 :: x3 :: t, h => exact ⟨x0, x1, x2, x3, t, rfl, by simp at h; omega⟩

/-- Each group of four is its two pairs. -/
theorem basemulGroups_pair {zs : List Int} {as bs : List Coeff} (ha : as.length = 4 * zs.length)
    (hb : bs.length = 4 * zs.length) {m : Nat} (hm : m < 2 * zs.length) :
    ((basemulGroups zs as bs).getD (2 * m) 0, (basemulGroups zs as bs).getD (2 * m + 1) 0)
      = basemulAt as bs (2 * m) ((-1) ^ m * zs.getD (m / 2) 0) := by
  induction zs generalizing as bs m with
  | nil => simp at hm
  | cons z zs ih =>
    obtain ⟨a0, a1, a2, a3, as, rfl, ha'⟩ := exists_four_cons ha
    obtain ⟨b0, b1, b2, b3, bs, rfl, hb'⟩ := exists_four_cons hb
    match m with
    | 0 => simp [basemulGroups, basemulAt]
    | 1 => simp [basemulGroups, basemulAt]
    | m + 2 =>
      rw [List.length_cons] at hm
      have htail := ih ha' hb' (m := m) (by omega)
      simpa [basemulGroups, basemulAt, Nat.mul_add, pow_succ] using htail

/-- A pair of the product of two polynomial values. -/
theorem coeff_polyBasemulValue (a b : Poly) {m : Nat} (hm : m < 128) :
    (coeff (polyBasemulValue a b) (2 * m), coeff (polyBasemulValue a b) (2 * m + 1))
      = basemulPair (coeff a (2 * m)) (coeff a (2 * m + 1)) (coeff b (2 * m)) (coeff b (2 * m + 1)) (pairZeta m) := by
  have hzeta : (zetas.drop 64).getD (m / 2) 0 = zeta (64 + m / 2) := by
    simp [zeta, List.getD_eq_getElem?_getD]
  have hpair := basemulGroups_pair (zs := zetas.drop 64) (as := a.toList) (bs := b.toList) (by simp [zetas])
    (by simp [zetas]) (m := m) (by simpa [zetas] using hm)
  have hcoeff (i) : coeff (polyBasemulValue a b) i = (basemulGroups (zetas.drop 64) a.toList b.toList).getD i 0 :=
    coeff_polyOfList _ _ i
  rw [hcoeff, hcoeff, hpair, hzeta]
  rfl

/-- A pair in contract, or in exact mode any pair, of POLY_BASEMUL's result. -/
theorem polyBasemul_pair {s : State} (pd : PReg) {pa pb : PReg} {m : Nat} (hm : m < 128)
    (h : ExactMode s ∨ ProductsInContract (polyReg s pa) (polyReg s pb) (2 * m)) :
    let a := polyReg s pa
    let b := polyReg s pb
    let r := polyReg (polyResult s pd (basemulContract a b) (polyBasemulValue a b)) pd
    (coeff r (2 * m), coeff r (2 * m + 1))
      = basemulPair (coeff a (2 * m)) (coeff a (2 * m + 1)) (coeff b (2 * m)) (coeff b (2 * m + 1)) (pairZeta m) := by
  intro a b r
  have hlane (i : Nat) (hi : i / 2 = m) : coeff r i = coeff (polyBasemulValue a b) i :=
    coeff_polyResult (by omega) (h.imp_right (basemulContract_iff _ _ hi).2) pd _
  rw [hlane _ (by omega), hlane _ (by omega), coeff_polyBasemulValue a b hm]

/-- Settles O33: the pairs at 4k and 4k+2 are the pairs 2k and 2k+1. -/
theorem polyBasemulResult : Obligations.PolyBasemulResult := by
  refine fun s pd pa pb => ⟨_, rfl, fun k hk => ?_⟩
  have hplus : 4 * k = 2 * (2 * k) := by omega
  have hminus : 4 * k + 2 = 2 * (2 * k + 1) := by omega
  have hminus' : 4 * k + 3 = 2 * (2 * k + 1) + 1 := by omega
  constructor
  · intro h
    rw [hplus] at h ⊢
    rw [← pairZeta_even]
    exact polyBasemul_pair pd (by omega) h
  · intro h
    rw [hminus] at h
    rw [hminus, hminus', ← pairZeta_odd]
    exact polyBasemul_pair pd (by omega) h

/-! ### The negacyclic product (42_poly_algebra.md R175)

Modulo x^256 + 1 a polynomial is its value at any x with x^256 = -1. In the ring with x^2 = z, where z^128 = -1, that
value is its remainder modulo x^2 - z, so the remainders of a product are the products of the remainders. -/

section Negacyclic

variable {S : Type} [CommRing S]

/-- Coefficient `i` of the product modulo x^n + 1 of the polynomials with coefficients `v` and `w`. -/
def negacyclic (n : Nat) (v w : Nat → S) (i : Nat) : S :=
  ∑ j ∈ Finset.range n, if j ≤ i then v j * w (i - j) else -(v j * w (n + i - j))

/-- Times x^j with x^n = -1: the coefficients shift up by `j` places and those that leave at the top return negated. -/
theorem sum_shift_negacyclic {n j : Nat} (hj : j ≤ n) {x : S} (hx : x ^ n = -1) (w : Nat → S) :
    ∑ i ∈ Finset.range n, (if j ≤ i then w (i - j) else -w (n + i - j)) * x ^ i
      = x ^ j * ∑ k ∈ Finset.range n, w k * x ^ k := by
  obtain ⟨r, rfl⟩ := Nat.exists_eq_add_of_le hj
  have hlow : ∑ i ∈ Finset.range j, (if j ≤ i then w (i - j) else -w (j + r + i - j)) * x ^ i
      = x ^ j * ∑ k ∈ Finset.range j, w (r + k) * x ^ (r + k) := by
    rw [Finset.mul_sum]
    refine Finset.sum_congr rfl fun i hi => ?_
    rw [if_neg (by simpa using hi), show j + r + i - j = r + i by omega]
    linear_combination -w (r + i) * x ^ i * hx
  have hhigh : ∑ i ∈ Finset.range r, (if j ≤ j + i then w (j + i - j) else -w (j + r + (j + i) - j)) * x ^ (j + i)
      = x ^ j * ∑ k ∈ Finset.range r, w k * x ^ k := by
    rw [Finset.mul_sum]
    refine Finset.sum_congr rfl fun i _ => ?_
    rw [if_pos (Nat.le_add_right j i), Nat.add_sub_cancel_left]
    ring
  rw [Finset.sum_range_add, hlow, hhigh, add_comm j r, Finset.sum_range_add]
  ring

/-- At any x with x^n = -1 the negacyclic product has the product of the values. -/
theorem sum_negacyclic {n : Nat} {x : S} (hx : x ^ n = -1) (v w : Nat → S) :
    ∑ i ∈ Finset.range n, negacyclic n v w i * x ^ i
      = (∑ j ∈ Finset.range n, v j * x ^ j) * ∑ k ∈ Finset.range n, w k * x ^ k := by
  calc ∑ i ∈ Finset.range n, negacyclic n v w i * x ^ i
      = ∑ j ∈ Finset.range n, v j *
          ∑ i ∈ Finset.range n, (if j ≤ i then w (i - j) else -w (n + i - j)) * x ^ i := by
        simp only [negacyclic, Finset.sum_mul, Finset.mul_sum]
        rw [Finset.sum_comm]
        refine Finset.sum_congr rfl fun j _ => Finset.sum_congr rfl fun i _ => ?_
        split <;> ring
    _ = ∑ j ∈ Finset.range n, v j * x ^ j * ∑ k ∈ Finset.range n, w k * x ^ k := by
        refine Finset.sum_congr rfl fun j hj => ?_
        rw [sum_shift_negacyclic (Finset.mem_range.1 hj).le hx, mul_assoc]
    _ = _ := (Finset.sum_mul _ _ _).symm

theorem map_negacyclic {T : Type} [CommRing T] (f : S →+* T) (n : Nat) (v w : Nat → S) (i : Nat) :
    f (negacyclic n v w i) = negacyclic n (fun j => f (v j)) (fun j => f (w j)) i := by
  simp [negacyclic, apply_ite f]

end Negacyclic

/-- The residue of a coefficient of the schoolbook product. -/
theorem ringProductCoeff_cast (a b : Poly) (i : Nat) :
    (ringProductCoeff a b i : ZMod 3329) = negacyclic 256 (residue a) (residue b) i := by
  simp [ringProductCoeff, negacyclic, residue, apply_ite (Int.cast : Int → ZMod 3329)]

section PairRing

variable {z : ZMod 3329}

/-- The even power x^(2 * n) in the ring with x^2 = z. -/
theorem omega_pow_two_mul (n : Nat) :
    (QuadraticAlgebra.omega : QuadraticAlgebra (ZMod 3329) z 0) ^ (2 * n) = ⟨z ^ n, 0⟩ := by
  induction n with
  | zero => rfl
  | succ n ih =>
    rw [Nat.mul_succ, pow_add, ih, pow_two, QuadraticAlgebra.omega_mul_omega_eq_mk, QuadraticAlgebra.mk_mul_mk]
    simp [pow_succ]

/-- The value at x of a polynomial of 2 * N coefficients is its remainder modulo x^2 - z. -/
theorem sum_omega_pow (v : Nat → ZMod 3329) (N : Nat) :
    ∑ i ∈ Finset.range (2 * N), algebraMap (ZMod 3329) (QuadraticAlgebra (ZMod 3329) z 0) (v i)
        * QuadraticAlgebra.omega ^ i
      = ⟨blockRemainder v 2 N z 0, blockRemainder v 2 N z 1⟩ := by
  induction N with
  | zero => rfl
  | succ N ih =>
    rw [Nat.mul_succ, Finset.sum_range_succ, Finset.sum_range_succ, ih, pow_succ, omega_pow_two_mul]
    ext <;> simp [blockRemainder, Finset.sum_range_succ, add_comm 1]

/-- The remainders of the negacyclic product modulo x^2 - z. -/
theorem blockRemainder_negacyclic (hz : z ^ 128 = -1) (v w : Nat → ZMod 3329) :
    blockRemainder (negacyclic 256 v w) 2 128 z 0
        = blockRemainder v 2 128 z 0 * blockRemainder w 2 128 z 0
          + z * (blockRemainder v 2 128 z 1 * blockRemainder w 2 128 z 1)
      ∧ blockRemainder (negacyclic 256 v w) 2 128 z 1
        = blockRemainder v 2 128 z 0 * blockRemainder w 2 128 z 1
          + blockRemainder v 2 128 z 1 * blockRemainder w 2 128 z 0 := by
  have hx : (QuadraticAlgebra.omega : QuadraticAlgebra (ZMod 3329) z 0) ^ 256 = -1 := by
    rw [omega_pow_two_mul 128, hz]
    ext <;> simp [QuadraticAlgebra.re_one, QuadraticAlgebra.im_one]
  have hvalue := sum_negacyclic hx (fun j => algebraMap _ _ (v j)) (fun j => algebraMap _ _ (w j))
  simp only [← map_negacyclic, sum_omega_pow _ 128] at hvalue
  rw [QuadraticAlgebra.mk_mul_mk, QuadraticAlgebra.mk.injEq] at hvalue
  obtain ⟨h0, h1⟩ := hvalue
  exact ⟨by rw [h0]; ring, by rw [h1]; ring⟩

end PairRing

/-- The roots of the blocks after `n` layers are roots of x^(2^n) + 1. -/
theorem blockRoot_pow {n : Nat} (hn : n ≤ 7) : ∀ m < 2 ^ n, blockRoot (2 ^ n + m) ^ 2 ^ n = -1 := by
  induction n with
  | zero => decide
  | succ n ih =>
    intro m hm
    have hp : m / 2 < 2 ^ n := by omega
    have hhalf : (2 ^ (n + 1) + m) / 2 = 2 ^ n + m / 2 := by omega
    rw [pow_succ' 2 n, pow_mul, ← pow_succ', blockRoot, mul_pow, pow_right_comm, neg_one_sq, one_pow, one_mul, hhalf,
      twiddle_sq n hn _ hp]
    exact ih (by omega) _ hp

/-! ### The command sequence of the ring product (42_poly_algebra.md R175) -/

/-- What the sequence holds of an operand before POLY_BASEMUL: the canonical transform of its Montgomery form. -/
def transformed (a : Poly) : Poly := polyNormalizeValue (ntt (polyTomontValue a))

/-- What the sequence leaves in P[pd]. -/
def ringProductValue (a b : Poly) : Poly :=
  polyNormalizeValue (invntt defaultSchedule (polyBasemulValue (transformed a) (transformed b)))

@[simp] theorem exactMode_polyResult (s : State) (pd : PReg) (ok : Fin 256 → Bool) (v : Poly) :
    ExactMode (polyResult s pd ok v) ↔ ExactMode s := Iff.rfl

section Sequence

variable {s : State} (h : ExactMode s)

include h

theorem polyReg_polyResult_exact (pd : PReg) (ok : Fin 256 → Bool) (v : Poly) (r : PReg) :
    polyReg (polyResult s pd ok v) r = if r = pd then v else polyReg s r := by
  rw [polyReg_polyResult, observedPoly_exact h]

variable (hsched : s.cfg.invSchedule = defaultSchedule) (pd pa : PReg)

include hsched

/-- With two registers each operand is transformed in its own; pd may be either of them. -/
theorem performAll_product {pb : PReg} (hne : pa ≠ pb) :
    ∃ t, performAll [.polyTomont pa, .polyTomont pb, .ntt pa, .ntt pb, .polyNormalize pa, .polyNormalize pb,
        .polyBasemul pd pa pb, .invntt pd, .polyNormalize pd] s = .next t
      ∧ polyReg t pd = ringProductValue (polyReg s pa) (polyReg s pb) := by
  refine ⟨_, rfl, ?_⟩
  simp [polyReg_polyResult_exact, h, hsched, hne, hne.symm, ringProductValue, transformed]

/-- With one register it is transformed once and is both operands. -/
theorem performAll_square :
    ∃ t, performAll [.polyTomont pa, .ntt pa, .polyNormalize pa, .polyBasemul pd pa pa, .invntt pd,
        .polyNormalize pd] s = .next t
      ∧ polyReg t pd = ringProductValue (polyReg s pa) (polyReg s pa) := by
  refine ⟨_, rfl, ?_⟩
  simp [polyReg_polyResult_exact, h, hsched, ringProductValue, transformed]

end Sequence

/-! ### What the sequence computes -/

theorem forall_pair {P : Nat → Prop} (h : ∀ m < 128, P (2 * m) ∧ P (2 * m + 1)) : ∀ i < 256, P i := by
  intro i hi
  obtain ⟨m, rfl | rfl⟩ := i.even_or_odd'
  · exact (h m (by omega)).1
  · exact (h m (by omega)).2

theorem pairProductsWithin_coeff {c : Int} {a b : Poly} (ha : CoeffsWithin c a) (hb : CoeffsWithin c b) {m : Nat}
    (hm : m < 128) :
    PairProductsWithin (c * c) (coeff a (2 * m)) (coeff a (2 * m + 1)) (coeff b (2 * m)) (coeff b (2 * m + 1)) := by
  have habs {p : Poly} (hp : CoeffsWithin c p) : ∀ x ∈ [coeff p (2 * m), coeff p (2 * m + 1)], |x.toInt| ≤ c := by
    simp only [List.mem_pair, forall_eq_or_imp, forall_eq, abs_le]
    exact ⟨hp _ (by omega), hp _ (by omega)⟩
  exact pairProductsWithin_of_abs (habs ha) (habs hb)

section Basemul

variable {a b : Poly} {c : Int} (hc : c * c ≤ Q * 2 ^ 15 - 1) (ha : CoeffsWithin c a) (hb : CoeffsWithin c b)

include hc ha hb

theorem polyBasemulValue_range : CoeffsWithin 16383 (polyBasemulValue a b) := by
  refine forall_pair fun m hm => ?_
  obtain ⟨h0, h1⟩ := Prod.ext_iff.1 (coeff_polyBasemulValue a b hm)
  have hrange := basemulPair_range (abs_pairZeta_lt m) ((pairProductsWithin_coeff ha hb hm).mono hc)
  rw [← h0, ← h1, Q_eq] at hrange
  dsimp only at hrange
  omega

/-- A pair of the result is the product of the pairs modulo x^2 less the root of the block, times 2^-16. -/
theorem residue_polyBasemulValue {m : Nat} (hm : m < 128) :
    residue (polyBasemulValue a b) (2 * m)
        = 169 * (residue a (2 * m) * residue b (2 * m)
          + blockRoot (128 + m) * (residue a (2 * m + 1) * residue b (2 * m + 1)))
      ∧ residue (polyBasemulValue a b) (2 * m + 1)
        = 169 * (residue a (2 * m) * residue b (2 * m + 1) + residue a (2 * m + 1) * residue b (2 * m)) := by
  obtain ⟨h0, h1⟩ := Prod.ext_iff.1 (coeff_polyBasemulValue a b hm)
  have hcast := basemulPair_cast (abs_pairZeta_lt m)
    ((pairProductsWithin_coeff ha hb hm).mono (hc.trans (by decide)))
  rwa [← h0, ← h1, pairZeta_cast] at hcast

end Basemul

/-- The remainder of a multiple. -/
theorem blockRemainder_mul {v w : Nat → ZMod 3329} {c : ZMod 3329} (h : ∀ i < 256, v i = c * w i) (z : ZMod 3329)
    {r : Nat} (hr : r < 2) : blockRemainder v 2 128 z r = c * blockRemainder w 2 128 z r := by
  rw [blockRemainder, blockRemainder, Finset.mul_sum]
  refine Finset.sum_congr rfl fun j hj => ?_
  have hj := Finset.mem_range.1 hj
  rw [h _ (by omega), mul_assoc]

/-- Pair `m` of the transform is the remainder modulo x^2 less the root of block `m`; here of a multiple of `w`. -/
theorem residue_ntt_of_multiple {p : Poly} (hp : CoeffsWithin 9471 p) {w : Nat → ZMod 3329} {c : ZMod 3329}
    (h : ∀ i < 256, residue p i = c * w i) {m : Nat} (hm : m < 128) :
    residue (ntt p) (2 * m) = c * blockRemainder w 2 128 (blockRoot (128 + m)) 0
      ∧ residue (ntt p) (2 * m + 1) = c * blockRemainder w 2 128 (blockRoot (128 + m)) 1 := by
  have hpair (r : Nat) (hr : r < 2) :
      residue (ntt p) (2 * m + r) = c * blockRemainder w 2 128 (blockRoot (128 + m)) r := by
    rw [← blockRemainder_mul h _ hr, ntt_eq_forwardAfter, mul_comm 2 m]
    exact residue_forwardAfter hp le_rfl m hm r hr
  exact ⟨hpair 0 (by decide), hpair 1 (by decide)⟩

theorem polyTomontValue_range (a : Poly) : CoeffsWithin 9471 (polyTomontValue a) := by
  intro i hi
  have hrange := toMontgomery_range (coeff a i)
  rw [polyTomontValue, coeff_polyMap _ _ hi]
  rw [Q_eq] at hrange
  omega

theorem residue_polyTomontValue (a : Poly) {i : Nat} (hi : i < 256) :
    residue (polyTomontValue a) i = 2 ^ 16 * residue a i := by
  have hcast := congQ_iff_cast.1 (congQ_toMontgomery (coeff a i))
  rw [residue, polyTomontValue, coeff_polyMap _ _ hi, hcast, Int.cast_mul, mul_comm]
  rfl

theorem transformed_range (a : Poly) : CoeffsWithin 3328 (transformed a) := by
  intro i hi
  obtain ⟨h0, hQ, -⟩ := polyNormalizeValue_canonical (ntt (polyTomontValue a)) hi
  rw [Q_eq] at hQ
  rw [transformed]
  omega

theorem residue_transformed (a : Poly) {m : Nat} (hm : m < 128) :
    residue (transformed a) (2 * m) = 2 ^ 16 * blockRemainder (residue a) 2 128 (blockRoot (128 + m)) 0
      ∧ residue (transformed a) (2 * m + 1) = 2 ^ 16 * blockRemainder (residue a) 2 128 (blockRoot (128 + m)) 1 := by
  have hnormalize {i : Nat} (hi : i < 256) : residue (transformed a) i = residue (ntt (polyTomontValue a)) i :=
    congQ_iff_cast.1 (polyNormalizeValue_canonical _ hi).2.2
  rw [hnormalize (by omega), hnormalize (by omega)]
  exact residue_ntt_of_multiple (polyTomontValue_range a) (fun _ => residue_polyTomontValue a) hm

/-- The schoolbook product times 2^16, reduced to [0, Q). -/
def scaledProduct (a b : Poly) : Poly :=
  polyOfList ((List.range 256).map fun i => wrap16 (ringProductCoeff a b i * 2 ^ 16 % Q)) (by simp)

section Product

variable (a b : Poly)

theorem coeff_scaledProduct {i : Nat} (hi : i < 256) :
    (coeff (scaledProduct a b) i).toInt = ringProductCoeff a b i * 2 ^ 16 % Q := by
  rw [scaledProduct, coeff_polyOfList, Q_eq, ← wrap16_toInt_of_range (v := _ % 3329) (by omega) (by omega)]
  simp [List.getD_eq_getElem?_getD, hi]

theorem scaledProduct_range : CoeffsWithin 9471 (scaledProduct a b) := by
  intro i hi
  rw [coeff_scaledProduct a b hi, Q_eq]
  omega

theorem residue_scaledProduct {i : Nat} (hi : i < 256) :
    residue (scaledProduct a b) i = 2 ^ 16 * negacyclic 256 (residue a) (residue b) i := by
  have hmod : CongQ (ringProductCoeff a b i * 2 ^ 16 % Q) (ringProductCoeff a b i * 2 ^ 16) :=
    congQ_iff_modEq.2 (Int.mod_modEq _ _)
  rw [residue, coeff_scaledProduct a b hi, congQ_iff_cast.1 hmod, Int.cast_mul, ringProductCoeff_cast, mul_comm]
  rfl

/-- Pair by pair POLY_BASEMUL leaves the transform of the product: 2^16 from each operand, 2^-16 from basemul_pair. -/
theorem residue_basemul_transformed :
    ∀ i < 256, residue (polyBasemulValue (transformed a) (transformed b)) i = residue (ntt (scaledProduct a b)) i := by
  refine forall_pair fun m hm => ?_
  have hscale (u : ZMod 3329) : 2 ^ 16 * (169 * 2 ^ 16) * u = 2 ^ 16 * u := by
    have hunit : (169 * 2 ^ 16 : ZMod 3329) = 1 := by decide
    rw [hunit, mul_one]
  have hroot : blockRoot (128 + m) ^ 128 = -1 := blockRoot_pow le_rfl m hm
  obtain ⟨hpair0, hpair1⟩ := residue_polyBasemulValue (by decide) (transformed_range a) (transformed_range b) hm
  obtain ⟨ha0, ha1⟩ := residue_transformed a hm
  obtain ⟨hb0, hb1⟩ := residue_transformed b hm
  obtain ⟨hproduct0, hproduct1⟩ :=
    residue_ntt_of_multiple (scaledProduct_range a b) (fun _ => residue_scaledProduct a b) hm
  obtain ⟨hremainder0, hremainder1⟩ := blockRemainder_negacyclic hroot (residue a) (residue b)
  constructor
  · rw [hproduct0, hremainder0, ← hscale, hpair0, ha0, ha1, hb0, hb1]
    ring
  · rw [hproduct1, hremainder1, ← hscale, hpair1, ha0, ha1, hb0, hb1]
    ring

theorem coeff_ringProductValue {i : Nat} (hi : i < 256) :
    (coeff (ringProductValue a b) i).toInt = ringProductCoeff a b i * 2 ^ 16 % Q := by
  obtain ⟨h0, hQ, hnormalize⟩ := polyNormalizeValue_canonical
    (invntt defaultSchedule (polyBasemulValue (transformed a) (transformed b))) hi
  have hinverse := congQ_invntt (scaledProduct_range a b)
    (polyBasemulValue_range (by decide) (transformed_range a) (transformed_range b))
    (residue_basemul_transformed a b) hi
  rw [coeff_scaledProduct a b hi] at hinverse
  have hmod := congQ_iff_modEq.1 (hnormalize.trans hinverse)
  rwa [Int.ModEq, Int.emod_emod, Int.emod_eq_of_lt h0 hQ] at hmod

end Product

/-- Settles O35: the commands compute `ringProductValue`, whose coefficients are these; the operands need not be
canonical, as POLY_TOMONT brings any int16 within Q. -/
theorem ringMultiplication : Obligations.RingMultiplication := by
  intro s pa pd hexact hsched _
  refine ⟨fun pb hne _ => ?_, ?_⟩
  · obtain ⟨t, ht, hpd⟩ := performAll_product hexact hsched pd pa hne
    exact ⟨t, ht, fun i hi => hpd ▸ coeff_ringProductValue _ _ hi⟩
  · obtain ⟨t, ht, hpd⟩ := performAll_square hexact hsched pd pa
    exact ⟨t, ht, fun i hi => hpd ▸ coeff_ringProductValue _ _ hi⟩

end Sys2Proof.Machine

/-! ## The codec (43_codec.md)

The bits of the values that a command reads from BUF, beside those of the values that it leaves there; compress_coeff
as a rounding and what decompress_coeff makes of it; then the statements of 43_codec.md. -/

namespace Sys2Proof.Machine

/-! ### The values written to BUF -/

/-- A codec value that is in contract, or in exact mode any value, is the rule's. -/
theorem getD_observedValues {s : State} {ok : Fin 256 → Bool} {i : Nat} (hi : i < 256)
    (h : ExactMode s ∨ ok ⟨i, hi⟩ = true) (d : Nat) (v : List Nat) :
    (observedValues s ok d v).getD i 0 = v.getD i 0 := by
  obtain h | h := h
  · rw [observedValues_exact h]
  · unfold observedValues
    cases s.cfg.outOfContract
    · rfl
    · simp [List.getD_eq_getElem?_getD, hi, h]

theorem getD_map_coeff (f : Coeff → Nat) (c : Poly) {i : Nat} (hi : i < 256) :
    (c.toList.map f).getD i 0 = f (coeff c i) := by
  simp [coeff, List.getD_eq_getElem?_getD, hi]

/-- The stream bits of a coefficient that the rule's value is written for. -/
theorem bufBit_bufResult_coeff {s : State} {c : Poly} {bound : Int} {i b d : Nat} (hi : i < 256) (hb : b < d)
    (h : ExactMode s ∨ (0 ≤ (coeff c i).toInt ∧ (coeff c i).toInt < bound)) (f : Coeff → Nat) :
    bufBit (bufResult s (coeffBelow bound c) d (c.toList.map f) (encodeStream d)) (i * d + b)
      = (f (coeff c i)).testBit b := by
  rw [bufBit_bufResult _ _ _ hi hb, getD_observedValues hi (h.imp_right (coeffBelow_iff bound c ⟨i, hi⟩).2),
    getD_map_coeff f c hi]

/-- The packed value has the low 12 bits of the coefficient (43_codec.md R192). -/
theorem testBit_packCoeff (x : Coeff) {b : Nat} (hb : b < 12) : (packCoeff x).testBit b = x.getLsbD b := by
  rw [packCoeff, Nat.testBit_mod_two_pow, decide_eq_true hb, Bool.true_and, BitVec.testBit_toNat]

/-- Settles O36: the values are the packed coefficients, in contract or in exact mode. -/
theorem packWritesTheStream : Obligations.PackWritesTheStream := by
  refine fun s pa => ⟨_, rfl, fun i b hi hb h => ?_⟩
  rw [bufBit_bufResult_coeff hi hb h packCoeff, testBit_packCoeff _ hb]

/-- Settles O38: the values are the compressed coefficients, and the stream has 32 * d bytes. -/
theorem compressWritesTheStream : Obligations.CompressWritesTheStream := by
  refine fun s pa di hdi => ⟨_, exec_compressForm s hdi, fun k hk => ?_, fun i b hi hb h => ?_⟩
  · rw [compressResult, bufByte_bufResult, if_neg (by omega)]
  · exact bufBit_bufResult_coeff hi hb h (compressCoeff di.1)

/-! ### The values read from BUF -/

theorem getD_digits_lt (w n x j : Nat) : (digits w n x).getD j 0 < 2 ^ w := by
  induction n generalizing j x with
  | zero => simp [digits]
  | succ n ih =>
    cases j with
    | zero => exact Nat.mod_lt _ (Nat.two_pow_pos w)
    | succ j => exact ih _ j

/-- The d-bit value that the stream of BUF holds for coefficient `i` (43_codec.md R190). -/
def streamValue (s : State) (d i : Nat) : Nat := (decodeStream d (bufPrefix s (32 * d))).getD i 0

theorem streamValue_lt (s : State) (d i : Nat) : streamValue s d i < 2 ^ d := getD_digits_lt _ _ _ _

/-- Bit `n` of the first bytes of BUF, read as one number. -/
theorem testBit_streamOfValues_bufPrefix (s : State) {m n : Nat} (hn : n < 8 * m) :
    (streamOfValues 8 ((bufPrefix s m).map BitVec.toNat)).testBit n = bufBit s n := by
  have hbyte : ((bufPrefix s m).map BitVec.toNat).getD (n / 8) 0 = (bufByte s (n / 8)).toNat := by
    rw [show (0 : Nat) = BitVec.toNat (0 : Byte) from rfl, List.getD_map, bufPrefix,
      Memory.getD_readBlock _ (by omega), Nat.zero_add, bufByte]
  have hbit := testBit_streamOfValues (Nat.mod_lt n (by decide : 8 > 0)) ((bufPrefix s m).map BitVec.toNat) (n / 8)
  rwa [Nat.div_add_mod', hbyte, BitVec.testBit_toNat] at hbit

theorem testBit_streamValue (s : State) {d i b : Nat} (hi : i < 256) (hb : b < d) :
    (streamValue s d i).testBit b = bufBit s (i * d + b) := by
  have hn : i * d + b < 8 * (32 * d) := by
    calc i * d + b < (i + 1) * d := by rw [Nat.add_one_mul]; omega
      _ ≤ 256 * d := Nat.mul_le_mul_right d hi
      _ = 8 * (32 * d) := by omega
  rw [streamValue, decodeStream, testBit_digits hb hi, Nat.mul_comm d i, testBit_streamOfValues_bufPrefix s hn]

/-- The coefficients that a command without a precondition reads from BUF. -/
theorem coeff_polyResult_stream (s : State) (pd : PReg) (d : Nat) (f : Nat → Coeff) {i : Nat} (hi : i < 256) :
    coeff (polyReg (polyResult s pd everyLane (polyOfStream d f (bufPrefix s (32 * d)))) pd) i
      = f (streamValue s d i) := by
  have hlen : i < (decodeStream d (bufPrefix s (32 * d))).length := by simpa [decodeStream, digits_length] using hi
  rw [coeff_polyResult hi (.inr rfl), polyOfStream, coeff_polyOfList]
  simp [streamValue, List.getD_eq_getElem?_getD, hlen]

/-- Each decompress command is `decompressResult` at its width (43_codec.md R214 to R217). -/
theorem exec_decompressForm (s : State) {pd : PReg} {di : Nat × Instr} (h : di ∈ decompressForms pd) :
    exec di.2 s = .next (decompressResult di.1 pd s) := by
  simp only [decompressForms, List.mem_cons, List.not_mem_nil, or_false] at h
  rcases h with rfl | rfl | rfl | rfl <;> rfl

theorem ofNat_toInt_of_lt {v : Nat} (h : v < 2 ^ 12) : (BitVec.ofNat 16 v).toInt = v := by
  rw [← BitVec.ofInt_natCast]
  exact wrap16_toInt_of_range (by omega) (by omega)

/-- Settles O37: each coefficient is the 12-bit value of the stream, as it stands. -/
theorem unpackReadsTheStream : Obligations.UnpackReadsTheStream := by
  refine fun s pd => ⟨_, rfl, fun i hi => ?_⟩
  rw [show bufBytes = 32 * 12 from rfl, coeff_polyResult_stream s pd 12 _ hi]
  have hlt := streamValue_lt s 12 i
  rw [ofNat_toInt_of_lt hlt]
  refine ⟨by omega, by omega, fun b hb => ?_⟩
  rw [BitVec.getLsbD_ofNat, decide_eq_true (by omega), Bool.true_and, testBit_streamValue s hi hb]

/-! ### compress_coeff and decompress_coeff (43_codec.md R200 to R204) -/

theorem compressCoeff_floor (d : Nat) (x : Coeff) :
    (compressCoeff d x : Int) = (x.toInt * 2 ^ d + 1664) / 3329 % 2 ^ d :=
  Int.toNat_of_nonneg (Int.emod_nonneg _ (by positivity))

/-- compress_coeff is an integer nearest to x * 2^d / Q, modulo 2^d: 1664 is (Q - 1) / 2. -/
theorem compressCoeff_nearest (d : Nat) (x : Coeff) :
    ∃ m : Int, |x.toInt * 2 ^ d - m * Q| ≤ 1664 ∧ (compressCoeff d x : Int) = m % 2 ^ d := by
  refine ⟨(x.toInt * 2 ^ d + 1664) / 3329, abs_le.2 ?_, compressCoeff_floor d x⟩
  rw [Q_eq]
  omega

theorem compressCoeff_lt (d : Nat) (x : Coeff) : compressCoeff d x < 2 ^ d := by
  have hlt := Int.emod_lt_of_pos ((x.toInt * 2 ^ d + 1664) / 3329) (by positivity : (0 : Int) < 2 ^ d)
  rw [← compressCoeff_floor] at hlt
  exact_mod_cast hlt

/-- Settles O40: the distance from the nearest integer is at most 1664 / Q, short of one half. -/
theorem compressRounds : Obligations.CompressRounds := by
  intro d _ x
  obtain ⟨m, hm, heq⟩ := compressCoeff_nearest d x
  refine ⟨compressCoeff_floor d x, fun _ _ => ⟨m, ?_, heq⟩⟩
  rw [Q_eq] at *
  omega

theorem half_lt_Q_of_width : ∀ d ∈ [4, 5, 10, 11], (2 ^ (d - 1) : Int) < Q := by decide

section Width

variable {d : Nat} (hd : (2 ^ (d - 1) : Int) < Q)

include hd

/-- The quotient of R202 is canonical. -/
theorem decompress_quotient_range {y : Nat} (hy : y < 2 ^ d) :
    0 ≤ ((y : Int) * Q + 2 ^ (d - 1)) / 2 ^ d ∧ ((y : Int) * Q + 2 ^ (d - 1)) / 2 ^ d < Q := by
  have hy' : (y : Int) + 1 ≤ 2 ^ d := by exact_mod_cast hy
  refine ⟨by positivity, Int.ediv_lt_of_lt_mul (by positivity) ?_⟩
  calc (y : Int) * Q + 2 ^ (d - 1) < (y + 1) * Q := by linarith
    _ ≤ 2 ^ d * Q := by gcongr
    _ = Q * 2 ^ d := mul_comm _ _

/-- So the wrap does not change it. -/
theorem decompressCoeff_toInt {y : Nat} (hy : y < 2 ^ d) :
    (decompressCoeff d y).toInt = ((y : Int) * Q + 2 ^ (d - 1)) / 2 ^ d := by
  obtain ⟨h0, hQ⟩ := decompress_quotient_range hd hy
  rw [Q_eq] at hQ
  exact wrap16_toInt_of_range (by linarith) (by linarith)

theorem decompressCoeff_range {y : Nat} (hy : y < 2 ^ d) :
    0 ≤ (decompressCoeff d y).toInt ∧ (decompressCoeff d y).toInt < Q := by
  rw [decompressCoeff_toInt hd hy]
  exact decompress_quotient_range hd hy

/-- The two roundings together: at most 1664 and 2^(d-1) in units of 2^-d. The multiples of 2^d that compress_coeff
drops from the rounded value are multiples of Q after decompress_coeff. -/
theorem decompress_compress_error {e : Int} (he : 1664 + 2 ^ (d - 1) < 2 ^ d * (e + 1)) (c : Coeff) :
    ∃ k : Int, |(decompressCoeff d (compressCoeff d c)).toInt - c.toInt - k * Q| ≤ e := by
  obtain ⟨m, hm, hy⟩ := compressCoeff_nearest d c
  obtain ⟨hmlo, hmhi⟩ := abs_le.1 hm
  have hpos : (0 : Int) < 2 ^ d := by positivity
  have hhalf : (2 ^ d : Int) ≤ 2 * 2 ^ (d - 1) := by
    rw [← pow_succ']
    exact pow_le_pow_right₀ (by decide) (by omega)
  have hlo := Int.lt_mul_ediv_self_add (x := m % 2 ^ d * Q + 2 ^ (d - 1)) hpos
  have hhi := Int.mul_ediv_self_le (x := m % 2 ^ d * Q + 2 ^ (d - 1)) hpos.ne'
  rw [← hy, ← decompressCoeff_toInt hd (compressCoeff_lt d c), hy] at hlo hhi
  have hsplit := congrArg (· * Q) (Int.emod_add_mul_ediv m (2 ^ d))
  refine ⟨-(m / 2 ^ d), abs_le.2 ⟨?_, ?_⟩⟩ <;>
  · refine Int.lt_add_one_iff.1 (lt_of_mul_lt_mul_left ?_ hpos.le)
    linarith

end Width

/-- Settles O39: the value is the one that the stream holds, and the quotient of R202 is not changed by the wrap. -/
theorem decompressReadsTheStream : Obligations.DecompressReadsTheStream := by
  intro s pd di hdi
  have hd := half_lt_Q_of_width di.1 (List.mem_map_of_mem (f := Prod.fst) hdi)
  refine ⟨_, exec_decompressForm s hdi, fun i hi => ⟨streamValue s di.1 i, streamValue_lt s di.1 i,
    fun b hb => testBit_streamValue s hi hb, ?_⟩⟩
  rw [decompressResult, coeff_polyResult_stream s pd di.1 _ hi, decompressCoeff_toInt hd (streamValue_lt s di.1 i)]

/-- Settles O41: the range for every y, and the values of the rule's list by evaluation. -/
theorem decompressProperties : Obligations.DecompressProperties := by
  have hvalues : ∀ d ∈ [4, 5, 10, 11],
      (decompressCoeff d 0).toInt = 0 ∧ (decompressCoeff d (2 ^ (d - 1))).toInt = 1665 := by decide
  exact ⟨fun d hd => ⟨fun _ hy => decompressCoeff_range (half_lt_Q_of_width d hd) hy, hvalues d hd⟩,
    by decide, by decide⟩

/-- No multiple of Q is closer to a small value than 0 is. -/
theorem abs_le_abs_sub_mul_Q {v : Int} (hv : 2 * |v| ≤ Q) (k : Int) : |v| ≤ |v - k * Q| := by
  by_cases hk : k = 0
  · simp [hk]
  · have hQ : Q ≤ |k * Q| := by
      rw [abs_mul]
      exact le_mul_of_one_le_left (by decide) (Int.one_le_abs hk)
    have htriangle := abs_sub_abs_le_abs_sub (k * Q) v
    rw [abs_sub_comm] at htriangle
    linarith

/-- The widths with their worst errors (43_codec.md R204). -/
def worstErrors : List (Nat × Int) := [(4, 104), (5, 52), (10, 2), (11, 1)]

/-- A coefficient of each width that has the worst error. -/
def worstCoeff : Nat → Coeff
  | 4 => 104
  | 5 => 52
  | 10 => 5
  | _ => 1

theorem worstCoeff_attains : ∀ de ∈ worstErrors,
    0 ≤ (worstCoeff de.1).toInt ∧ (worstCoeff de.1).toInt < Q
      ∧ |(decompressCoeff de.1 (compressCoeff de.1 (worstCoeff de.1))).toInt - (worstCoeff de.1).toInt| = de.2 := by
  decide

theorem worstErrors_bound : ∀ de ∈ worstErrors,
    1664 + 2 ^ (de.1 - 1) < 2 ^ de.1 * (de.2 + 1) ∧ 2 * de.2 ≤ Q
      ∧ de.2 ≤ (Q + 2 ^ (de.1 + 1) - 1) / 2 ^ (de.1 + 1) + 1 := by decide

/-- Settles O42: the error by the two roundings, and a coefficient of each width that attains it. -/
theorem compressionError : Obligations.CompressionError := by
  intro de hde
  have hd := half_lt_Q_of_width de.1 (List.mem_map_of_mem (f := Prod.fst) hde)
  obtain ⟨hrounding, hsmall, hdoc⟩ := worstErrors_bound de hde
  obtain ⟨h0, hQ, hworst⟩ := worstCoeff_attains de hde
  rw [← hworst] at hsmall
  exact ⟨fun c _ _ => decompress_compress_error hd hrounding c,
    ⟨worstCoeff de.1, h0, hQ, fun k => hworst.ge.trans (abs_le_abs_sub_mul_Q hsmall k)⟩, hdoc⟩

/-! ### The round trip (43_codec.md R194) -/

/-- A coefficient in [0, 4096) is its low 12 bits. -/
theorem coeff_eq_of_low_bits {x y : Coeff} (hx : 0 ≤ x.toInt ∧ x.toInt < 4096) (hy : 0 ≤ y.toInt ∧ y.toInt < 4096)
    (h : ∀ b, b < 12 → x.getLsbD b = y.getLsbD b) : x = y := by
  have hhigh {z : Coeff} (hz : 0 ≤ z.toInt ∧ z.toInt < 4096) {b : Nat} (hb : 12 ≤ b) : z.getLsbD b = false := by
    have hlt : z.toNat < 2 ^ 12 := by
      have hz' := BitVec.toInt_eq_toNat_cond z
      omega
    exact Nat.testBit_lt_two_pow (hlt.trans_le (Nat.pow_le_pow_right (by decide) hb))
  refine BitVec.eq_of_getLsbD_eq fun b _ => ?_
  obtain hb | hb := Nat.lt_or_ge b 12
  · exact h b hb
  · rw [hhigh hx hb, hhigh hy hb]

/-- Bytes of BUF with the same stream bits are the same. -/
theorem bufByte_eq_of_bufBit {s t : State} {k : Nat} (h : ∀ n, n / 8 = k → bufBit t n = bufBit s n) :
    bufByte t k = bufByte s k := by
  refine BitVec.eq_of_getLsbD_eq fun b hb => ?_
  have hbit := h (8 * k + b) (by omega)
  rwa [bufBit, bufBit, Nat.mul_add_div (by decide), Nat.div_eq_of_lt hb, Nat.add_zero, Nat.mul_add_mod,
    Nat.mod_eq_of_lt hb] at hbit

/-- Settles O43: unpack reads the bits that pack writes, and pack writes the bits that unpack has read; a byte of BUF
after the stream is kept by both. -/
theorem packUnpackRoundTrip : Obligations.PackUnpackRoundTrip := by
  refine ⟨fun s pa pd hcoeffs => ?_, fun s r hwf => ?_⟩
  · obtain ⟨t, ht, hpack⟩ := packWritesTheStream s pa
    obtain ⟨u, hu, hunpack⟩ := unpackReadsTheStream t pd
    refine ⟨t, u, ht, hu, poly_ext_coeff fun i hi => ?_⟩
    obtain ⟨h0, hlt, hbits⟩ := hunpack i hi
    exact coeff_eq_of_low_bits ⟨h0, hlt⟩ (hcoeffs i hi) fun b hb =>
      (hbits b hb).trans (hpack i b hi hb (.inr (hcoeffs i hi)))
  · obtain ⟨t, ht, hunpack⟩ := unpackReadsTheStream s r
    obtain ⟨u, hu, hpack⟩ := packWritesTheStream t r
    obtain ⟨-, hbuf, -⟩ := polyCommandsFrame _ r s t rfl ht
    obtain ⟨hlater, -⟩ := bufCommandsFrame _ 384 t u rfl hu
    refine ⟨t, u, ht, hu, Memory.wf_ext (exec_keeps_buf_wf hu (exec_keeps_buf_wf ht hwf)) hwf fun k => ?_⟩
    obtain hk | hk := Nat.lt_or_ge k 384
    · refine bufByte_eq_of_bufBit fun n hn => ?_
      have hi : n / 12 < 256 := by omega
      have hb : n % 12 < 12 := Nat.mod_lt n (by decide)
      obtain ⟨h0, hlt, hbits⟩ := hunpack _ hi
      have hbit := (hpack _ _ hi hb (.inr ⟨h0, hlt⟩)).trans (hbits _ hb)
      rwa [Nat.div_add_mod'] at hbit
    · exact (hlater k hk).trans (hbuf k)

end Sys2Proof.Machine

/-! ## The bus errors and the sample words (60_exceptions.md)

Which BusError an access has, in the order of the checks, and the outcomes of the table of R238. -/

namespace Sys2Proof.Machine

/-! ### The BusError of an access (20_memory.md R55, 60_exceptions.md R243) -/

theorem busError_misaligned {off n : Nat} (hn : 0 < n) (hmis : off % n ≠ 0) : busError off n = some .misaligned :=
  if_pos ⟨hn.ne', hmis⟩

/-- An aligned access has no other BusError than that of its width. -/
theorem busError_width {off n : Nat} (halign : off % n = 0) (hmap : ¬MapAllows off n) :
    busError off n = some .width := by
  have hwidth : widthAllowed (regionOf off) n = false :=
    Bool.eq_false_iff.2 fun h => hmap ((widthAllowed_iff off n).1 h)
  simp [busError, halign, hwidth]

/-- Settles O53: the access has the BusError of its clause, and an access with a BusError changes nothing. -/
theorem busErrorsChangeNothing : Obligations.BusErrorsChangeNothing := by
  intro s es e off n hpin hoff hn hacc he
  refine ⟨fun hmis => ?_, fun halign hmap => ?_⟩
  · exact step_busError hpin hoff (busError_misaligned hn hmis) hacc he
  · exact step_busError hpin hoff (busError_width halign hmap) hacc he

/-! ### The sample words (60_exceptions.md R238) -/

/-- Settles O4: each list stops at its own check of the decoder, the accepted words are encodings, and a busy block
rejects any word. -/
theorem sampleWordOutcomes : Obligations.SampleWordOutcomes := by
  refine ⟨fun w hw => decode_illegalOp ?opcode, fun w hw => decode_reservedField (usedFields_listed ?known) ?nonzero,
    fun w hw => decode_unsupportedD (usedFields_listed ?listed) ?reserved ?unused ?width,
    decode_encode (.polyAdd 3 3 3), decode_encode (.polyCompressQ11 3), fun s w hbusy => ?busy⟩
  case busy =>
    rw [issue_busy w hbusy]
    exact ⟨rfl, rfl⟩
  -- Decided along the list: `decide` on `∀ w ∈ l` itself enumerates all words.
  all_goals
    revert w
    exact List.forall_iff_forall_mem.1 (by decide)

end Sys2Proof.Machine

/-! ## Resets and hazards (70_reset_and_hazards.md)

What a host write keeps, what an access can answer while BUSY = 1, the polls of STATUS before the core's turn, and the
values of a reset block; then the statements of 70_reset_and_hazards.md. -/

namespace Sys2Proof.Machine

/-! ### The parameters (R261, 10_state.md R37) -/

/-- A soft reset keeps the parameters too. -/
theorem writeCtrl_cfg (s : State) (v : Word) : (writeCtrl s v).cfg = s.cfg := by
  cases hv : v.getLsbD 1
  · rw [writeCtrl_ie s hv]
  · rw [writeCtrl_srst s hv, resetBlock_cfg]

theorem issue_cfg (s : State) (w : Word) : (issue s w).cfg = s.cfg := by
  rcases issue_cases s w with ⟨-, e⟩ | ⟨-, c, -, e⟩ | ⟨-, i, -, e⟩ <;> rw [e]

theorem writeWindow_cfg (s : State) {off n : Nat} (v : Word) (hoff : off < 4096) (hb : busError off n = none) :
    (writeWindow s off n v).cfg = s.cfg := by
  rcases writeWindow_cases s v hoff hb with
    e | ⟨-, e⟩ | ⟨-, e⟩ | ⟨-, e⟩ | ⟨-, e⟩ | ⟨-, -, e⟩ | ⟨-, r, c, e⟩ <;> rw [e]
  · exact writeCtrl_cfg s v
  · exact writeStatus_cfg s v
  · exact issue_cfg s v

/-- The reset input keeps the parameters at either level. -/
theorem resetInput_cfg (s : State) (b : Bool) : (resetInput s b).cfg = s.cfg := by cases b <;> rfl

/-- Settles O46: each kind of step keeps the parameters. -/
theorem parametersNeverChange : Obligations.ParametersNeverChange := by
  intro s t h
  rcases step_next_cases h with
    ⟨es, rs, rfl⟩ | ⟨-, -, i, -, e⟩ | ⟨-, off, n, v, es, -, hoff, hb, -, rfl⟩ | ⟨b, es, -, rfl⟩
  · rfl
  · obtain ⟨-, -, -, -, -, -, -, hcfg, -⟩ := exec_next e
    exact hcfg
  · exact writeWindow_cfg { s with events := es } v hoff hb
  · exact resetInput_cfg { s with events := es } b

/-! ### A pending command's operands (R263, R270) -/

/-- The operands and PENDING are as before. -/
def SameCommand (s t : State) : Prop := SameOperands s t ∧ t.pending = s.pending

theorem SameCommand.refl (s : State) : SameCommand s s := ⟨⟨fun _ => rfl, fun _ => rfl, rfl, rfl⟩, rfl⟩

/-- A host write that no hazard turns away on a busy block keeps the operands and PENDING, or is a soft reset: P, BUF
and SIN are owned, and a busy block accepts no other command. -/
theorem writeWindow_busy {s : State} {off n : Nat} (v : Word) (hbusy : s.busy = true) (hoff : off < 4096)
    (hb : busError off n = none) (hfree : ¬OwnedWhileBusy off) :
    SameCommand s (writeWindow s off n v) ∨ (off = 0x004 ∧ v.getLsbD 1 = true) := by
  obtain ⟨-, hmap⟩ := (busError_none_iff off n).1 hb
  unfold OwnedWhileBusy at hfree
  unfold MapAllows at hmap
  rcases writeWindow_cases s v hoff hb with
    e | ⟨ho, e⟩ | ⟨-, e⟩ | ⟨-, e⟩ | ⟨ho, -⟩ | ⟨hlo, hend, -⟩ | ⟨hlo, -⟩
  · rw [e]
    exact .inl (.refl s)
  · cases hv : v.getLsbD 1
    · rw [e, writeCtrl_ie s hv]
      exact .inl (.refl s)
    · exact .inr ⟨ho, rfl⟩
  · rw [e]
    exact .inl (.refl s)
  · rw [e, issue_busy v hbusy]
    exact .inl (.refl s)
  · omega
  · rw [bytesOfWord, List.length_map, List.length_range, bufBytes] at hend
    omega
  · omega

/-- Settles O47: of the steps only the core's turn, the soft reset and the reset input touch the command. -/
theorem pendingCommandUndisturbed : Obligations.PendingCommandUndisturbed := by
  intro s t h hbusy
  rcases step_next_cases h with
    ⟨es, rs, rfl⟩ | ⟨-, hcore, -⟩ | ⟨-, off, n, v, es, he, hoff, hb, hfree, rfl⟩ | ⟨b, es, he, rfl⟩
  · exact .inl (SameCommand.refl s)
  · rcases hcore with ⟨he, -⟩ | he
    · exact .inr (.inl he)
    · exact .inr (.inr (.inl ⟨_, he⟩))
  · rcases writeWindow_busy (s := { s with events := es }) v hbusy hoff hb fun ho => hfree ⟨hbusy, ho⟩ with
      hsame | ⟨rfl, hv⟩
    · exact .inl hsame
    · cases registers_width (by decide) hb
      exact .inr (.inr (.inr (.inr ⟨v, es, he, hv⟩)))
  · cases b
    · exact .inl (SameCommand.refl s)
    · exact .inr (.inr (.inr (.inl ⟨es, he⟩)))

/-! ### The stops (R270, R271) -/

/-- The outcomes of an access at a bus address: an answer, the hazard at an owned offset of a busy block, or the refusal
outside the window (log 5). -/
def AccessOutcome (s : State) (addr : Nat) (r : Host.Outcome State Fault Refusal) : Prop :=
  (∃ t, r = .next t)
    ∨ (r = .fault .hazardBusyAccess ∧ s.busy = true ∧ ∃ off, addr = s.cfg.mrcBase + off ∧ OwnedWhileBusy off)
    ∨ (r = .refused .outsideWindow ∧ s.cfg.inWindow addr = false)

theorem hostRead_outcome (s : State) (addr n : Nat) : AccessOutcome s addr (hostRead s addr n) := by
  rcases hostRead_cases s addr n with ⟨hout, e⟩ | ⟨off, ha, -, ⟨k, -, e⟩ | ⟨-, hbusy, ho, e⟩ | ⟨-, -, e⟩⟩
  · exact .inr (.inr ⟨e, hout⟩)
  · exact .inl ⟨_, e⟩
  · exact .inr (.inl ⟨e, hbusy, off, ha, ho⟩)
  · exact .inl ⟨_, e⟩

theorem hostWrite_outcome (s : State) (addr n : Nat) (v : Word) : AccessOutcome s addr (hostWrite s addr n v) := by
  rcases hostWrite_cases s addr n v with ⟨hout, e⟩ | ⟨off, ha, -, ⟨k, -, e⟩ | ⟨-, hbusy, ho, e⟩ | ⟨-, -, e⟩⟩
  · exact .inr (.inr ⟨e, hout⟩)
  · exact .inl ⟨_, e⟩
  · exact .inr (.inl ⟨e, hbusy, off, ha, ho⟩)
  · exact .inl ⟨_, e⟩

/-- A step answers a next state or is a host access: no command and no reset stops. -/
theorem step_next_or_access (s : State) :
    (∃ t, step s = .next t)
      ∨ ∃ addr n e es, (e = .read addr n ∨ ∃ v, e = .write addr n v) ∧ s.events = e :: es
          ∧ AccessOutcome s addr (step s) := by
  rcases step_cases s with ⟨-, e⟩ | ⟨-, -, i, -, e⟩ | ⟨-, addr, n, es, he, e⟩ | ⟨-, addr, n, v, es, he, e⟩
    | ⟨b, es, -, e⟩
  · exact .inl ⟨_, e⟩
  · obtain ⟨t, ht, -⟩ := exec_completes i { s with events := s.events.tail }
    exact .inl ⟨t, e.trans ht⟩
  · exact .inr ⟨addr, n, _, es, .inl rfl, he, e ▸ hostRead_outcome { s with events := es } addr n⟩
  · exact .inr ⟨addr, n, _, es, .inr ⟨v, rfl⟩, he, e ▸ hostWrite_outcome { s with events := es } addr n v⟩
  · exact .inl ⟨_, e⟩

/-- Settles O48: a step that stops is an access, and an access stops in two ways only. -/
theorem stopsOnlyAtHostAccesses : Obligations.StopsOnlyAtHostAccesses := by
  refine ⟨fun s f h => ?_, fun s r h => ?_⟩ <;>
    rcases step_next_or_access s with
      ⟨t, e⟩ | ⟨addr, n, e, es, hacc, he, ⟨t, e'⟩ | ⟨e', hbusy, off, rfl, ho⟩ | ⟨e', hout⟩⟩
  · cases e.symm.trans h
  · cases e'.symm.trans h
  · exact ⟨hbusy, off, n, e, es, ho, hacc, he⟩
  · cases e'.symm.trans h
  · cases e.symm.trans h
  · cases e'.symm.trans h
  · cases e'.symm.trans h
  · exact ⟨addr, n, e, es, hacc, he, hout⟩

/-- A legal access at an owned offset of a busy block is the hazard (R270). -/
theorem step_hazard {s : State} {es : List HostEvent} {e : HostEvent} {off n : Nat} (hpin : s.resetPin = false)
    (hlegal : LegalAccess off n) (hacc : IsAccess s.cfg off n e) (he : s.events = e :: es) (hbusy : s.busy = true)
    (ho : OwnedWhileBusy off) : step s = .fault .hazardBusyAccess := by
  have hnone := busError_none_of_legal hlegal
  have hforbidden := (busyForbidden_iff hlegal.off_lt hnone).2 ho
  obtain ⟨i, hi⟩ := (busy_iff s).1 hbusy
  obtain rfl | ⟨v, rfl⟩ := hacc
  · simp [step, advance, he, handleEvent, hpin, hostRead, offsetOf_add _ hlegal.off_lt, hnone,
      State.busy, hi, hforbidden]
  · simp [step, advance, he, handleEvent, hpin, hostWrite, offsetOf_add _ hlegal.off_lt, hnone,
      State.busy, hi, hforbidden]

/-- Settles O54: an owned offset of a busy block is the hazard, and nothing turns away any other legal access. -/
theorem busyAccessHazard : Obligations.BusyAccessHazard := by
  intro s es e off n hpin hlegal hacc he
  refine ⟨step_hazard hpin hlegal hacc he, fun hopen => ?_⟩
  have hfree : ¬(s.busy = true ∧ OwnedWhileBusy off) := by
    rintro ⟨hbusy, ho⟩
    obtain hidle | hnot := hopen
    · exact idle_not_owned hidle off ⟨hbusy, ho⟩
    · exact hnot ho
  obtain rfl | ⟨v, rfl⟩ := hacc
  · exact ⟨_, step_legalRead hpin hlegal hfree he⟩
  · exact ⟨_, step_legalWrite hpin hlegal hfree he⟩

/-! ### Polls of STATUS before the core's turn (R280) -/

/-- The level of the reset input, the queue and the responses are the model's own (log 1, log 11, log 12). -/
theorem sameBlock_with (s : State) (b : Bool) (es : List HostEvent) (rs : List Response) :
    SameBlock s { s with resetPin := b, events := es, responses := rs } :=
  ⟨rfl, rfl, rfl, rfl, rfl, rfl, rfl, rfl, rfl, rfl, rfl⟩

/-- A poll answers STATUS, busy or not, and takes nothing else with it. -/
theorem step_pollStatus {s : State} {es : List HostEvent} (hpin : s.resetPin = false)
    (he : s.events = pollStatus s.cfg :: es) :
    step s = .next { s with events := es, responses := .data (statusWord s) :: s.responses } :=
  step_registerRead hpin (by decide) (by decide) (.inr (by decide)) he

theorem steps_one {s t : State} (h : step s = .next t) : steps 1 s = .next t := by
  rw [steps, h]
  rfl

/-- After `k` polls the block is as before, with `k` equal answers. -/
theorem steps_polls (k m : Nat) {s : State} {es : List HostEvent} (hpin : s.resetPin = false)
    (he : s.events = List.replicate k (pollStatus s.cfg) ++ es) :
    steps (k + m) s
      = steps m { s with
          events := es, responses := List.replicate k (.data (statusWord s)) ++ s.responses } := by
  induction k generalizing s with
  | zero =>
    subst he
    rw [Nat.zero_add]
    rfl
  | succ k ih =>
    rw [Nat.succ_add, steps, step_pollStatus hpin he]
    refine (ih (s := { s with
      events := _, responses := .data (statusWord s) :: s.responses }) hpin rfl).trans ?_
    rw [List.replicate_succ', List.append_assoc]
    rfl

/-- No command reads the responses: with others recorded before it, a command does the same (log 12). -/
theorem exec_with_responses (i : Instr) (s : State) (rs : List Response) :
    ∃ u, exec i s = .next u ∧ exec i { s with responses := rs } = .next { u with responses := rs } := by
  cases i <;> exact ⟨_, rfl, rfl⟩

/-- The core's turn on a busy block performs the command, whatever has been answered before it. -/
theorem step_coreTurn_with_responses {s : State} {i : Instr} (hpin : s.resetPin = false) (hp : s.pending = some i)
    (es : List HostEvent) (rs : List Response) :
    ∃ u, exec i { s with events := es } = .next u
      ∧ step { s with events := .coreTurn :: es, responses := rs } = .next { u with responses := rs } := by
  obtain ⟨u, hu, ht⟩ := exec_with_responses i { s with events := es } rs
  have hturn := step_coreTurn_busy (s := { s with events := .coreTurn :: es, responses := rs }) rfl hpin hp
  exact ⟨u, hu, hturn.trans ht⟩

/-- Settles O49: the polls only record their answers, which the command does not read. -/
theorem latencyIndependence : Obligations.LatencyIndependence := by
  intro k s i es hpin hp he
  obtain ⟨u, hu, hturn⟩ := step_coreTurn_with_responses hpin hp es
    (List.replicate k (.data (statusWord s)) ++ s.responses)
  obtain ⟨-, -, -, -, -, -, -, -, -, hevents, -⟩ := exec_next hu
  have hrun := (steps_polls k 1 hpin he).trans (steps_one hturn)
  have hbusy : (statusWord s).getLsbD 0 = true := by rw [statusWord_busy, busy_mk_some s hp]
  exact ⟨_, u, hrun, hu, sameBlock_with u _ _ _, hevents, rfl, hbusy⟩

/-! ### The reset values (R260, R262, 10_state.md R42) -/

/-- Every coefficient of a reset register file is 0. -/
theorem coeff_polyReg_reset {t : State} (h : t.p = State.reset.p) (r : PReg) (i : Nat) (hi : i < 256) :
    coeff (polyReg t r) i = 0 := by
  have hzero : polyReg t r = Vector.replicate 256 0 := by
    rw [polyReg, h]
    exact Vector.getElem_replicate _
  rw [coeff, hzero, Vector.toList_replicate, List.getD_replicate 0 hi]

/-- While the reset input is asserted every event but its own change is taken from the queue without effect. -/
theorem step_inReset {s : State} (hpin : s.resetPin = true) (hev : ∀ b es, s.events ≠ .reset b :: es) :
    step s = .next { s with events := s.events.tail } := by
  rcases step_cases s with ⟨-, e⟩ | ⟨hr, -⟩ | ⟨hr, -⟩ | ⟨hr, -⟩ | ⟨b, es, he, -⟩
  · exact e
  · cases hpin.symm.trans hr
  · cases hpin.symm.trans hr
  · cases hpin.symm.trans hr
  · exact absurd he (hev b es)

/-- The step on a change of the reset input. -/
theorem step_reset {s : State} {b : Bool} {es : List HostEvent} (he : s.events = .reset b :: es) :
    step s = .next (resetInput { s with events := es } b) := by
  rw [step, advance, he]
  rfl

/-- The step on a soft reset (R262). -/
theorem step_softReset {s : State} {es : List HostEvent} {v : Word} (hpin : s.resetPin = false)
    (hv : v.getLsbD 1 = true) (he : s.events = .write (s.cfg.mrcBase + 0x004) 4 v :: es) :
    step s = .next (respond (resetBlock { s with events := es }) .done) := by
  rw [step_registerWrite hpin (by decide) (by decide) (.inr (by decide)) he]
  simp only [writeRegister, writeCtrl_srst _ hv]

/-- Settles O50: the asserted input leaves a reset block, in which no event but a change of the input has effect. -/
theorem resetInputResets : Obligations.ResetInputResets := by
  refine ⟨fun s es he => ?_, fun s es hpin hnext => ?_, fun s es he => step_reset he⟩
  · exact ⟨_, step_reset he, coeff_polyReg_reset rfl, fun _ => rfl, rfl, rfl,
      rfl, rfl, rfl, rfl, rfl, rfl, rfl, rfl, rfl⟩
  · rcases hnext with (⟨he, rfl⟩ | he) | ⟨off, n, e, rfl | ⟨v, rfl⟩, he⟩ <;>
      simpa [he] using step_inReset hpin (by simp [he])

/-- Settles O51: the write is the same reset of the block as that of the reset input. -/
theorem softReset : Obligations.SoftReset := by
  intro s es v hpin hv he
  exact ⟨_, step_softReset hpin hv he, coeff_polyReg_reset rfl, fun _ => rfl, rfl, rfl, rfl, rfl, rfl, rfl, rfl, rfl,
    rfl, rfl, rfl, rfl, _, step_reset rfl, sameBlock_with _ _ _ _⟩

end Sys2Proof.Machine
